-- ==== Sys2Proof/Word.lean ====
section
/-! DEFINITION. The bit-vector types of the block: what the spec treats as bits (00_scope.md section 6, R4). -/

namespace Sys2Proof

/-- A register as the bus sees it: `REGW = 32` bits (00_scope.md R4). -/
abbrev Word := BitVec 32

/-- A stored 16-bit field: a dimension (`DIMW`), a key value (`KEYW`), a key-stage result (00_scope.md R4). -/
abbrev Half := BitVec 16

/-- A pixel byte or a side-key entry (`PIXW = SKW = 8`, 00_scope.md R4, R9). -/
abbrev Byte := BitVec 8

/-- Four bits of a pixel byte (00_scope.md R9). -/
abbrev Nibble := BitVec 4

/-- A byte offset inside the block: `ADDRW = 27` bits (00_scope.md R4, 20_memory.md R50). -/
abbrev Offset := BitVec 27

end Sys2Proof
end

