-- ==== Sys2Proof/Config.lean ====
section
/-! DEFINITION. What an implementation fixes (00_scope.md R4) and the one free value of the model. -/

namespace Sys2Proof

/-- Which contents the reverse table ROM holds: parameter `REV_VARIANT` (00_scope.md R4, 40_lowbit_codec.md R103, R104). -/
inductive RevVariant where
  | doc     -- the document's literals, the normative default
  | lawful  -- the table that makes the codec round-trip law true
deriving DecidableEq, Repr

/-- The open parameters of the block. The spec says a model takes them as arguments (00_scope.md R4); `State` carries
them, no step changes them, and `State.reset` has the spec's defaults (DESIGN CHOICE, log entry 6). -/
structure Params where
  /-- `LMAX`: cells in each lane memory, and the largest legal `WIDTH*HEIGHT` (R4, `1 <= LMAX <= 2^24`). -/
  lmax : Nat
  /-- `REV_VARIANT` (R4). -/
  rev  : RevVariant
deriving DecidableEq, Repr

/-- The spec's defaults: `LMAX = 2^24`, `REV_VARIANT = DOC` (00_scope.md R4). -/
def Params.default : Params := { lmax := 16777216, rev := .doc }

/-- The range the spec allows for the parameters (00_scope.md R4). -/
def Params.wf (p : Params) : Bool := decide (1 ≤ p.lmax) && decide (p.lmax ≤ 16777216)

/-- `ID` reads this constant (10_state.md R13). -/
def Config.idWord : Word := 0x48545801#32

/-- What a lane-memory cell that nothing has written since power-up reads as. 70_reset_and_hazards.md R212 leaves it
unspecified but stable; the model fixes one byte (DESIGN CHOICE, unsafe, log entry 4). Any other power-up contents is a
`State` whose lane memories list it, so a statement about every state covers every contents. -/
def Config.unwrittenByte : Byte := 0#8

/-- FREE VALUE (70_reset_and_hazards.md R211, 93_implementation_defined.md U2; log entry 5). `abandonedByte k a` is the
byte that the cell at bus byte offset `a` holds after the `k`-th `RESET` that abandoned a running command. It has no
body that a proof can see. -/
opaque Config.abandonedByte : Nat → Nat → Byte

end Sys2Proof
end

