-- ==== Sys2Proof/Syntax.lean ====
section
/-! DEFINITION. The seven commands of the block (30_encoding.md R82), one constructor per row of the opcode table. -/

namespace Sys2Proof

/-- The lane numbers 0, 1, 2 (`NCH = 3`: 00_scope.md R4, 60_exceptions.md R196). -/
inductive Lane where
  | l0 | l1 | l2
deriving DecidableEq, Repr

/-- The number of a lane (60_exceptions.md R196). -/
def Lane.toNat : Lane → Nat
  | .l0 => 0
  | .l1 => 1
  | .l2 => 2

/-- The lanes in ascending order. -/
def Lane.all : List Lane := [.l0, .l1, .l2]

/-- The operand field `LANES[2:0]` of a format L command: bit `ch` selects lane `ch` (30_encoding.md R94). -/
abbrev LaneMask := BitVec 3

/-- The seven commands (30_encoding.md R82). A format L command carries its lane mask, its only operand (R85). -/
inductive Instr where
  /-- `KEY.INV`, format Z, opcode 0x01 (41_affine_permutation.md R128). -/
  | keyInv
  /-- `PERM.FWD lanes`, opcode 0x10 (41_affine_permutation.md R129). -/
  | permFwd (lanes : LaneMask)
  /-- `PERM.REV lanes`, opcode 0x11 (41_affine_permutation.md R131). -/
  | permRev (lanes : LaneMask)
  /-- `LBC.EMB lanes`, opcode 0x20 (40_lowbit_codec.md R105). -/
  | lbcEmb (lanes : LaneMask)
  /-- `LBC.EXT lanes`, opcode 0x21 (40_lowbit_codec.md R106). -/
  | lbcExt (lanes : LaneMask)
  /-- `WM.EMB lanes`, opcode 0x30 (42_layer_pipeline.md R155). -/
  | wmEmb (lanes : LaneMask)
  /-- `WM.EXT lanes`, opcode 0x31 (42_layer_pipeline.md R159). -/
  | wmExt (lanes : LaneMask)
deriving DecidableEq, Repr

/-- The lane mask a command carries; `KEY.INV` selects no lane (42_layer_pipeline.md R150 step 3). -/
def Instr.lanes : Instr → LaneMask
  | .keyInv => 0#3
  | .permFwd m => m
  | .permRev m => m
  | .lbcEmb m => m
  | .lbcExt m => m
  | .wmEmb m => m
  | .wmExt m => m

end Sys2Proof
end

