-- ==== Sys2Proof/Machine/State.lean ====
section
/-! DEFINITION. The state of the block (10_state.md), as plain data, and its value after reset (10_state.md R49). -/

namespace Sys2Proof.Machine

/-- One lane memory: the written cells by cell index, in one canonical form (`Memory.wf`, Machine/Ops.lean).
An unlisted cell reads as `Config.unwrittenByte`. -/
abbrev Memory := List Host.Cell

/-- The cause codes 0 to 5 of 10_state.md R19 and 60_exceptions.md R180; 6 to 15 are never produced (U8). -/
inductive Cause where
  /-- 0: no error since reset. -/
  | none
  /-- 1: the key stage found no inverse (60_exceptions.md R181). -/
  | keyInvalid
  /-- 2: the geometry and length check failed (60_exceptions.md R182). -/
  | dimMismatch
  /-- 3: an illegal word was written to `CMD` (60_exceptions.md R183). -/
  | illegalCmd
  /-- 4: `CMD` was written while busy (60_exceptions.md R184). -/
  | cmdWhileBusy
  /-- 5: a locked register or aperture was accessed (60_exceptions.md R185). -/
  | lockedAccess
deriving DecidableEq, Repr

/-- `CTRL`: the three interrupt enables (10_state.md R14). -/
structure Ctrl where
  ieDone : Bool
  ieDegr : Bool
  ieErr  : Bool
deriving DecidableEq, Repr

/-- The write-one-to-clear flags of `STATUS` (10_state.md R15). `BUSY` is not stored (R16); `LBUSY` stands in the lanes. -/
structure Flags where
  done    : Bool
  degr    : Bool
  errKey  : Bool
  errDim  : Bool
  errCmd  : Bool
  errBusy : Bool
deriving DecidableEq, Repr

/-- The AffineKey registers, 16 stored bits each (10_state.md R23). -/
structure Key where
  a  : Half
  b  : Half
  c  : Half
  d  : Half
  tx : Half
  ty : Half
deriving DecidableEq, Repr

/-- The key-stage results `DETN`, `DETINV`, `INV0` to `INV3` (10_state.md R24 to R26); their bits 31:16 read 0. -/
structure Inverse where
  detn   : Half
  detinv : Half
  inv0   : Half
  inv1   : Half
  inv2   : Half
  inv3   : Half
deriving DecidableEq, Repr

/-- What is private to one lane (60_exceptions.md R197): its bank (10_state.md R35 to R38), its `LBUSY` bit
(10_state.md R15) and its two memories (10_state.md R39, R40). -/
structure LaneState where
  len      : Word
  sklen    : Word
  degraded : Word
  dropped  : Word
  lbusy    : Bool
  layer    : Memory
  sk       : Memory
deriving DecidableEq, Repr

/-- The two memories of a lane (10_state.md R39, R40). -/
inductive MemKind where
  | layer | sk
deriving DecidableEq, Repr

/-- The response that ends a transaction (20_memory.md R50): `OK`, `OK` with a value, or `ERR`, which carries no
value (93_implementation_defined.md U4). A value of fewer than 32 bits is zero-extended (log entry 7). -/
inductive Response where
  | ok
  | value (v : Word)
  | err
deriving DecidableEq, Repr

/-- One thing that the world outside or a lane does: a host transaction (20_memory.md R50), the reset input
(70_reset_and_hazards.md R210), or the moment at which a lane takes its step (42_layer_pipeline.md R156). -/
inductive Event where
  /-- `MemRead(addr, n)`. -/
  | read (addr : Offset) (n : Nat)
  /-- `MemWrite(addr, n, v)`; only the low `8*n` bits of `v` count. -/
  | write (addr : Offset) (n : Nat) (v : Word)
  /-- `RESET`. -/
  | reset
  /-- Lane `ch` takes its completion step now, if it is enabled. -/
  | lane (ch : Lane)
deriving DecidableEq, Repr

/-- The whole state of the block (10_state.md), and four fields of the model's own: `params` (log entry 6),
`response` (log entry 7), `draws` (log entry 5) and `agenda` (log entry 1). -/
structure State where
  params   : Params
  ctrl     : Ctrl
  flags    : Flags
  cmdr     : Word
  cause    : Cause
  einfo    : Word
  width    : Half
  height   : Half
  key      : Key
  inv      : Inverse
  lane0    : LaneState
  lane1    : LaneState
  lane2    : LaneState
  response : Option Response
  draws    : Nat
  agenda   : List Event
deriving DecidableEq, Repr

/-- A lane after reset, its memories never written (10_state.md R49). -/
def LaneState.reset : LaneState :=
  { len := 0#32, sklen := 0#32, degraded := 0#32, dropped := 0#32, lbusy := false, layer := [], sk := [] }

/-- The block right after power-on reset (10_state.md R49): every register 0, nothing in execution, no cell written,
and nothing asked of it yet. -/
def State.reset : State :=
  { params := Params.default
    ctrl := { ieDone := false, ieDegr := false, ieErr := false }
    flags := { done := false, degr := false, errKey := false, errDim := false, errCmd := false, errBusy := false }
    cmdr := 0#32
    cause := .none
    einfo := 0#32
    width := 0#16
    height := 0#16
    key := { a := 0#16, b := 0#16, c := 0#16, d := 0#16, tx := 0#16, ty := 0#16 }
    inv := { detn := 0#16, detinv := 0#16, inv0 := 0#16, inv1 := 0#16, inv2 := 0#16, inv3 := 0#16 }
    lane0 := LaneState.reset
    lane1 := LaneState.reset
    lane2 := LaneState.reset
    response := none
    draws := 0
    agenda := [] }

/-- Why a step stops with a fault: never. The block answers every input (93_implementation_defined.md section 2:
nothing is `stuck`); a bus error is an answer `ERR` (20_memory.md R57) and a rejected command is an error event
(60_exceptions.md R180), both next states. So no constructor stands here (log entry 8). -/
inductive Fault where
deriving DecidableEq, Repr

/-- Why a step is refused by the model. -/
inductive Refusal where
  /-- Raised by an arm of `exec` whose instruction has no meaning yet (safe). No arm is left that raises it. -/
  | notModelled (mnemonic : String)
deriving DecidableEq, Repr

end Sys2Proof.Machine
end

