-- ==== Sys2Proof/Machine/Flags.lean ====
section
/-! DEFINITION. `STATUS`, `CTRL`, the cause codes and the interrupt output: every flag computation of the block
(10_state.md R14 to R19, 60_exceptions.md R187). -/

namespace Sys2Proof.Machine

/-- `STATUS.BUSY = LBUSY != 0` (10_state.md R16). -/
def State.busy (s : State) : Bool := s.lane0.lbusy || s.lane1.lbusy || s.lane2.lbusy

/-- A register bit at position `k`. -/
def bitAt (b : Bool) (k : Nat) : Word := if b then BitVec.ofNat 32 (2 ^ k) else 0#32

/-- The word that a read of `STATUS` returns (10_state.md R15). -/
def statusWord (s : State) : Word :=
  bitAt s.busy 0 ||| bitAt s.flags.done 1 ||| bitAt s.flags.degr 2 ||| bitAt s.flags.errKey 4 |||
  bitAt s.flags.errDim 5 ||| bitAt s.flags.errCmd 6 ||| bitAt s.flags.errBusy 7 |||
  bitAt s.lane0.lbusy 8 ||| bitAt s.lane1.lbusy 9 ||| bitAt s.lane2.lbusy 10

/-- Write-one-to-clear: the flags after a write of `w` to `STATUS` (10_state.md R17). -/
def clearFlags (w : Word) (f : Flags) : Flags :=
  { done := f.done && !w.getLsbD 1
    degr := f.degr && !w.getLsbD 2
    errKey := f.errKey && !w.getLsbD 4
    errDim := f.errDim && !w.getLsbD 5
    errCmd := f.errCmd && !w.getLsbD 6
    errBusy := f.errBusy && !w.getLsbD 7 }

/-- The word that a read of `CTRL` returns (10_state.md R14). -/
def ctrlWord (c : Ctrl) : Word := bitAt c.ieDone 0 ||| bitAt c.ieDegr 1 ||| bitAt c.ieErr 2

/-- The enables a write of `w` to `CTRL` stores: bits 2:0 (10_state.md R14). -/
def ctrlOfWord (w : Word) : Ctrl := { ieDone := w.getLsbD 0, ieDegr := w.getLsbD 1, ieErr := w.getLsbD 2 }

/-- The code of a cause, bits 3:0 of `CAUSE` (10_state.md R19). -/
def causeCode : Cause → Word
  | .none => 0#32
  | .keyInvalid => 1#32
  | .dimMismatch => 2#32
  | .illegalCmd => 3#32
  | .cmdWhileBusy => 4#32
  | .lockedAccess => 5#32

/-- The flag that an error event of the cause sets (60_exceptions.md R180). -/
def setErrorFlag : Cause → Flags → Flags
  | .none, f => f
  | .keyInvalid, f => { f with errKey := true }
  | .dimMismatch, f => { f with errDim := true }
  | .illegalCmd, f => { f with errCmd := true }
  | .cmdWhileBusy, f => { f with errBusy := true }
  | .lockedAccess, f => { f with errBusy := true }

/-- Some `ERR_*` flag is set (60_exceptions.md R187). -/
def Flags.anyError (f : Flags) : Bool := f.errKey || f.errDim || f.errCmd || f.errBusy

/-- The interrupt output, level-sensitive (60_exceptions.md R187). -/
def irq (s : State) : Bool :=
  (s.ctrl.ieDone && s.flags.done) || (s.ctrl.ieDegr && s.flags.degr) || (s.ctrl.ieErr && s.flags.anyError)

end Sys2Proof.Machine
end

