-- ==== Sys2Proof/WellFormed.lean ====
section
/-! DEFINITION. Which commands can be written as a legal word (30_encoding.md R81, R86). -/

namespace Sys2Proof

/-- The one check on a command: a format L command selects at least one lane (30_encoding.md R81, R86).
Everything else that makes a word illegal cannot be written as an `Instr`. -/
def Instr.wellFormed : Instr → Bool
  | .keyInv => true
  | .permFwd m => decide (m ≠ 0#3)
  | .permRev m => decide (m ≠ 0#3)
  | .lbcEmb m => decide (m ≠ 0#3)
  | .lbcExt m => decide (m ≠ 0#3)
  | .wmEmb m => decide (m ≠ 0#3)
  | .wmExt m => decide (m ≠ 0#3)

end Sys2Proof
end

