-- ==== Sys2Proof/Decode.lean ====
section
/-! DEFINITION. The decoder, total on 32-bit words, and the encoder (30_encoding.md R80 to R89). A command is one
32-bit word written to `CMD`; it is never stored in memory, so no byte order arises (R80, 20_memory.md R52). -/

namespace Sys2Proof

/-- The seven opcodes of 30_encoding.md R82. -/
inductive Opcode where
  | keyInv | permFwd | permRev | lbcEmb | lbcExt | wmEmb | wmExt
deriving DecidableEq, Repr

/-- Why a word is illegal (30_encoding.md R86), one name per condition. -/
inductive IllegalWord where
  /-- `w[31:16] != 0`. -/
  | reservedBits
  /-- `w[15:11] != 0`: a lane this hardware does not have. -/
  | absentLane
  /-- `w[7:0]` is no opcode. -/
  | unknownOpcode
  /-- `KEY.INV` with a lane bit. -/
  | keyInvWithLanes
  /-- A lane opcode with `w[10:8] = 0`. -/
  | emptyLaneMask
deriving DecidableEq, Repr

/-- Field `OP`, word bits 7:0 (30_encoding.md R80). -/
def opField (w : Word) : Byte := w.extractLsb' 0 8

/-- Field `LANES[2:0]`, word bits 10:8 (30_encoding.md R80, R94). -/
def laneField (w : Word) : LaneMask := w.extractLsb' 8 3

/-- Word bits 15:11, the lanes 3 to 7 that do not exist (30_encoding.md R80). -/
def absentLaneField (w : Word) : BitVec 5 := w.extractLsb' 11 5

/-- Field `MBZ`, word bits 31:16 (30_encoding.md R80). -/
def mbzField (w : Word) : Half := w.extractLsb' 16 16

/-- The opcode byte of an operation (30_encoding.md R82). -/
def opcodeByte : Opcode → Byte
  | .keyInv  => 0x01#8
  | .permFwd => 0x10#8
  | .permRev => 0x11#8
  | .lbcEmb  => 0x20#8
  | .lbcExt  => 0x21#8
  | .wmEmb   => 0x30#8
  | .wmExt   => 0x31#8

/-- The operation an opcode byte names, if any (30_encoding.md R82). -/
def opcodeOf (b : Byte) : Option Opcode :=
  if b = 0x01#8 then some .keyInv
  else if b = 0x10#8 then some .permFwd
  else if b = 0x11#8 then some .permRev
  else if b = 0x20#8 then some .lbcEmb
  else if b = 0x21#8 then some .lbcExt
  else if b = 0x30#8 then some .wmEmb
  else if b = 0x31#8 then some .wmExt
  else none

/-- A format L command needs a non-empty lane mask (30_encoding.md R81, R86). -/
def decodeLanes (mk : LaneMask → Instr) (m : LaneMask) : Except IllegalWord Instr :=
  if m = 0#3 then .error .emptyLaneMask else .ok (mk m)

/-- The decoder of 30_encoding.md R89: reads no state, and names why it rejects a word (R86). -/
def decode (w : Word) : Except IllegalWord Instr :=
  if mbzField w ≠ 0#16 then .error .reservedBits
  else if absentLaneField w ≠ 0#5 then .error .absentLane
  else
    match opcodeOf (opField w) with
    | none => .error .unknownOpcode
    | some .keyInv => if laneField w = 0#3 then .ok .keyInv else .error .keyInvWithLanes
    | some .permFwd => decodeLanes .permFwd (laneField w)
    | some .permRev => decodeLanes .permRev (laneField w)
    | some .lbcEmb => decodeLanes .lbcEmb (laneField w)
    | some .lbcExt => decodeLanes .lbcExt (laneField w)
    | some .wmEmb => decodeLanes .wmEmb (laneField w)
    | some .wmExt => decodeLanes .wmExt (laneField w)

/-- The opcode of a command (30_encoding.md R82). -/
def Instr.opcode : Instr → Opcode
  | .keyInv => .keyInv
  | .permFwd _ => .permFwd
  | .permRev _ => .permRev
  | .lbcEmb _ => .lbcEmb
  | .lbcExt _ => .lbcExt
  | .wmEmb _ => .wmEmb
  | .wmExt _ => .wmExt

/-- The command word `OP + 256 * mask`, every other bit zero (30_encoding.md R80, R81, R91). -/
def encode (i : Instr) : Word := 0#21 ++ i.lanes ++ opcodeByte i.opcode

/-- The command the decoder reads from the low `nbits` bits of `w`, numbered as the opcode table numbers them. A
command has 32 bits; a number that needs more is no command word. -/
def decodeTableWord (nbits w : Nat) : Option Instr :=
  if w % 2 ^ nbits < 2 ^ 32 then
    match decode (BitVec.ofNat 32 (w % 2 ^ nbits)) with
    | .ok i => some i
    | .error _ => none
  else none

end Sys2Proof
end

