-- ==== Sys2Proof/Machine/Operands.lean ====
section
/-! DEFINITION. The operand forms: lane masks, pixel bytes, the signed key, coordinates, and the two index maps
(00_scope.md R7, R9; 30_encoding.md R85, R94; 41_affine_permutation.md R120 to R130). -/

namespace Sys2Proof.Machine

/-- Lane `ch` is in the mask (30_encoding.md R94). -/
def selects (m : LaneMask) (ch : Lane) : Bool := m.getLsbD ch.toNat

/-- Bit planes 7 to 4 of a pixel byte (00_scope.md R9). -/
def highNibble (p : Byte) : Nibble := p.extractLsb' 4 4

/-- Bit planes 3 to 0 of a pixel byte (00_scope.md R9). -/
def lowNibble (p : Byte) : Nibble := p.extractLsb' 0 4

/-- The pixel byte `16*hi + lo` (00_scope.md R9). -/
def pixel (hi lo : Nibble) : Byte := hi ++ lo

/-- `signed16` of a stored half, sign-extended to 32 bits: what a key register reads as (10_state.md R23). -/
def signExtend32 (v : Half) : Word := v.signExtend 32

/-- `zext_32` of a stored half (10_state.md R21, R24). -/
def zeroExtend32 (v : Half) : Word := v.setWidth 32

/-- The six key values as integers (10_state.md R23, 30_encoding.md R85). -/
structure AffineKey where
  a  : Int
  b  : Int
  c  : Int
  d  : Int
  tx : Int
  ty : Int
deriving DecidableEq, Repr

/-- `signed16` of each key register (10_state.md R23). -/
def Key.values (k : Key) : AffineKey :=
  { a := k.a.toInt, b := k.b.toInt, c := k.c.toInt, d := k.d.toInt, tx := k.tx.toInt, ty := k.ty.toInt }

/-- `tmod(n, m)`: the truncated remainder (00_scope.md R7). -/
def tmod (n : Int) (m : Nat) : Int := n.tmod (m : Int)

/-- `emod(n, m)`: the Euclidean remainder, which is Lean's `%` on `Int` (00_scope.md R7). -/
def emod (n : Int) (m : Nat) : Nat := (n % (m : Int)).toNat

/-- The forward map `FWD(i)` of 41_affine_permutation.md R122. -/
def forwardIndex (k : AffineKey) (w h i : Nat) : Int :=
  let x : Int := (i % w : Nat)
  let y : Int := (i / w : Nat)
  let nx := tmod (k.a * x + k.b * y + k.tx) w
  let ny := tmod (k.c * x + k.d * y + k.ty) h
  nx + ny * (w : Int)

/-- "Normalize negative results into range": one conditional addition (41_affine_permutation.md R130). -/
def normalize (n : Int) (m : Nat) : Int := if n < 0 then n + (m : Int) else n

/-- The inverse matrix as unsigned integers (10_state.md R26). -/
structure InverseMatrix where
  i0 : Nat
  i1 : Nat
  i2 : Nat
  i3 : Nat
deriving DecidableEq, Repr

/-- `INV0` to `INV3` as unsigned integers (10_state.md R26). -/
def Inverse.matrix (v : Inverse) : InverseMatrix :=
  { i0 := v.inv0.toNat, i1 := v.inv1.toNat, i2 := v.inv2.toNat, i3 := v.inv3.toNat }

/-- The reverse map `REV(j)` of 41_affine_permutation.md R130. -/
def reverseIndex (v : InverseMatrix) (tx ty : Int) (w h j : Nat) : Nat :=
  let nx : Int := (j % w : Nat)
  let ny : Int := (j / w : Nat)
  let ax := tmod (nx - tx) w
  let ay := tmod (ny - ty) h
  let x := normalize (tmod ((v.i0 : Int) * ax + (v.i1 : Int) * ay) w) w
  let y := normalize (tmod ((v.i2 : Int) * ax + (v.i3 : Int) * ay) h) h
  (x + y * (w : Int)).toNat

/-- `DETN`: the normalised determinant (41_affine_permutation.md R125). -/
def determinant (k : AffineKey) (w : Nat) : Nat := emod (k.a * k.d - k.b * k.c) w

/-- The inverse search: the `i` in `[1, w)` with `emod(DETN*i, w) = 1`, if there is one (41_affine_permutation.md R126).
It is unique, so trying them in ascending order fixes nothing. -/
def inverseSearch (detn w : Nat) : Option Nat :=
  (List.range w).find? (fun i => decide (1 ≤ i) && decide (detn * i % w = 1))

/-- The inverse matrix for the inverse `v` of the determinant (41_affine_permutation.md R127), entries in `[0, w)`. -/
def inverseEntries (k : AffineKey) (v w : Nat) : InverseMatrix :=
  { i0 := emod ((v : Int) * k.d) w
    i1 := emod (-(v : Int) * k.b) w
    i2 := emod (-(v : Int) * k.c) w
    i3 := emod ((v : Int) * k.a) w }

/-- What the key stage computes from the key and the width (41_affine_permutation.md R125 to R128): the six result
registers, all but `DETN` zero when the key is not invertible. -/
def keyStageResult (k : AffineKey) (w : Nat) : Inverse :=
  let detn := determinant k w
  match inverseSearch detn w with
  | some v =>
    let m := inverseEntries k v w
    { detn := BitVec.ofNat 16 detn
      detinv := BitVec.ofNat 16 v
      inv0 := BitVec.ofNat 16 m.i0
      inv1 := BitVec.ofNat 16 m.i1
      inv2 := BitVec.ofNat 16 m.i2
      inv3 := BitVec.ofNat 16 m.i3 }
  | none =>
    { detn := BitVec.ofNat 16 detn, detinv := 0#16, inv0 := 0#16, inv1 := 0#16, inv2 := 0#16, inv3 := 0#16 }

/-- The key is invertible modulo the width: the search succeeds (41_affine_permutation.md R126). -/
def keyInvertible (k : AffineKey) (w : Nat) : Bool := (inverseSearch (determinant k w) w).isSome

end Sys2Proof.Machine
end

