-- ==== Sys2Proof/Machine/Ops.lean ====
section
/-! DEFINITION. The named operations over memories, lanes and registers that every meaning shares; the error event
(the block's exception, 60_exceptions.md R180), its acknowledgement (R193), reset, and the admission of a command
(42_layer_pipeline.md R150 to R153). -/

namespace Sys2Proof.Machine

/-! ### Lane memories -/

/-- The byte of cell `i` (10_state.md R39, R40). -/
def Memory.read : Memory → Nat → Byte
  | [], _ => Config.unwrittenByte
  | (a, b) :: m, i => if i = a then b else Memory.read m i

/-- List cell `i` with the byte `v`, keeping the cells in ascending order. -/
def Memory.insert (i : Nat) (v : Byte) : Memory → Memory
  | [] => [(i, v)]
  | (a, b) :: m =>
    if i < a then (i, v) :: (a, b) :: m
    else if i = a then (i, v) :: m
    else (a, b) :: Memory.insert i v m

/-- Cell `i` is listed no more. -/
def Memory.erase (i : Nat) (m : Memory) : Memory := m.filter (fun c => decide (c.1 ≠ i))

/-- Store `v` in cell `i`, keeping the canonical form: the byte that an unlisted cell reads as is not listed. -/
def Memory.write (m : Memory) (i : Nat) (v : Byte) : Memory :=
  if v = Config.unwrittenByte then Memory.erase i m else Memory.insert i v m

/-- The canonical form above cell `lo`: strictly ascending cells from `lo` on, no listed byte that an unlisted cell
reads as. -/
def Memory.canonicalFrom : Nat → Memory → Bool
  | _, [] => true
  | lo, (a, b) :: m => decide (lo ≤ a) && decide (b ≠ Config.unwrittenByte) && Memory.canonicalFrom (a + 1) m

/-- The canonical form of a lane memory: equal memories are equal data. -/
def Memory.wf (m : Memory) : Bool := Memory.canonicalFrom 0 m

/-- Only cells below `bound` are listed (10_state.md R39: cells 0 to `LMAX-1` exist). -/
def Memory.below (bound : Nat) (m : Memory) : Bool := m.all (fun c => decide (c.1 < bound))

/-- Store the bytes of `bytes` in the cells `i`, `i+1`, ... -/
def Memory.writeBytes (m : Memory) (i : Nat) : List Byte → Memory
  | [] => m
  | b :: bs => Memory.writeBytes (Memory.write m i b) (i + 1) bs

/-- The `n` cells from `i` on, little-endian: the lowest cell is bits 7:0 (20_memory.md R52). -/
def Memory.readLE (m : Memory) (i : Nat) : Nat → Nat
  | 0 => 0
  | n + 1 => (Memory.read m i).toNat + 256 * Memory.readLE m (i + 1) n

/-- The `n` low bytes of a value, bits 7:0 first (20_memory.md R52). -/
def bytesLE (v : Word) : Nat → List Byte
  | 0 => []
  | n + 1 => v.extractLsb' 0 8 :: bytesLE (v >>> 8) n

/-! ### Lanes -/

/-- The state of lane `ch` (60_exceptions.md R196). -/
def State.lane (s : State) : Lane → LaneState
  | .l0 => s.lane0
  | .l1 => s.lane1
  | .l2 => s.lane2

/-- The state with lane `ch` replaced. -/
def State.setLane (s : State) (ch : Lane) (l : LaneState) : State :=
  match ch with
  | .l0 => { s with lane0 := l }
  | .l1 => { s with lane1 := l }
  | .l2 => { s with lane2 := l }

/-- One memory of a lane. -/
def LaneState.mem (l : LaneState) : MemKind → Memory
  | .layer => l.layer
  | .sk => l.sk

/-- The lane with one memory replaced. -/
def LaneState.setMem (l : LaneState) (k : MemKind) (m : Memory) : LaneState :=
  match k with
  | .layer => { l with layer := m }
  | .sk => { l with sk := m }

/-- The lane mask latched in `CMDR` (10_state.md R16, R47). -/
def State.cmdrLanes (s : State) : LaneMask := laneField s.cmdr

/-- Lane `ch` is owned: busy, and in the mask latched in `CMDR` (10_state.md R16). It stays owned after its own
`LBUSY` falls, until the barrier. -/
def State.owned (s : State) (ch : Lane) : Bool := s.busy && selects s.cmdrLanes ch

/-- `N = WIDTH * HEIGHT` (00_scope.md R4). -/
def State.pixels (s : State) : Nat := s.width.toNat * s.height.toNat

/-- The block answers the transaction (20_memory.md R50). -/
def State.respond (r : Response) (s : State) : State := { s with response := some r }

/-! ### The error event and its acknowledgement -/

/-- An error event: sets the cause's flag and overwrites `CAUSE` and `EINFO`, nothing else (60_exceptions.md R180,
R192). -/
def raiseError (c : Cause) (info : Word) (s : State) : State :=
  { s with flags := setErrorFlag c s.flags, cause := c, einfo := info }

/-- The host acknowledges flags by writing ones to `STATUS`; `CAUSE` and `EINFO` keep the most recent cause
(60_exceptions.md R193, 10_state.md R17). -/
def acknowledge (w : Word) (s : State) : State := { s with flags := clearFlags w s.flags }

/-! ### Reset -/

/-- Base of a lane memory's aperture on the bus (20_memory.md R54). -/
def apertureBase : MemKind → Lane → Nat
  | .layer, ch => 0x1000000 * (1 + ch.toNat)
  | .sk, ch => 0x1000000 * (5 + ch.toNat)

/-- Cells `[0, n)` hold unspecified values after a `RESET` that abandons a command: a free byte each, for the `draw`-th
such reset (70_reset_and_hazards.md R211, U2; log entry 5). -/
def scramble (draw base n : Nat) (m : Memory) : Memory :=
  (List.range n).foldl (fun m i => m.write i (Config.abandonedByte draw (base + i))) m

/-- The running command writes the side key: `LBC.EMB` or `WM.EMB` (70_reset_and_hazards.md R211). -/
def State.embedRunning (s : State) : Bool :=
  decide (opcodeOf (opField s.cmdr) = some .lbcEmb) || decide (opcodeOf (opField s.cmdr) = some .wmEmb)

/-- Lane `ch` after `RESET`: its registers 0, its memories kept, except that a lane owned at that moment loses cells
`[0, N)` of its layer and, under an embed command, of its side key (70_reset_and_hazards.md R211, R212). -/
def resetLane (s : State) (ch : Lane) : LaneState :=
  let l := s.lane ch
  let n := s.pixels
  { LaneState.reset with
    layer := if s.owned ch then scramble s.draws (apertureBase .layer ch) n l.layer else l.layer
    sk := if s.owned ch && s.embedRunning then scramble s.draws (apertureBase .sk ch) n l.sk else l.sk }

/-- `RESET` (70_reset_and_hazards.md R210 to R213): every register takes its reset value, no lane step stays enabled,
the lane memories are treated as R211 and R212 say. The parameters and what is still asked of the block stay. -/
def resetBlock (s : State) : State :=
  { State.reset with
    params := s.params
    lane0 := resetLane s .l0
    lane1 := resetLane s .l1
    lane2 := resetLane s .l2
    draws := if s.busy then s.draws + 1 else s.draws
    agenda := s.agenda }

/-! ### Admission -/

/-- The information word of a geometry error without a lane (42_layer_pipeline.md R151). -/
def badGeometry : Word := 0x80000000#32

/-- Lane `ch` is selected and its declared length is not `N` (42_layer_pipeline.md R151). -/
def lengthWrong (m : LaneMask) (s : State) (ch : Lane) : Bool :=
  selects m ch && decide ((s.lane ch).len.toNat ≠ s.pixels)

/-- The geometry and length check of a lane command: the information word of its first failure
(42_layer_pipeline.md R151). -/
def laneGeometry (m : LaneMask) (s : State) : Option Word :=
  if s.width.toNat = 0 ∨ s.height.toNat = 0 ∨ s.params.lmax < s.pixels then some badGeometry
  else (Lane.all.find? (lengthWrong m s)).map (fun ch => BitVec.ofNat 32 ch.toNat)

/-- The geometry check of `KEY.INV`: only the width (42_layer_pipeline.md R151). -/
def keyGeometry (s : State) : Option Word := if s.width.toNat = 0 then some badGeometry else none

/-- The key stage writes its six registers, whether it succeeds or fails (41_affine_permutation.md R128,
42_layer_pipeline.md R152). -/
def keyStage (s : State) : State := { s with inv := keyStageResult s.key.values s.width.toNat }

/-- The key in the registers is invertible modulo `WIDTH` (41_affine_permutation.md R126). -/
def State.keyOk (s : State) : Bool := keyInvertible s.key.values s.width.toNat

/-- Steps 1 and 2 of `OnCmdWrite`, then the rest (42_layer_pipeline.md R150): a busy block refuses the word, an
ill-formed command is an illegal word (log entry 12). -/
def issue (i : Instr) (rest : State → State) (s : State) : State :=
  if s.busy then (raiseError .cmdWhileBusy (encode i) s).respond .err
  else if i.wellFormed then rest s
  else (raiseError .illegalCmd (encode i) s).respond .ok

/-- Step 3 of `OnCmdWrite` (42_layer_pipeline.md R150, R151), then the rest. -/
def checkGeometry (check : State → Option Word) (rest : State → State) (s : State) : State :=
  match check s with
  | some info => (raiseError .dimMismatch info s).respond .ok
  | none => rest s

/-- Step 4 of `OnCmdWrite` (42_layer_pipeline.md R150, R152), then the rest: a failed key stage rejects the command
with `DETN` as information (60_exceptions.md R181). -/
def checkKey (rest : State → State) (s : State) : State :=
  if s.keyOk then rest (keyStage s)
  else (raiseError .keyInvalid (zeroExtend32 (keyStage s).inv.detn) (keyStage s)).respond .ok

/-- The lane with its `LBUSY` bit as the acceptance leaves it (42_layer_pipeline.md R153). -/
def startLane (m : LaneMask) (ch : Lane) (l : LaneState) : LaneState := { l with lbusy := l.lbusy || selects m ch }

/-- Acceptance of a lane command (42_layer_pipeline.md R153): latched in `CMDR`, `DONE` and `DEGR` cleared, the selected
lanes started. -/
def acceptLanes (i : Instr) (s : State) : State :=
  State.respond .ok
    { s with
      cmdr := encode i
      flags := { s.flags with done := false, degr := false }
      lane0 := startLane i.lanes .l0 s.lane0
      lane1 := startLane i.lanes .l1 s.lane1
      lane2 := startLane i.lanes .l2 s.lane2 }

/-- Acceptance of `KEY.INV`, complete at once (42_layer_pipeline.md R153). -/
def acceptKeyInv (s : State) : State :=
  State.respond .ok { s with cmdr := encode .keyInv, flags := { s.flags with done := true, degr := false } }

/-- Admission of a lane command without a key stage (42_layer_pipeline.md R150). -/
def admitLanes (i : Instr) (s : State) : State :=
  issue i (checkGeometry (laneGeometry i.lanes) (acceptLanes i)) s

/-- Admission of a lane command with a key stage: `PERM.REV`, `WM.EXT` (42_layer_pipeline.md R150, R152). -/
def admitLanesWithKey (i : Instr) (s : State) : State :=
  issue i (checkGeometry (laneGeometry i.lanes) (checkKey (acceptLanes i))) s

/-! ### Lane results -/

/-- What a lane transform leaves and returns (42_layer_pipeline.md R154, R156). -/
structure LaneResult where
  lane    : LaneState
  dropped : Option Nat
  deg     : Option Nat
deriving DecidableEq, Repr

end Sys2Proof.Machine
end

