-- ==== Sys2Proof/Machine/Codec.lean ====
section
/-! DEFINITION. The Low-Bit Codec unit: its three tables, its lane transforms and the commands `LBC.EMB`, `LBC.EXT`
(40_lowbit_codec.md). -/

namespace Sys2Proof.Machine

/-- `CLASS_LUT` (40_lowbit_codec.md R101). -/
def classTable : List Nat := [0, 1, 1, 2, 1, 2, 2, 3, 1, 2, 2, 3, 2, 3, 3, 4]

/-- `SUBST_LUT` (40_lowbit_codec.md R102). -/
def substTable : List Nat := [0, 1, 2, 0, 3, 1, 2, 0, 4, 3, 4, 1, 5, 2, 3, 0]

/-- `CLASS_LUT[n]`, zero-extended to a side-key byte (40_lowbit_codec.md R101, R105). -/
def classOf (n : Nibble) : Byte := BitVec.ofNat 8 (classTable.getD n.toNat 0)

/-- `SUBST_LUT[n]` (40_lowbit_codec.md R102). -/
def substOf (n : Nibble) : Nibble := BitVec.ofNat 4 (substTable.getD n.toNat 0)

/-- `REV_LUT` with `REV_VARIANT = DOC`: the row of a class, its cells from column 0 (40_lowbit_codec.md R103). -/
def docRow : Nat → List (Option Nat)
  | 0 => [some 0, some 3, some 7, some 15]
  | 1 => [some 1, some 2, some 4, some 8]
  | 2 => [some 5, some 6, some 9, some 12]
  | 3 => [some 10, some 11, some 13]
  | 4 => [some 14]
  | _ => []

/-- `REV_LUT` with `REV_VARIANT = LAWFUL`; `none` is an empty cell (40_lowbit_codec.md R104). -/
def lawfulRow : Nat → List (Option Nat)
  | 0 => [some 0]
  | 1 => [none, some 1, some 2, some 4, some 8]
  | 2 => [some 3, some 5, some 6, some 9, some 10, some 12]
  | 3 => [some 7, some 11, some 13, some 14]
  | 4 => [some 15]
  | _ => []

/-- The reverse table of a variant (10_state.md R43). -/
def revRow : RevVariant → Nat → List (Option Nat)
  | .doc => docRow
  | .lawful => lawfulRow

/-- `REVF(k, c)`: the recovered nibble and whether it is a guard case (40_lowbit_codec.md R103, R104). `none` is an
absent side-key entry. Total: no table access is out of bounds (R111). -/
def revf (v : RevVariant) (k : Option Byte) (c : Nibble) : Nibble × Bool :=
  match k with
  | none => (0#4, true)
  | some k =>
    match (revRow v k.toNat).getD c.toNat none with
    | none => (0#4, true)
    | some n => (BitVec.ofNat 4 n, false)

/-- One pixel of `EMB` (40_lowbit_codec.md R105). -/
def embPixel (l : LaneState) (i : Nat) : LaneState :=
  let p := l.layer.read i
  let hi := highNibble p
  let lo := lowNibble p
  { l with
    sk := l.sk.write i (classOf lo)
    layer := l.layer.write i (pixel hi (substOf lo)) }

/-- The lane transform `EMB(ch)` over `n` pixels (40_lowbit_codec.md R105). -/
def embLayer (n : Nat) (l : LaneState) : LaneState :=
  { (List.range n).foldl embPixel l with sklen := BitVec.ofNat 32 n }

/-- The side-key entry of pixel `i`, absent from `SKLEN` on (10_state.md R36). -/
def LaneState.entry (l : LaneState) (i : Nat) : Option Byte :=
  if i < l.sklen.toNat then some (l.sk.read i) else none

/-- One pixel of `EXT`, with the running count (40_lowbit_codec.md R106). -/
def extPixel (v : RevVariant) (acc : LaneState × Nat) (i : Nat) : LaneState × Nat :=
  let l := acc.1
  let p := l.layer.read i
  let hi := highNibble p
  let c := lowNibble p
  let r := revf v (l.entry i) c
  ({ l with layer := l.layer.write i (pixel hi r.1) }, if r.2 then acc.2 + 1 else acc.2)

/-- The lane transform `EXT(ch)` over `n` pixels and its degraded count (40_lowbit_codec.md R106). -/
def extLayer (v : RevVariant) (n : Nat) (l : LaneState) : LaneState × Nat :=
  (List.range n).foldl (extPixel v) (l, 0)

/-- The lane transform of `LBC.EMB` (42_layer_pipeline.md R154). -/
def laneLbcEmb (s : State) (ch : Lane) : LaneResult :=
  { lane := embLayer s.pixels (s.lane ch), dropped := none, deg := none }

/-- The lane transform of `LBC.EXT` (42_layer_pipeline.md R154). -/
def laneLbcExt (s : State) (ch : Lane) : LaneResult :=
  let r := extLayer s.params.rev s.pixels (s.lane ch)
  { lane := r.1, dropped := none, deg := some r.2 }

/-- `LBC.EMB lanes`: the `CMD` write (40_lowbit_codec.md R105, 42_layer_pipeline.md R150). The lanes then take their
steps (`laneLbcEmb`, log entry 10). -/
def execLbcEmb (lanes : LaneMask) (s : State) : Host.Outcome State Fault Refusal :=
  .next (admitLanes (.lbcEmb lanes) s)

/-- `LBC.EXT lanes`: the `CMD` write (40_lowbit_codec.md R106, 42_layer_pipeline.md R150). The lanes then take their
steps (`laneLbcExt`, log entry 10). -/
def execLbcExt (lanes : LaneMask) (s : State) : Host.Outcome State Fault Refusal :=
  .next (admitLanes (.lbcExt lanes) s)

end Sys2Proof.Machine
end

