-- ==== Sys2Proof/Machine/Permutation.lean ====
section
/-! DEFINITION. The Affine Permutation Engine: its lane transforms and the commands `KEY.INV`, `PERM.FWD`, `PERM.REV`
(41_affine_permutation.md). -/

namespace Sys2Proof.Machine

/-- The output buffer `OUT[ch]` of `n` cells, filled with `0x00` (41_affine_permutation.md R124, 10_state.md R46: it lives
inside one lane step, log entry 9). -/
def freshOutput (n : Nat) : List Byte := List.replicate n 0#8

/-- The output buffer copied over cells `[0, n)` of the layer (41_affine_permutation.md R124). -/
def copyOutput (out : List Byte) (m : Memory) : Memory := m.writeBytes 0 out

/-- One pixel of `PFWD`: stored at its target, or dropped and counted (41_affine_permutation.md R123, R129). -/
def pfwdPixel (target : Nat → Int) (n : Nat) (src : Memory) (acc : List Byte × Nat) (i : Nat) : List Byte × Nat :=
  let ni := target i
  if 0 ≤ ni ∧ ni < (n : Int) then (acc.1.set ni.toNat (src.read i), acc.2) else (acc.1, acc.2 + 1)

/-- The lane transform `PFWD(ch)` and its drop count, sources in ascending order (41_affine_permutation.md R129). -/
def pfwdLayer (k : AffineKey) (w h : Nat) (l : LaneState) : LaneState × Nat :=
  let n := w * h
  let r := (List.range n).foldl (pfwdPixel (forwardIndex k w h) n l.layer) (freshOutput n, 0)
  ({ l with layer := copyOutput r.1 l.layer }, r.2)

/-- One pixel of `PREV` (41_affine_permutation.md R131). -/
def prevPixel (target : Nat → Nat) (src : Memory) (out : List Byte) (j : Nat) : List Byte :=
  out.set (target j) (src.read j)

/-- The lane transform `PREV(ch)`, destinations in ascending order (41_affine_permutation.md R131). -/
def prevLayer (v : InverseMatrix) (tx ty : Int) (w h : Nat) (l : LaneState) : LaneState :=
  let n := w * h
  let out := (List.range n).foldl (prevPixel (reverseIndex v tx ty w h) l.layer) (freshOutput n)
  { l with layer := copyOutput out l.layer }

/-- `PFWD` under the key and dimensions in the registers. -/
def State.pfwdOf (s : State) (l : LaneState) : LaneState × Nat :=
  pfwdLayer s.key.values s.width.toNat s.height.toNat l

/-- `PREV` under the inverse matrix, key and dimensions in the registers. -/
def State.prevOf (s : State) (l : LaneState) : LaneState :=
  prevLayer s.inv.matrix s.key.values.tx s.key.values.ty s.width.toNat s.height.toNat l

/-- The lane transform of `PERM.FWD` (42_layer_pipeline.md R154). -/
def lanePermFwd (s : State) (ch : Lane) : LaneResult :=
  let r := s.pfwdOf (s.lane ch)
  { lane := r.1, dropped := some r.2, deg := none }

/-- The lane transform of `PERM.REV` (42_layer_pipeline.md R154). -/
def lanePermRev (s : State) (ch : Lane) : LaneResult :=
  { lane := s.prevOf (s.lane ch), dropped := none, deg := none }

/-- `KEY.INV`: wholly inside the `CMD` write (41_affine_permutation.md R128). -/
def execKeyInv (s : State) : Host.Outcome State Fault Refusal :=
  .next (issue .keyInv (checkGeometry keyGeometry (checkKey acceptKeyInv)) s)

/-- `PERM.FWD lanes`: the `CMD` write (41_affine_permutation.md R129, R135: no key stage). The lanes then take their
steps (`lanePermFwd`, log entry 10). -/
def execPermFwd (lanes : LaneMask) (s : State) : Host.Outcome State Fault Refusal :=
  .next (admitLanes (.permFwd lanes) s)

/-- `PERM.REV lanes`: the `CMD` write with its key stage (41_affine_permutation.md R131). The lanes then take their
steps (`lanePermRev`, log entry 10). -/
def execPermRev (lanes : LaneMask) (s : State) : Host.Outcome State Fault Refusal :=
  .next (admitLanesWithKey (.permRev lanes) s)

end Sys2Proof.Machine
end

