-- ==== Sys2Proof/Machine/Pipeline.lean ====
section
/-! DEFINITION. The pipeline commands `WM.EMB` and `WM.EXT` (42_layer_pipeline.md R155, R159). -/

namespace Sys2Proof.Machine

/-- The lane transform of `WM.EMB`: permute, then re-code in place (42_layer_pipeline.md R155). -/
def laneWmEmb (s : State) (ch : Lane) : LaneResult :=
  let r := s.pfwdOf (s.lane ch)
  { lane := embLayer s.pixels r.1, dropped := some r.2, deg := none }

/-- The lane transform of `WM.EXT`: recover in place, then undo the permutation (42_layer_pipeline.md R159). -/
def laneWmExt (s : State) (ch : Lane) : LaneResult :=
  let r := extLayer s.params.rev s.pixels (s.lane ch)
  { lane := s.prevOf r.1, dropped := none, deg := some r.2 }

/-- `WM.EMB lanes`: the `CMD` write (42_layer_pipeline.md R155: no key stage). The lanes then take their steps
(`laneWmEmb`, log entry 10). -/
def execWmEmb (lanes : LaneMask) (s : State) : Host.Outcome State Fault Refusal :=
  .next (admitLanes (.wmEmb lanes) s)

/-- `WM.EXT lanes`: the `CMD` write with its key stage (42_layer_pipeline.md R159, R152). The lanes then take their
steps (`laneWmExt`, log entry 10). -/
def execWmExt (lanes : LaneMask) (s : State) : Host.Outcome State Fault Refusal :=
  .next (admitLanesWithKey (.wmExt lanes) s)

end Sys2Proof.Machine
end

