-- ==== Sys2Proof/Machine/Dispatch.lean ====
section
/-! DEFINITION. One arm per command. -/

namespace Sys2Proof.Machine

def exec (i : Instr) (s : State) : Host.Outcome State Fault Refusal :=
  match i with
  | .keyInv => Sys2Proof.Machine.execKeyInv s
  | .permFwd lanes => Sys2Proof.Machine.execPermFwd lanes s
  | .permRev lanes => Sys2Proof.Machine.execPermRev lanes s
  | .lbcEmb lanes => Sys2Proof.Machine.execLbcEmb lanes s
  | .lbcExt lanes => Sys2Proof.Machine.execLbcExt lanes s
  | .wmEmb lanes => Sys2Proof.Machine.execWmEmb lanes s
  | .wmExt lanes => Sys2Proof.Machine.execWmExt lanes s

end Sys2Proof.Machine
end

