-- ==== Sys2Proof/Machine/Lanes.lean ====
section
/-! DEFINITION. The lane engines: which transform a lane runs, its completion step and the barrier
(42_layer_pipeline.md R154, R156, R157). -/

namespace Sys2Proof.Machine

/-- The lane transform `T(ch)` of the opcode latched in `CMDR[7:0]` (42_layer_pipeline.md R154). `KEY.INV` and a word
that is no command start no lane, so the last two arms are never run from reset (log entry 13). -/
def laneTransform (s : State) (ch : Lane) : LaneResult :=
  match opcodeOf (opField s.cmdr) with
  | some .permFwd => lanePermFwd s ch
  | some .permRev => lanePermRev s ch
  | some .lbcEmb => laneLbcEmb s ch
  | some .lbcExt => laneLbcExt s ch
  | some .wmEmb => laneWmEmb s ch
  | some .wmExt => laneWmExt s ch
  | some .keyInv => { lane := s.lane ch, dropped := none, deg := none }
  | none => { lane := s.lane ch, dropped := none, deg := none }

/-- The lane after its step: the counts its transform returned are written, `LBUSY[ch]` falls (42_layer_pipeline.md
R156). A count that was not returned keeps its register (10_state.md R37, R38). -/
def LaneResult.finish (r : LaneResult) : LaneState :=
  { r.lane with
    dropped := match r.dropped with
      | some d => BitVec.ofNat 32 d
      | none => r.lane.dropped
    degraded := match r.deg with
      | some d => BitVec.ofNat 32 d
      | none => r.lane.degraded
    lbusy := false }

/-- The transform returned a positive degraded count (42_layer_pipeline.md R156). -/
def LaneResult.degrades (r : LaneResult) : Bool :=
  match r.deg with
  | some d => decide (0 < d)
  | none => false

/-- The barrier: the last lane to complete sets `DONE` (42_layer_pipeline.md R157). -/
def barrier (s : State) : State :=
  if s.busy then s else { s with flags := { s.flags with done := true } }

/-- The completion step `LaneComplete(ch)`, enabled while `LBUSY[ch] = 1` (42_layer_pipeline.md R156). A lane that is not
enabled does nothing (log entry 3). -/
def laneComplete (ch : Lane) (s : State) : State :=
  if (s.lane ch).lbusy then
    let r := laneTransform s ch
    let s1 := s.setLane ch r.finish
    barrier { s1 with flags := { s1.flags with degr := s1.flags.degr || r.degrades } }
  else s

/-- The lowest-numbered lane with an enabled step. -/
def nextLane (s : State) : Option Lane := Lane.all.find? (fun ch => (s.lane ch).lbusy)

/-- What the block does when nothing more is asked of it: a running command goes on, lane by lane
(42_layer_pipeline.md R158; the order is open and log entry 2 picks it), and an idle block does nothing
(60_exceptions.md R195). -/
def autonomous (s : State) : State :=
  match nextLane s with
  | some ch => laneComplete ch s
  | none => s

end Sys2Proof.Machine
end

