-- ==== Sys2Proof/Machine/HostPort.lean ====
section
/-! DEFINITION. The host port: the register map, the address map, the transactions, the busy lock
(10_state.md section 2, 20_memory.md, 70_reset_and_hazards.md section 3). -/

namespace Sys2Proof.Machine

/-- The registers of the block (10_state.md R12). -/
inductive Reg where
  | id | ctrl | status | cmd | cause | einfo
  | width | height
  | keyA | keyB | keyC | keyD | keyTx | keyTy
  | detn | detinv | inv0 | inv1 | inv2 | inv3
  | len (ch : Lane) | sklen (ch : Lane) | degraded (ch : Lane) | dropped (ch : Lane)
deriving DecidableEq, Repr

/-- The byte offset of a lane bank (10_state.md R34). -/
def bankBase (ch : Lane) : Nat := 0x100 + 0x20 * ch.toNat

/-- The byte offset of a register (10_state.md R12, R34). -/
def Reg.offset : Reg → Nat
  | .id => 0x000
  | .ctrl => 0x004
  | .status => 0x008
  | .cmd => 0x00C
  | .cause => 0x010
  | .einfo => 0x014
  | .width => 0x020
  | .height => 0x024
  | .keyA => 0x028
  | .keyB => 0x02C
  | .keyC => 0x030
  | .keyD => 0x034
  | .keyTx => 0x038
  | .keyTy => 0x03C
  | .detn => 0x040
  | .detinv => 0x044
  | .inv0 => 0x048
  | .inv1 => 0x04C
  | .inv2 => 0x050
  | .inv3 => 0x054
  | .len ch => bankBase ch
  | .sklen ch => bankBase ch + 0x04
  | .degraded ch => bankBase ch + 0x08
  | .dropped ch => bankBase ch + 0x0C

/-- Every register, in the order of the map (10_state.md R12). -/
def Reg.all : List Reg :=
  [.id, .ctrl, .status, .cmd, .cause, .einfo, .width, .height, .keyA, .keyB, .keyC, .keyD, .keyTx, .keyTy,
   .detn, .detinv, .inv0, .inv1, .inv2, .inv3,
   .len .l0, .sklen .l0, .degraded .l0, .dropped .l0,
   .len .l1, .sklen .l1, .degraded .l1, .dropped .l1,
   .len .l2, .sklen .l2, .degraded .l2, .dropped .l2]

/-- The register at a byte offset; every other offset of the register region holds none (10_state.md R12). -/
def regAt (a : Nat) : Option Reg := Reg.all.find? (fun r => decide (r.offset = a))

/-- What a transaction addresses: a register, or cells of a lane memory from one cell on (20_memory.md R54). -/
inductive Target where
  | reg (r : Reg)
  | cells (k : MemKind) (ch : Lane) (first : Nat)
deriving DecidableEq, Repr

/-- The lane memory behind each 16 MiB slot of the bus space; slots 0 and 4 hold none (20_memory.md R54). -/
def apertureSlot : Nat → Option (MemKind × Lane)
  | 1 => some (.layer, .l0)
  | 2 => some (.layer, .l1)
  | 3 => some (.layer, .l2)
  | 5 => some (.sk, .l0)
  | 6 => some (.sk, .l1)
  | 7 => some (.sk, .l2)
  | _ => none

/-- What a transaction of `n` bytes at `addr` addresses, or `none` for a bus error: a wrong size, a misaligned offset, an
offset that holds nothing, a register access of another size than 4, or cells beyond `LMAX` (20_memory.md R51, R53,
R54, R57). -/
def busTarget (p : Params) (addr : Offset) (n : Nat) : Option Target :=
  let a := addr.toNat
  if ¬ (n = 1 ∨ n = 2 ∨ n = 4) then none
  else if a % n ≠ 0 then none
  else if a < 0x1000 then
    if n = 4 then (regAt a).map Target.reg else none
  else
    match apertureSlot (a / 0x1000000) with
    | none => none
    | some (k, ch) =>
      let first := a % 0x1000000
      if first + n - 1 < p.lmax then some (.cells k ch first) else none

/-- The value a register reads as (10_state.md R13 to R26, R35 to R38). No read has a side effect (20_memory.md R58). -/
def readReg (s : State) : Reg → Word
  | .id => Config.idWord
  | .ctrl => ctrlWord s.ctrl
  | .status => statusWord s
  | .cmd => s.cmdr
  | .cause => causeCode s.cause
  | .einfo => s.einfo
  | .width => zeroExtend32 s.width
  | .height => zeroExtend32 s.height
  | .keyA => signExtend32 s.key.a
  | .keyB => signExtend32 s.key.b
  | .keyC => signExtend32 s.key.c
  | .keyD => signExtend32 s.key.d
  | .keyTx => signExtend32 s.key.tx
  | .keyTy => signExtend32 s.key.ty
  | .detn => zeroExtend32 s.inv.detn
  | .detinv => zeroExtend32 s.inv.detinv
  | .inv0 => zeroExtend32 s.inv.inv0
  | .inv1 => zeroExtend32 s.inv.inv1
  | .inv2 => zeroExtend32 s.inv.inv2
  | .inv3 => zeroExtend32 s.inv.inv3
  | .len ch => (s.lane ch).len
  | .sklen ch => (s.lane ch).sklen
  | .degraded ch => (s.lane ch).degraded
  | .dropped ch => (s.lane ch).dropped

/-- Bits 15:0 of a written word (10_state.md R21, R23). -/
def lowHalf (w : Word) : Half := w.extractLsb' 0 16

/-- The register's stored value after a write that is not refused, `CMD` apart (10_state.md R14, R17, R21 to R23, R28,
R35, R36): a read-only register ignores it. -/
def writeReg (r : Reg) (w : Word) (s : State) : State :=
  match r with
  | .ctrl => { s with ctrl := ctrlOfWord w }
  | .status => acknowledge w s
  | .width => { s with width := lowHalf w }
  | .height => { s with height := lowHalf w }
  | .keyA => { s with key := { s.key with a := lowHalf w } }
  | .keyB => { s with key := { s.key with b := lowHalf w } }
  | .keyC => { s with key := { s.key with c := lowHalf w } }
  | .keyD => { s with key := { s.key with d := lowHalf w } }
  | .keyTx => { s with key := { s.key with tx := lowHalf w } }
  | .keyTy => { s with key := { s.key with ty := lowHalf w } }
  | .len ch => s.setLane ch { s.lane ch with len := w }
  | .sklen ch => s.setLane ch { s.lane ch with sklen := w }
  | .id | .cmd | .cause | .einfo | .detn | .detinv | .inv0 | .inv1 | .inv2 | .inv3 | .degraded _ | .dropped _ => s

/-- A write to the register is refused now: the dimensions and the key while busy, the lengths of an owned lane
(10_state.md R27, 70_reset_and_hazards.md R217). -/
def writeLocked (s : State) : Reg → Bool
  | .width | .height | .keyA | .keyB | .keyC | .keyD | .keyTx | .keyTy => s.busy
  | .len ch | .sklen ch => s.owned ch
  | .id | .ctrl | .status | .cmd | .cause | .einfo | .detn | .detinv | .inv0 | .inv1 | .inv2 | .inv3
  | .degraded _ | .dropped _ => false

/-- A refused access: `LOCKED_ACCESS` with the byte offset, answered `ERR` (60_exceptions.md R185). -/
def refuseLocked (addr : Offset) (s : State) : State :=
  (raiseError .lockedAccess (addr.setWidth 32) s).respond .err

/-- A write of `w` to `CMD`: a legal word is executed, an illegal one is `ILLEGAL_CMD`, and while busy every word is
`CMD_WHILE_BUSY` (42_layer_pipeline.md R150, 60_exceptions.md R183, R184; for a legal word `exec` makes the busy test). -/
def writeCmd (w : Word) (s : State) : Host.Outcome State Fault Refusal :=
  match decode w with
  | .ok i => exec i s
  | .error _ =>
    if s.busy then .next ((raiseError .cmdWhileBusy w s).respond .err)
    else .next ((raiseError .illegalCmd w s).respond .ok)

/-- `MemRead(addr, n)` (20_memory.md R50, R55 to R58; 60_exceptions.md R185). -/
def hostRead (addr : Offset) (n : Nat) (s : State) : State :=
  match busTarget s.params addr n with
  | none => s.respond .err
  | some (.reg r) => s.respond (.value (readReg s r))
  | some (.cells k ch first) =>
    if s.owned ch then refuseLocked addr s
    else s.respond (.value (BitVec.ofNat 32 (((s.lane ch).mem k).readLE first n)))

/-- The state with the `n` low bytes of `v` stored from cell `first` on (20_memory.md R52, R56). -/
def storeCells (k : MemKind) (ch : Lane) (first n : Nat) (v : Word) (s : State) : State :=
  s.setLane ch ((s.lane ch).setMem k (((s.lane ch).mem k).writeBytes first (bytesLE v n)))

/-- `MemWrite(addr, n, v)` (20_memory.md R50, R55 to R57; 60_exceptions.md R184, R185). -/
def hostWrite (addr : Offset) (n : Nat) (v : Word) (s : State) : Host.Outcome State Fault Refusal :=
  match busTarget s.params addr n with
  | none => .next (s.respond .err)
  | some (.reg .cmd) => writeCmd v s
  | some (.reg r) =>
    if writeLocked s r then .next (refuseLocked addr s) else .next ((writeReg r v s).respond .ok)
  | some (.cells k ch first) =>
    if s.owned ch then .next (refuseLocked addr s) else .next ((storeCells k ch first n v s).respond .ok)

/-- One event (20_memory.md R50, R66; 42_layer_pipeline.md R156; 70_reset_and_hazards.md R210). -/
def runEvent (e : Event) (s : State) : Host.Outcome State Fault Refusal :=
  match e with
  | .read addr n => .next (hostRead addr n s)
  | .write addr n v => hostWrite addr n v s
  | .reset => .next (resetBlock s)
  | .lane ch => .next (laneComplete ch s)

/-- The offset of `CMD` (10_state.md R12). -/
def cmdOffset : Offset := 0x000000C#27

end Sys2Proof.Machine
end

