-- ==== Sys2Proof/Machine/Step.lean ====
section
/-! DEFINITION. One step of the block and its surroundings. -/

namespace Sys2Proof.Machine

/-- One step: the next event of the agenda, or, where the agenda is empty, the block's own next step (log entries 1
and 2). Each event is atomic (20_memory.md R50, 42_layer_pipeline.md R156). -/
def step (s : State) : Host.Outcome State Fault Refusal :=
  match s.agenda with
  | [] => .next (autonomous s)
  | e :: rest => runEvent e { s with agenda := rest }

/-- The block fetches no instructions (10_state.md R11): a command comes to it as a write to `CMD`, so the command word
is put at the head of the agenda as that write (log entry 11). -/
def State.withFetchWord (s : State) (nbits w : Nat) : State :=
  { s with agenda := .write cmdOffset 4 (BitVec.ofNat 32 (w % 2 ^ nbits)) :: s.agenda }

end Sys2Proof.Machine
end

