-- ==== Sys2Proof/Machine/HostProgram.lean ====
section
/-! DEFINITION. The notation of host programs as lists of events: transactions, commands, pseudo-instructions
(30_encoding.md R90 to R92), and the host's split and merge of an interleaved buffer (42_layer_pipeline.md R165).
The block itself knows none of this; it is the host side of a system model. -/

namespace Sys2Proof.Machine

/-- `WR reg, value` (30_encoding.md R90). -/
def asmWr (r : Reg) (v : Word) : Event := .write (BitVec.ofNat 27 r.offset) 4 v

/-- `RD reg` (30_encoding.md R90). -/
def asmRd (r : Reg) : Event := .read (BitVec.ofNat 27 r.offset) 4

/-- The byte offset written `LAYER[ch]+i` or `SK[ch]+i` (30_encoding.md R90). -/
def cellOffset (k : MemKind) (ch : Lane) (i : Nat) : Offset := BitVec.ofNat 27 (apertureBase k ch + i)

/-- `WRB`, `WRH`, `WRW` for `n` = 1, 2, 4 (30_encoding.md R90). -/
def asmWrCells (k : MemKind) (ch : Lane) (i n : Nat) (v : Word) : Event := .write (cellOffset k ch i) n v

/-- `RDB`, `RDH`, `RDW` for `n` = 1, 2, 4 (30_encoding.md R90). -/
def asmRdCells (k : MemKind) (ch : Lane) (i n : Nat) : Event := .read (cellOffset k ch i) n

/-- The mask of a brace list of lanes; a lane listed twice counts once (30_encoding.md R91). -/
def maskOfLanes (lanes : List Lane) : LaneMask := lanes.foldl (fun m ch => m ||| BitVec.ofNat 3 (2 ^ ch.toNat)) 0#3

/-- A command line: a write of the command word to `CMD` (30_encoding.md R91). -/
def asmCommand (i : Instr) : Event := asmWr .cmd (encode i)

/-- `CLRST` (30_encoding.md R92). -/
def asmClrst : List Event := [asmWr .status 0x000000F6#32]

/-- `SETKEY a, b, c, d, tx, ty` (30_encoding.md R92). -/
def asmSetKey (a b c d tx ty : Int) : List Event :=
  [asmWr .keyA (BitVec.ofInt 32 a), asmWr .keyB (BitVec.ofInt 32 b), asmWr .keyC (BitVec.ofInt 32 c),
   asmWr .keyD (BitVec.ofInt 32 d), asmWr .keyTx (BitVec.ofInt 32 tx), asmWr .keyTy (BitVec.ofInt 32 ty)]

/-- `SETDIM w, h` (30_encoding.md R92). -/
def asmSetDim (w h : Nat) : List Event := [asmWr .width (BitVec.ofNat 32 w), asmWr .height (BitVec.ofNat 32 h)]

/-- Single-byte writes of the bytes from cell `i` on. -/
def asmBytes (k : MemKind) (ch : Lane) : Nat → List Byte → List Event
  | _, [] => []
  | i, b :: bs => asmWrCells k ch i 1 (b.setWidth 32) :: asmBytes k ch (i + 1) bs

/-- `LOADL ch, b0 b1 ...` (30_encoding.md R92). -/
def asmLoadLayer (ch : Lane) (bytes : List Byte) : List Event :=
  asmBytes .layer ch 0 bytes ++ [asmWr (.len ch) (BitVec.ofNat 32 bytes.length)]

/-- `LOADSK ch, k0 k1 ...` (30_encoding.md R92). -/
def asmLoadSideKey (ch : Lane) (bytes : List Byte) : List Event :=
  asmBytes .sk ch 0 bytes ++ [asmWr (.sklen ch) (BitVec.ofNat 32 bytes.length)]

/-- `WAIT` (30_encoding.md R92): the host polls `STATUS` until `BUSY` is 0. As events: the lanes take their steps in the
given order (70_reset_and_hazards.md R224 allows any), then the poll that sees `BUSY = 0` (log entry 17). -/
def asmWait (order : List Lane) : List Event := order.map Event.lane ++ [asmRd .status]

/-- The host's split: byte `3*p + k` of the flat buffer is pixel `p` of lane `k` (42_layer_pipeline.md R165; PRESUMED,
log entry 18). -/
def splitLayer (flat : List Byte) (ch : Lane) (n : Nat) : List Byte :=
  (List.range n).map (fun p => flat.getD (3 * p + ch.toNat) 0#8)

/-- The host's merge, the inverse assignment (42_layer_pipeline.md R165; PRESUMED, log entry 18). -/
def mergeLayers (l0 l1 l2 : List Byte) (n : Nat) : List Byte :=
  (List.range (3 * n)).map (fun q =>
    match q % 3 with
    | 0 => l0.getD (q / 3) 0#8
    | 1 => l1.getD (q / 3) 0#8
    | _ => l2.getD (q / 3) 0#8)

end Sys2Proof.Machine
end

