-- ==== Sys2Proof/Safety.lean ====
section
/-! DEFINITION. The terms that claims use: the invariant of the block, when a command is admitted, which transactions
are bus errors or locked. Written from the rules' own words, not from the functions of Machine/. -/

namespace Sys2Proof.Machine

/-- What holds of each lane at every moment: canonical memories, only cells that exist, counters within `LMAX`
(10_state.md R39, R40; 60_exceptions.md R199). -/
structure LaneInvariant (p : Params) (l : LaneState) : Prop where
  layer_wf : l.layer.wf = true
  sk_wf : l.sk.wf = true
  layer_below : l.layer.below p.lmax = true
  sk_below : l.sk.below p.lmax = true
  degraded_le : l.degraded.toNat ≤ p.lmax
  dropped_le : l.dropped.toNat ≤ p.lmax

/-- The opcode byte of the latched command has a key stage (42_layer_pipeline.md R152). -/
def keyedCommand (w : Word) : Bool := decide (opField w = 0x11#8) || decide (opField w = 0x31#8)

/-- The invariant of the block: what every step keeps. -/
structure Invariant (s : State) : Prop where
  /-- 00_scope.md R4. -/
  params_wf : s.params.wf = true
  lanes : ∀ ch, LaneInvariant s.params (s.lane ch)
  /-- `CMDR` is 0 or the word of an accepted command (10_state.md R18). -/
  cmdr_legal : s.cmdr = 0#32 ∨ ∃ i, decode s.cmdr = .ok i
  /-- Only lanes of the latched mask run (42_layer_pipeline.md R153, R162). -/
  busy_selected : ∀ ch, (s.lane ch).lbusy = true → selects s.cmdrLanes ch = true
  /-- The geometry that admission checked still holds (42_layer_pipeline.md R151; 70_reset_and_hazards.md R217). -/
  busy_geometry : s.busy = true → 1 ≤ s.width.toNat ∧ 1 ≤ s.height.toNat ∧ s.pixels ≤ s.params.lmax
  busy_lengths : ∀ ch, s.owned ch = true → (s.lane ch).len.toNat = s.pixels
  /-- `DONE` rises only when the last lane completes (42_layer_pipeline.md R157). -/
  busy_not_done : s.busy = true → s.flags.done = false
  /-- While a keyed command runs, the inverse in the registers is that of the key and width (10_state.md R26). -/
  busy_key : s.busy = true → keyedCommand s.cmdr = true →
    keyInvertible s.key.values s.width.toNat = true ∧ s.inv = keyStageResult s.key.values s.width.toNat
  /-- A failed key stage leaves zeros (10_state.md R25, R26). -/
  failed_inverse : s.inv.detinv = 0#16 →
    s.inv.inv0 = 0#16 ∧ s.inv.inv1 = 0#16 ∧ s.inv.inv2 = 0#16 ∧ s.inv.inv3 = 0#16
  /-- `NONE` means no error since reset (10_state.md R19). -/
  no_cause : s.cause = .none → s.einfo = 0#32 ∧ s.flags.anyError = false

/-- The geometry of the dimension registers is legal (42_layer_pipeline.md R151). -/
def GeometryLegal (s : State) : Prop :=
  1 ≤ s.width.toNat ∧ 1 ≤ s.height.toNat ∧ s.width.toNat * s.height.toNat ≤ s.params.lmax

/-- A lane command with mask `m` passes the busy, legality, geometry and length tests (42_layer_pipeline.md R150,
R151). -/
def Admissible (m : LaneMask) (s : State) : Prop :=
  s.busy = false ∧ m ≠ 0#3 ∧ GeometryLegal s ∧
  ∀ ch, selects m ch = true → (s.lane ch).len.toNat = s.width.toNat * s.height.toNat

/-- `gcd(a*d - b*c, WIDTH) = 1` with `WIDTH >= 2`: the key is invertible (41_affine_permutation.md R126). -/
def KeyCoprime (s : State) : Prop :=
  2 ≤ s.width.toNat ∧ Int.gcd (s.key.a.toInt * s.key.d.toInt - s.key.b.toInt * s.key.c.toInt) s.width.toNat = 1

/-- The offset lies in an aperture slot of the address map (20_memory.md R54). -/
def inAperture (a : Nat) : Prop :=
  (0x1000000 ≤ a ∧ a < 0x4000000) ∨ (0x5000000 ≤ a ∧ a < 0x8000000)

/-- The four conditions of a bus error (20_memory.md R57). -/
def BusError (p : Params) (addr : Offset) (n : Nat) : Prop :=
  (¬ (n = 1 ∨ n = 2 ∨ n = 4) ∨ addr.toNat % n ≠ 0) ∨
  ((0x1000 ≤ addr.toNat ∧ addr.toNat < 0x1000000) ∨ (0x4000000 ≤ addr.toNat ∧ addr.toNat < 0x5000000) ∨
    (addr.toNat < 0x1000 ∧ ∀ r : Reg, r.offset ≠ addr.toNat)) ∨
  (addr.toNat < 0x1000 ∧ n ≠ 4) ∨
  (inAperture addr.toNat ∧ p.lmax ≤ addr.toNat % 0x1000000 + n - 1)

/-- The registers whose writes are refused while the block is busy (70_reset_and_hazards.md R217). -/
def sharedConfig : List Reg := [.width, .height, .keyA, .keyB, .keyC, .keyD, .keyTx, .keyTy]

/-- The read-only registers (10_state.md R28). -/
def readOnly : Reg → Bool
  | .id | .cause | .einfo | .detn | .detinv | .inv0 | .inv1 | .inv2 | .inv3 | .degraded _ | .dropped _ => true
  | _ => false

/-- The access touches a locked resource while the lock is in force (60_exceptions.md R185): a write to a shared
configuration register, a write to `LEN` or `SKLEN` of an owned lane, or any access in an aperture of an owned lane. -/
def Locked (s : State) (isWrite : Bool) (addr : Offset) : Prop :=
  s.busy = true ∧
  ((isWrite = true ∧ ∃ r ∈ sharedConfig, r.offset = addr.toNat) ∨
   (isWrite = true ∧ ∃ ch, s.owned ch = true ∧ ((Reg.len ch).offset = addr.toNat ∨ (Reg.sklen ch).offset = addr.toNat)) ∨
   (∃ k ch, s.owned ch = true ∧ apertureBase k ch ≤ addr.toNat ∧ addr.toNat < apertureBase k ch + 0x1000000))

/-- The state that a refused access leaves: `ERR_BUSY`, `CAUSE = 5`, `EINFO` the byte offset, response `ERR`, nothing
else (60_exceptions.md R185). -/
def refusedAccess (addr : Offset) (s : State) : State :=
  { s with
    flags := { s.flags with errBusy := true }
    cause := .lockedAccess
    einfo := BitVec.ofNat 32 addr.toNat
    response := some .err }

/-- The state after the acceptance of the lane command word `w` with mask `m` on an idle block (42_layer_pipeline.md
R153): latched in `CMDR`, `DONE` and `DEGR` cleared, exactly the lanes of the mask running, answered `OK`. -/
def acceptedState (w : Word) (m : LaneMask) (s : State) : State :=
  { s with
    cmdr := w
    flags := { s.flags with done := false, degr := false }
    lane0 := { s.lane0 with lbusy := m.getLsbD 0 }
    lane1 := { s.lane1 with lbusy := m.getLsbD 1 }
    lane2 := { s.lane2 with lbusy := m.getLsbD 2 }
    response := some .ok }

/-- The command word of an opcode byte and a mask, `OP + 256 * mask` (30_encoding.md R91). -/
def laneWord (op : Nat) (m : LaneMask) : Word := BitVec.ofNat 32 (op + 256 * m.toNat)

/-- Everything that no lane step writes is the same (42_layer_pipeline.md R160). -/
structure SharedUnchanged (s t : State) : Prop where
  params : t.params = s.params
  ctrl : t.ctrl = s.ctrl
  errKey : t.flags.errKey = s.flags.errKey
  errDim : t.flags.errDim = s.flags.errDim
  errCmd : t.flags.errCmd = s.flags.errCmd
  errBusy : t.flags.errBusy = s.flags.errBusy
  cmdr : t.cmdr = s.cmdr
  cause : t.cause = s.cause
  einfo : t.einfo = s.einfo
  width : t.width = s.width
  height : t.height = s.height
  key : t.key = s.key
  inv : t.inv = s.inv
  response : t.response = s.response
  draws : t.draws = s.draws
  agenda : t.agenda = s.agenda

/-- What every completion step of lane `ch` leaves from `s` to `t`, whatever it runs (42_layer_pipeline.md R156, R157,
R160): the other lanes and everything shared untouched, `LEN` kept, `LBUSY` down, `DONE` up if no lane runs any more,
`DEGR` never cleared (60_exceptions.md R197: set-only). -/
structure LaneStepFrame (ch : Lane) (s t : State) : Prop where
  shared : SharedUnchanged s t
  others : ∀ c, c ≠ ch → t.lane c = s.lane c
  len : (t.lane ch).len = (s.lane ch).len
  lbusy : (t.lane ch).lbusy = false
  done : t.flags.done = (s.flags.done || !t.busy)
  degr : s.flags.degr = true → t.flags.degr = true

/-- Cell `i` of a memory of lane `ch`. -/
def State.cell (s : State) (k : MemKind) (ch : Lane) (i : Nat) : Byte := ((s.lane ch).mem k).read i

/-- Every lane that is running takes its completion step, in the given order. -/
def completeAll (order : List Lane) (s : State) : State := order.foldl (fun s ch => laneComplete ch s) s

end Sys2Proof.Machine
end

