-- ==== Sys2Proof/Certificates/Slice0/Obligations.lean ====
section
/-! DEFINITION. The statements for the provers. -/

open Sys2Proof Sys2Proof.Machine

/-! ### Encoding -/

/-- 95_test_vectors.md V1 to V15: the words written out there decode as it says. -/
def Obligations.SampleWordsDecode : Prop :=
  decode 0x00000001#32 = .ok .keyInv ∧
  decode 0x00000110#32 = .ok (.permFwd 0b001#3) ∧
  decode 0x00000711#32 = .ok (.permRev 0b111#3) ∧
  decode 0x00000220#32 = .ok (.lbcEmb 0b010#3) ∧
  decode 0x00000521#32 = .ok (.lbcExt 0b101#3) ∧
  decode 0x00000730#32 = .ok (.wmEmb 0b111#3) ∧
  decode 0x00000431#32 = .ok (.wmExt 0b100#3) ∧
  ∀ w ∈ [0x00000000#32, 0x00000010#32, 0x00000101#32, 0x00000810#32, 0x00010110#32, 0x00000112#32, 0x00000732#32,
    0xFFFFFFFF#32], ∃ e, decode w = .error e

/-- 30_encoding.md R82, R89: the decoder reads exactly the words that the encoder writes for well-formed commands. -/
def Obligations.DecodeEncodeAgree : Prop :=
  ∀ (w : Word) (i : Instr), decode w = .ok i ↔ (i.wellFormed = true ∧ encode i = w)

/-- 30_encoding.md R86 and 60_exceptions.md R183: which words are illegal, and what writing one does. -/
def Obligations.IllegalWordRaisesIllegalCmd : Prop :=
  (∀ w : Word, (∃ i, decode w = .ok i) ↔
    (w = 0x00000001#32 ∨
      (w &&& 0xFFFFF8FF#32 ∈ [0x10#32, 0x11#32, 0x20#32, 0x21#32, 0x30#32, 0x31#32] ∧ w.extractLsb 10 8 ≠ 0))) ∧
  (∀ w : Word, (¬ ∃ i, decode w = .ok i) ↔
    (w.extractLsb 31 16 ≠ 0 ∨ w.extractLsb 15 11 ≠ 0 ∨
      w.extractLsb 7 0 ∉ [0x01#8, 0x10#8, 0x11#8, 0x20#8, 0x21#8, 0x30#8, 0x31#8] ∨
      (w.extractLsb 7 0 = 0x01#8 ∧ w.extractLsb 10 8 ≠ 0) ∨
      (w.extractLsb 7 0 ∈ [0x10#8, 0x11#8, 0x20#8, 0x21#8, 0x30#8, 0x31#8] ∧ w.extractLsb 10 8 = 0))) ∧
  (¬ ∃ i, decode 0x00000000#32 = .ok i) ∧
  (∀ (w : Word) (s : State), (¬ ∃ i, decode w = .ok i) → s.busy = false →
    hostWrite cmdOffset 4 w s = .next
      { s with
        flags := { s.flags with errCmd := true }
        cause := .illegalCmd
        einfo := w
        response := some .ok })

/-! ### The step -/

/-- 20_memory.md R72, 42_layer_pipeline.md R150 (and log entries 1, 11): a step at which the host writes a legal word to
`CMD` is that command's meaning, on the state with that write taken off the agenda. -/
def Obligations.StepRunsDecodedCommand : Prop :=
  (∀ (s : State) (w : Word) (i : Instr) (rest : List Event), s.agenda = .write cmdOffset 4 w :: rest →
    decode w = .ok i → step s = exec i { s with agenda := rest }) ∧
  (∀ (s : State) (nbits w : Nat) (i : Instr), decodeTableWord nbits w = some i →
    step (s.withFetchWord nbits w) = exec i s)

/-- 93_implementation_defined.md section 2: nothing is stuck. Every step answers a next state, and takes the head off the
agenda (log entry 1). -/
def Obligations.StepAlwaysAnswersNext : Prop :=
  ∀ s : State, ∃ t, step s = .next t ∧ t.agenda = s.agenda.tail

/-- 60_exceptions.md R195, 70_reset_and_hazards.md R213 (and log entry 2): an idle block that is asked nothing stays as
it is. -/
def Obligations.IdleBlockDoesNothing : Prop :=
  ∀ s : State, s.agenda = [] → s.busy = false → step s = .next s

/-- 42_layer_pipeline.md R158: a running command completes. With nothing more asked of it (log entry 2), the block is idle
after three steps, and `DONE` stands if it was busy. -/
def Obligations.RunningCommandCompletes : Prop :=
  ∀ s : State, s.agenda = [] →
    ∃ t1 t2 t3, step s = .next t1 ∧ step t1 = .next t2 ∧ step t2 = .next t3 ∧ t3.busy = false ∧
      (s.busy = true → t3.flags.done = true)

/-- The invariant holds after power-on reset. -/
def Obligations.ResetSatisfiesInvariant : Prop := Invariant State.reset

/-- Every step keeps the invariant of the block: canonical memories, existing cells, legal `CMDR`, running lanes
selected, checked geometry still in force, `DONE` down while busy, the inverse registers those of the running key,
counters within `LMAX`. -/
def Obligations.StepKeepsBlockInvariant : Prop :=
  ∀ s t : State, Invariant s → step s = .next t → Invariant t

/-! ### Reset -/

/-- 10_state.md R49: every register but `ID` reads 0 after reset, the block is idle, `irq` is 0. -/
def Obligations.ResetRegisterValues : Prop :=
  (∀ r : Reg, readReg State.reset r = if r = .id then 0x48545801#32 else 0#32) ∧
  State.reset.busy = false ∧ irq State.reset = false

/-- 70_reset_and_hazards.md R210 to R213: what `RESET` leaves, from any state: registers as after reset, memories of lanes
that were not owned kept; of an owned lane the cells from `N` on kept, the side key kept unless an embed command ran, the
other cells the free bytes of log entry 5, whatever the counter `draws` holds. -/
def Obligations.ResetEventEffect : Prop :=
  ∀ (s : State) (rest : List Event), s.agenda = .reset :: rest →
    ∃ t, step s = .next t ∧
      (∀ r : Reg, readReg t r = readReg State.reset r) ∧
      t.flags = State.reset.flags ∧ t.ctrl = State.reset.ctrl ∧ t.busy = false ∧ irq t = false ∧
      t.params = s.params ∧ t.agenda = rest ∧
      (∀ (k : MemKind) (ch : Lane) (i : Nat), s.owned ch = false → t.cell k ch i = s.cell k ch i) ∧
      (∀ (k : MemKind) (ch : Lane) (i : Nat), s.pixels ≤ i → t.cell k ch i = s.cell k ch i) ∧
      (∀ (ch : Lane) (i : Nat), s.cmdr.extractLsb 7 0 ≠ 0x20#8 → s.cmdr.extractLsb 7 0 ≠ 0x30#8 →
        t.cell .sk ch i = s.cell .sk ch i) ∧
      (∀ (ch : Lane) (i : Nat), s.owned ch = true → i < s.pixels →
        t.cell .layer ch i = Config.abandonedByte s.draws (apertureBase .layer ch + i)) ∧
      (∀ (ch : Lane) (i : Nat), s.owned ch = true → i < s.pixels →
        (s.cmdr.extractLsb 7 0 = 0x20#8 ∨ s.cmdr.extractLsb 7 0 = 0x30#8) →
        t.cell .sk ch i = Config.abandonedByte s.draws (apertureBase .sk ch + i))

/-! ### Registers and flags -/

/-- 10_state.md R12, R34 and 20_memory.md R54: the register map, offset by offset; every other offset of the register region
is a bus error; and the six apertures. -/
def Obligations.RegisterMapIsComplete : Prop :=
  let map : List (Nat × Reg) :=
    [(0x000, .id), (0x004, .ctrl), (0x008, .status), (0x00C, .cmd), (0x010, .cause), (0x014, .einfo),
     (0x020, .width), (0x024, .height), (0x028, .keyA), (0x02C, .keyB), (0x030, .keyC), (0x034, .keyD),
     (0x038, .keyTx), (0x03C, .keyTy), (0x040, .detn), (0x044, .detinv), (0x048, .inv0), (0x04C, .inv1),
     (0x050, .inv2), (0x054, .inv3),
     (0x100, .len .l0), (0x104, .sklen .l0), (0x108, .degraded .l0), (0x10C, .dropped .l0),
     (0x120, .len .l1), (0x124, .sklen .l1), (0x128, .degraded .l1), (0x12C, .dropped .l1),
     (0x140, .len .l2), (0x144, .sklen .l2), (0x148, .degraded .l2), (0x14C, .dropped .l2)]
  let apertures : List (Nat × MemKind × Lane) :=
    [(0x1000000, .layer, .l0), (0x2000000, .layer, .l1), (0x3000000, .layer, .l2),
     (0x5000000, .sk, .l0), (0x6000000, .sk, .l1), (0x7000000, .sk, .l2)]
  (∀ (p : Params), ∀ e ∈ map, busTarget p (BitVec.ofNat 27 e.1) 4 = some (.reg e.2) ∧ e.2.offset = e.1) ∧
  (∀ r : Reg, r ∈ map.map Prod.snd) ∧
  (∀ (p : Params) (addr : Offset), addr.toNat < 0x1000 → addr.toNat ∉ map.map Prod.fst →
    ∀ n, busTarget p addr n = none) ∧
  (∀ (p : Params) (i n : Nat), n = 1 ∨ n = 2 ∨ n = 4 → i % n = 0 → i + n ≤ p.lmax → i < 0x1000000 →
    ∀ e ∈ apertures, busTarget p (BitVec.ofNat 27 (e.1 + i)) n = some (.cells e.2.1 e.2.2 i) ∧
      apertureBase e.2.1 e.2.2 = e.1)

/-- 10_state.md R13, R14, R18 to R26, R35 to R38: what a read at each register's offset returns, as a function of the
stored state; `STATUS` is `StatusWordLayout`. -/
def Obligations.RegisterReadValues : Prop :=
  ∀ s : State,
    let reads := fun (a : Nat) (v : Word) =>
      hostRead (BitVec.ofNat 27 a) 4 s = { s with response := some (.value v) }
    reads 0x000 0x48545801#32 ∧
    reads 0x004 (BitVec.ofNat 32 (s.ctrl.ieDone.toNat + 2 * s.ctrl.ieDegr.toNat + 4 * s.ctrl.ieErr.toNat)) ∧
    reads 0x008 (readReg s .status) ∧
    reads 0x00C s.cmdr ∧
    reads 0x010 (match s.cause with
      | .none => 0#32
      | .keyInvalid => 1#32
      | .dimMismatch => 2#32
      | .illegalCmd => 3#32
      | .cmdWhileBusy => 4#32
      | .lockedAccess => 5#32) ∧
    reads 0x014 s.einfo ∧
    (∀ e ∈ [(0x020, s.width), (0x024, s.height), (0x040, s.inv.detn), (0x044, s.inv.detinv), (0x048, s.inv.inv0),
      (0x04C, s.inv.inv1), (0x050, s.inv.inv2), (0x054, s.inv.inv3)], reads e.1 (BitVec.ofNat 32 e.2.toNat)) ∧
    (∀ e ∈ [(0x028, s.key.a), (0x02C, s.key.b), (0x030, s.key.c), (0x034, s.key.d), (0x038, s.key.tx),
      (0x03C, s.key.ty)], reads e.1 (BitVec.ofInt 32 e.2.toInt)) ∧
    (∀ e ∈ [(0x100, s.lane0), (0x120, s.lane1), (0x140, s.lane2)],
      reads e.1 e.2.len ∧ reads (e.1 + 0x4) e.2.sklen ∧ reads (e.1 + 0x8) e.2.degraded ∧
      reads (e.1 + 0xC) e.2.dropped)

/-- 10_state.md R15, R16: the layout of `STATUS`, bit by bit. -/
def Obligations.StatusWordLayout : Prop :=
  ∀ (s : State) (k : Nat), (readReg s .status).getLsbD k =
    match k with
    | 0 => (s.lane0.lbusy || s.lane1.lbusy || s.lane2.lbusy)
    | 1 => s.flags.done
    | 2 => s.flags.degr
    | 4 => s.flags.errKey
    | 5 => s.flags.errDim
    | 6 => s.flags.errCmd
    | 7 => s.flags.errBusy
    | 8 => s.lane0.lbusy
    | 9 => s.lane1.lbusy
    | 10 => s.lane2.lbusy
    | _ => false

/-- 10_state.md R17, 60_exceptions.md R193: a write to `STATUS` clears the written ones of the W1C bits and nothing else:
the flags apart, the state is as before, `CAUSE` and `EINFO` included. -/
def Obligations.StatusWriteOneToClear : Prop :=
  ∀ (s : State) (w : Word), ∃ f : Flags,
    hostWrite 0x008#27 4 w s = .next { s with flags := f, response := some .ok } ∧
    readReg { s with flags := f } .status = readReg s .status &&& ~~~(w &&& 0x000000F6#32)

/-- 60_exceptions.md R187: `irq` as a function of the words that `CTRL` and `STATUS` read as: the flags are the pending
bits, the enables are in `CTRL`. -/
def Obligations.InterruptEquation : Prop :=
  ∀ s : State, irq s =
    (((readReg s .ctrl).getLsbD 0 && (readReg s .status).getLsbD 1) ||
     ((readReg s .ctrl).getLsbD 1 && (readReg s .status).getLsbD 2) ||
     ((readReg s .ctrl).getLsbD 2 && ((readReg s .status).getLsbD 4 || (readReg s .status).getLsbD 5 ||
       (readReg s .status).getLsbD 6 || (readReg s .status).getLsbD 7)))

/-- 60_exceptions.md R188: `irq` falls only in a write to `STATUS`, a write to `CTRL`, the acceptance of a command (it
is then latched in `CMDR`, answered `OK`), or `RESET`. -/
def Obligations.InterruptFallsOnlyBy : Prop :=
  ∀ s t : State, step s = .next t → irq s = true → irq t = false →
    ∃ rest, (∃ w, s.agenda = .write 0x008#27 4 w :: rest) ∨ (∃ w, s.agenda = .write 0x004#27 4 w :: rest) ∨
      s.agenda = .reset :: rest ∨
      (∃ w, s.agenda = .write cmdOffset 4 w :: rest ∧ s.busy = false ∧ t.cmdr = w ∧ t.response = some .ok)

/-- 10_state.md R14, R17, R21 to R23, R27, R28, R35, R36 and 70_reset_and_hazards.md R220: a write to a register that is
neither `CMD` nor locked is answered `OK`; the register then reads as its rule says, and every other register, every
cell, the flags of other registers' rules and the outside of the block are as before. -/
def Obligations.RegisterWriteThenRead : Prop :=
  ∀ (s : State) (r : Reg) (w : Word), r ≠ .cmd → ¬ Locked s true (BitVec.ofNat 27 r.offset) →
    ∃ t, hostWrite (BitVec.ofNat 27 r.offset) 4 w s = .next t ∧
      readReg t r = (match r with
        | .ctrl => w &&& 7#32
        | .status => readReg s .status &&& ~~~(w &&& 0xF6#32)
        | .width => (w.extractLsb' 0 16).setWidth 32
        | .height => (w.extractLsb' 0 16).setWidth 32
        | .keyA => (w.extractLsb' 0 16).signExtend 32
        | .keyB => (w.extractLsb' 0 16).signExtend 32
        | .keyC => (w.extractLsb' 0 16).signExtend 32
        | .keyD => (w.extractLsb' 0 16).signExtend 32
        | .keyTx => (w.extractLsb' 0 16).signExtend 32
        | .keyTy => (w.extractLsb' 0 16).signExtend 32
        | .len _ => w
        | .sklen _ => w
        | r => readReg s r) ∧
      (∀ r', r' ≠ r → readReg t r' = readReg s r') ∧
      (∀ k ch i, t.cell k ch i = s.cell k ch i) ∧
      t.response = some .ok ∧ t.params = s.params ∧ t.draws = s.draws ∧ t.agenda = s.agenda

/-- 10_state.md R28: a write to a read-only register changes nothing and is answered `OK`; a write to a reserved bit is
ignored: two words that agree on the bits a register stores leave the same state. -/
def Obligations.ReadOnlyAndReservedBitsIgnoreWrites : Prop :=
  (∀ (s : State) (r : Reg) (w : Word), readOnly r = true →
    hostWrite (BitVec.ofNat 27 r.offset) 4 w s = .next { s with response := some .ok }) ∧
  (∀ (s : State) (w w' : Word), w &&& 7#32 = w' &&& 7#32 →
    hostWrite 0x004#27 4 w s = hostWrite 0x004#27 4 w' s) ∧
  (∀ (s : State) (w w' : Word), w &&& 0xF6#32 = w' &&& 0xF6#32 →
    hostWrite 0x008#27 4 w s = hostWrite 0x008#27 4 w' s) ∧
  (∀ (s : State) (r : Reg) (w w' : Word), r ∈ sharedConfig → w &&& 0xFFFF#32 = w' &&& 0xFFFF#32 →
    hostWrite (BitVec.ofNat 27 r.offset) 4 w s = hostWrite (BitVec.ofNat 27 r.offset) 4 w' s)

/-! ### The host port -/

/-- 20_memory.md R57: exactly when a transaction is a bus error it is answered `ERR` and changes no state; any other `ERR`
is a refused access while busy, which sets `ERR_BUSY`. -/
def Obligations.BusErrorsChangeNothing : Prop :=
  (∀ (s : State) (addr : Offset) (n : Nat) (v : Word), BusError s.params addr n →
    hostWrite addr n v s = .next { s with response := some .err } ∧
    hostRead addr n s = { s with response := some .err }) ∧
  (∀ (s : State) (addr : Offset) (n : Nat), ¬ BusError s.params addr n →
    ((hostRead addr n s).response = some .err → s.busy = true ∧ (hostRead addr n s).flags.errBusy = true) ∧
    (∀ (v : Word) (t : State), hostWrite addr n v s = .next t → t.response = some .err →
      s.busy = true ∧ t.flags.errBusy = true))

/-- 20_memory.md R55, R58; 70_reset_and_hazards.md R220: a read of a register is answered with its value, busy or not,
and has no side effect. -/
def Obligations.RegisterReadHasNoSideEffect : Prop :=
  ∀ (s : State) (r : Reg) (rest : List Event),
    s.agenda = .read (BitVec.ofNat 27 r.offset) 4 :: rest →
    step s = .next { s with agenda := rest, response := some (.value (readReg s r)) }

/-- 20_memory.md R52, R56: a read of `n` cells of a lane that is not owned is answered with them in little-endian order
and has no side effect. -/
def Obligations.ApertureReadIsLittleEndian : Prop :=
  ∀ (s : State) (k : MemKind) (ch : Lane) (i n : Nat), n = 1 ∨ n = 2 ∨ n = 4 → i % n = 0 →
    i + n ≤ s.params.lmax → i < 0x1000000 → s.owned ch = false →
    ∃ v : Word, hostRead (BitVec.ofNat 27 (apertureBase k ch + i)) n s = { s with response := some (.value v) } ∧
      v.toNat = (s.cell k ch i).toNat + (if 2 ≤ n then 256 * (s.cell k ch (i + 1)).toNat else 0) +
        (if n = 4 then 65536 * (s.cell k ch (i + 2)).toNat + 16777216 * (s.cell k ch (i + 3)).toNat else 0)

/-- 20_memory.md R52, R56; 70_reset_and_hazards.md R220: a write of `n` bytes to cells of a lane that is not owned stores
bits 7:0 in the lowest cell and so on, and changes nothing else: no other cell, no register, not `LEN`, not `SKLEN`. -/
def Obligations.ApertureWriteStoresBytes : Prop :=
  ∀ (s : State) (k : MemKind) (ch : Lane) (i n : Nat) (v : Word), n = 1 ∨ n = 2 ∨ n = 4 → i % n = 0 →
    i + n ≤ s.params.lmax → i < 0x1000000 → s.owned ch = false →
    ∃ t, hostWrite (BitVec.ofNat 27 (apertureBase k ch + i)) n v s = .next t ∧
      (∀ j < n, (t.cell k ch (i + j)).toNat = v.toNat / 256 ^ j % 256) ∧
      (∀ k' ch' i', ¬ (k' = k ∧ ch' = ch ∧ i ≤ i' ∧ i' < i + n) → t.cell k' ch' i' = s.cell k' ch' i') ∧
      (∀ r, readReg t r = readReg s r) ∧
      t.flags = s.flags ∧ t.response = some .ok ∧ t.params = s.params ∧ t.draws = s.draws ∧ t.agenda = s.agenda

/-! ### The busy lock -/

/-- 60_exceptions.md R185: `LOCKED_ACCESS`. An access that is no bus error and touches a locked resource is refused: the
flag, `CAUSE`, `EINFO` and the response are written and nothing else, so a refused write stores nothing and a refused read
delivers no value. An access that is a bus error is only a bus error. -/
def Obligations.LockedAccessIsRefused : Prop :=
  (∀ (s : State) (addr : Offset) (n : Nat) (v : Word), ¬ BusError s.params addr n → Locked s true addr →
    hostWrite addr n v s = .next (refusedAccess addr s)) ∧
  (∀ (s : State) (addr : Offset) (n : Nat), ¬ BusError s.params addr n → Locked s false addr →
    hostRead addr n s = refusedAccess addr s) ∧
  (∀ (s : State) (addr : Offset) (n : Nat) (v : Word), BusError s.params addr n → s.busy = true →
    hostWrite addr n v s = .next { s with response := some .err } ∧
    hostRead addr n s = { s with response := some .err })

/-- 60_exceptions.md R184, 70_reset_and_hazards.md R219: while busy, a write of any word to `CMD`, legal or not, is
`CMD_WHILE_BUSY`, and the running command is not disturbed. -/
def Obligations.CommandWhileBusyIsRefused : Prop :=
  ∀ (s : State) (w : Word), s.busy = true →
    hostWrite cmdOffset 4 w s = .next
      { s with
        flags := { s.flags with errBusy := true }
        cause := .cmdWhileBusy
        einfo := w
        response := some .err }

/-- 10_state.md R16, R26; 42_layer_pipeline.md R156, R160: a lane is owned while the block is busy and its bit of `CMDR` is
set; and while a command runs, no step but `RESET` changes what its lanes read: the dimensions, the key, the inverse,
`CMDR`, the parameters, `LEN` of an owned lane, and, from a state of the invariant, all of a lane that still runs: its
layer, side key and `SKLEN` too. -/
def Obligations.RunningCommandReadsConstants : Prop :=
  (∀ s : State,
    let busy := s.lane0.lbusy || s.lane1.lbusy || s.lane2.lbusy
    s.owned .l0 = (busy && s.cmdr.getLsbD 8) ∧ s.owned .l1 = (busy && s.cmdr.getLsbD 9) ∧
    s.owned .l2 = (busy && s.cmdr.getLsbD 10)) ∧
  (∀ s t : State, step s = .next t → s.busy = true → s.agenda.head? ≠ some .reset →
    t.width = s.width ∧ t.height = s.height ∧ t.key = s.key ∧ t.inv = s.inv ∧ t.cmdr = s.cmdr ∧
    t.params = s.params ∧ (∀ ch, s.owned ch = true → (t.lane ch).len = (s.lane ch).len) ∧
    (Invariant s → ∀ ch, (t.lane ch).lbusy = true → t.lane ch = s.lane ch))

/-- 20_memory.md R73: an `LBUSY` bit rises only by the acceptance of a command, which needs an idle block. -/
def Obligations.LaneStartsOnlyByAcceptance : Prop :=
  ∀ (s t : State) (ch : Lane), step s = .next t → (s.lane ch).lbusy = false → (t.lane ch).lbusy = true →
    s.busy = false ∧ ∃ w rest, s.agenda = .write cmdOffset 4 w :: rest ∧ t.cmdr = w ∧ t.response = some .ok

/-! ### Admission -/

/-- 60_exceptions.md R182, 42_layer_pipeline.md R151: `DIM_MISMATCH` of every command: with `0x80000000` for an illegal
geometry (for `KEY.INV` only `WIDTH = 0`), else with the lowest-numbered selected lane whose length is wrong. Nothing else
changes. -/
def Obligations.DimMismatchIsRaised : Prop :=
  let rejected := fun (s : State) (info : Word) =>
    ({ s with
        flags := { s.flags with errDim := true }
        cause := .dimMismatch
        einfo := info
        response := some .ok } : State)
  (∀ s : State, s.busy = false → s.width.toNat = 0 → exec .keyInv s = .next (rejected s 0x80000000#32)) ∧
  (∀ (s : State) (i : Instr), s.busy = false → i.wellFormed = true → i ≠ .keyInv →
    (¬ GeometryLegal s → exec i s = .next (rejected s 0x80000000#32)) ∧
    (∀ ch, GeometryLegal s → selects i.lanes ch = true →
      (s.lane ch).len.toNat ≠ s.width.toNat * s.height.toNat →
      (∀ c, c.toNat < ch.toNat → selects i.lanes c = true →
        (s.lane c).len.toNat = s.width.toNat * s.height.toNat) →
      exec i s = .next (rejected s (BitVec.ofNat 32 ch.toNat))))

/-- 60_exceptions.md R181: `KEY_INVALID` of `KEY.INV`, `PERM.REV` and `WM.EXT`: when no inverse exists, equivalently
`WIDTH = 1` or a common factor, the command is rejected with `DETN`; the key stage has zeroed the other results. Of all
steps only a write of one of these commands to `CMD` raises it, past the busy, legality and geometry tests. -/
def Obligations.KeyInvalidIsRaised : Prop :=
  (∀ s : State, 1 ≤ s.width.toNat →
    let w := s.width.toNat
    let det := s.key.a.toInt * s.key.d.toInt - s.key.b.toInt * s.key.c.toInt
    ((¬ ∃ v : Nat, 1 ≤ v ∧ v < w ∧ (det % (w : Int)) * (v : Int) % (w : Int) = 1) ↔ (w = 1 ∨ Int.gcd det w ≠ 1)) ∧
    ∀ i : Instr, s.busy = false →
      (i = .keyInv ∨ ∃ m, Admissible m s ∧ (i = .permRev m ∨ i = .wmExt m)) →
      (w = 1 ∨ Int.gcd det w ≠ 1) →
      exec i s = .next
        { s with
          inv := { detn := BitVec.ofInt 16 (det % (w : Int)), detinv := 0#16, inv0 := 0#16, inv1 := 0#16,
                   inv2 := 0#16, inv3 := 0#16 }
          flags := { s.flags with errKey := true }
          cause := .keyInvalid
          einfo := BitVec.ofInt 32 (det % (w : Int))
          response := some .ok }) ∧
  (∀ s t : State, step s = .next t → s.cause ≠ .keyInvalid → t.cause = .keyInvalid →
    ∃ w i rest, s.agenda = .write cmdOffset 4 w :: rest ∧ decode w = .ok i ∧ s.busy = false ∧
      ((i = .keyInv ∧ 1 ≤ s.width.toNat) ∨ ∃ m, Admissible m s ∧ (i = .permRev m ∨ i = .wmExt m)))

/-- 41_affine_permutation.md R136: with `WIDTH = 1` every key is invalid, with `EINFO = 0`; the forward map works and only
moves rows. -/
def Obligations.WidthOneIsNeverInvertible : Prop :=
  (∀ (s : State) (i : Instr), s.width.toNat = 1 →
    ((i = .keyInv ∧ s.busy = false) ∨ ∃ m, Admissible m s ∧ (i = .permRev m ∨ i = .wmExt m)) →
    ∃ t, exec i s = .next t ∧ t.cause = .keyInvalid ∧ t.einfo = 0#32 ∧ t.flags.errKey = true ∧ t.inv.detn = 0#16 ∧
      t.busy = false) ∧
  (∀ (k : AffineKey) (h i : Nat), forwardIndex k 1 h i = tmod (k.d * (i : Int) + k.ty) h)

/-- 60_exceptions.md R191, 42_layer_pipeline.md R150: a command either is accepted (it is latched in `CMDR`, `ERR_*`,
`CAUSE` and `EINFO` untouched), or it is rejected with no effect but one error flag, `CAUSE`, `EINFO` and, for
`KEY_INVALID`, the key-stage registers. Neither changes a cell or a lane register but `LBUSY`. -/
def Obligations.RejectedCommandChangesNoData : Prop :=
  ∀ (s t : State) (i : Instr), exec i s = .next t →
    t.ctrl = s.ctrl ∧ t.width = s.width ∧ t.height = s.height ∧ t.key = s.key ∧ t.params = s.params ∧
    t.draws = s.draws ∧ t.agenda = s.agenda ∧
    (∀ ch, { t.lane ch with lbusy := false } = { s.lane ch with lbusy := false }) ∧
    ((s.busy = false ∧ t.cmdr = encode i ∧ t.cause = s.cause ∧ t.einfo = s.einfo ∧ t.response = some .ok ∧
        t.flags = { s.flags with done := t.flags.done, degr := false }) ∨
     (t.cmdr = s.cmdr ∧ t.cause ≠ .none ∧ t.flags.done = s.flags.done ∧ t.flags.degr = s.flags.degr ∧
        t.flags.anyError = true ∧ (t.cause ≠ .keyInvalid → t.inv = s.inv) ∧ ∀ ch, t.lane ch = s.lane ch))

/-- 60_exceptions.md R194: set flags, `CAUSE`, `EINFO` and the enables have no effect on what a command does. -/
def Obligations.ErrorsDoNotBlockCommands : Prop :=
  ∀ (s t : State) (i : Instr) (f : Flags) (c : Cause) (e : Word) (k : Ctrl), exec i s = .next t →
    ∃ t', exec i { s with flags := f, cause := c, einfo := e, ctrl := k } = .next t' ∧
      (∀ ch, t'.lane ch = t.lane ch) ∧ t'.cmdr = t.cmdr ∧ t'.inv = t.inv ∧ t'.response = t.response

/-- 30_encoding.md R86 (and log entry 12): a lane command with an empty mask is an illegal word, and its meaning raises
`ILLEGAL_CMD` with that word. -/
def Obligations.EmptyLaneMaskIsIllegal : Prop :=
  ∀ (s : State) (i : Instr), s.busy = false → i.wellFormed = false →
    exec i s = .next
      { s with
        flags := { s.flags with errCmd := true }
        cause := .illegalCmd
        einfo := encode i
        response := some .ok } ∧
    ¬ ∃ j, decode (encode i) = .ok j

/-! ### KEY.INV -/

/-- 41_affine_permutation.md R125 to R128: `KEY.INV` on an invertible key completes at once: the six results, `CMDR`,
`DONE` up, `DEGR` down, answered `OK`, and nothing else. -/
def Obligations.KeyInvCompletes : Prop :=
  ∀ s : State, s.busy = false → KeyCoprime s →
    let w : Int := (s.width.toNat : Int)
    let a := s.key.a.toInt
    let b := s.key.b.toInt
    let c := s.key.c.toInt
    let d := s.key.d.toInt
    ∃ v : Nat, 1 ≤ v ∧ v < s.width.toNat ∧ ((a * d - b * c) % w) * (v : Int) % w = 1 ∧
      exec .keyInv s = .next
        { s with
          inv :=
            { detn := BitVec.ofInt 16 ((a * d - b * c) % w)
              detinv := BitVec.ofNat 16 v
              inv0 := BitVec.ofInt 16 ((v : Int) * d % w)
              inv1 := BitVec.ofInt 16 (-(v : Int) * b % w)
              inv2 := BitVec.ofInt 16 (-(v : Int) * c % w)
              inv3 := BitVec.ofInt 16 ((v : Int) * a % w) }
          cmdr := 0x00000001#32
          flags := { s.flags with done := true, degr := false }
          response := some .ok }

/-- 41_affine_permutation.md R127: the results of a key stage on an invertible key are the inverse matrix modulo `WIDTH`,
entries in `[0, WIDTH)`, and `DETINV` is the inverse of `DETN` in `[1, WIDTH)`. -/
def Obligations.KeyStageInvertsMatrix : Prop :=
  ∀ s : State, KeyCoprime s →
    let v := keyStageResult s.key.values s.width.toNat
    let w : Int := (s.width.toNat : Int)
    let a := s.key.a.toInt
    let b := s.key.b.toInt
    let c := s.key.c.toInt
    let d := s.key.d.toInt
    (a * v.inv0.toNat + b * v.inv2.toNat) % w = 1 ∧ (a * v.inv1.toNat + b * v.inv3.toNat) % w = 0 ∧
    (c * v.inv0.toNat + d * v.inv2.toNat) % w = 0 ∧ (c * v.inv1.toNat + d * v.inv3.toNat) % w = 1 ∧
    v.inv0.toNat < s.width.toNat ∧ v.inv1.toNat < s.width.toNat ∧ v.inv2.toNat < s.width.toNat ∧
    v.inv3.toNat < s.width.toNat ∧ 1 ≤ v.detinv.toNat ∧ v.detinv.toNat < s.width.toNat ∧
    (v.detn.toNat : Int) = (a * d - b * c) % w ∧ v.detn.toNat * v.detinv.toNat % s.width.toNat = 1

/-! ### Arithmetic and the index maps -/

/-- 00_scope.md R7: the quotient and remainder of a non-negative integer, the truncated and the Euclidean remainder, and
the rule's examples. -/
def Obligations.RemainderLaws : Prop :=
  (∀ n m : Nat, 0 < m → n = m * (n / m) + n % m ∧ n % m < m) ∧
  (tmod 7 4 = 3 ∧ tmod (-1) 4 = -1 ∧ tmod (-4) 4 = 0 ∧ tmod (-7) 4 = -3 ∧ emod (-1) 4 = 3) ∧
  ∀ (n : Int) (m : Nat), 0 < m →
    tmod n m = n - m * (Int.tdiv n m) ∧ (tmod n m = 0 ∨ (0 < tmod n m ↔ 0 < n)) ∧
    -(m : Int) < tmod n m ∧ tmod n m < m ∧ (0 ≤ n → tmod n m = n % m) ∧
    emod n m < m ∧ (m : Int) ∣ n - emod n m ∧ (∀ r : Nat, r < m → (m : Int) ∣ n - r → r = emod n m) ∧
    (emod n m : Int) = (if 0 ≤ tmod n m then tmod n m else tmod n m + m)

/-- 41_affine_permutation.md R122, R123: the forward map; a target never lies at or above `N`, so a pixel is dropped
exactly when its target is negative; with non-negative sums it is never dropped. -/
def Obligations.ForwardMapRange : Prop :=
  ∀ (k : AffineKey) (w h i : Nat), 1 ≤ w → 1 ≤ h → i < w * h →
    forwardIndex k w h i =
      tmod (k.a * (i % w : Nat) + k.b * (i / w : Nat) + k.tx) w +
      tmod (k.c * (i % w : Nat) + k.d * (i / w : Nat) + k.ty) h * w ∧
    -((w * h : Nat) : Int) < forwardIndex k w h i ∧ forwardIndex k w h i < ((w * h : Nat) : Int) ∧
    (0 ≤ k.a → 0 ≤ k.b → 0 ≤ k.tx → 0 ≤ k.c → 0 ≤ k.d → 0 ≤ k.ty → 0 ≤ forwardIndex k w h i)

/-- 41_affine_permutation.md R130: the reverse map is the Euclidean remainder of each row and always lies in `[0, N)`. -/
def Obligations.ReverseMapRange : Prop :=
  ∀ (v : InverseMatrix) (tx ty : Int) (w h j : Nat), 1 ≤ w → 1 ≤ h → j < w * h →
    let ax := tmod (((j % w : Nat) : Int) - tx) w
    let ay := tmod (((j / w : Nat) : Int) - ty) h
    (reverseIndex v tx ty w h j : Int) =
      (v.i0 * ax + v.i1 * ay) % (w : Int) + (v.i2 * ax + v.i3 * ay) % (h : Int) * w ∧
    reverseIndex v tx ty w h j < w * h

/-! ### The codec tables -/

/-- 40_lowbit_codec.md R101 to R103: the two embed tables and the default reverse lookup, every entry. -/
def Obligations.CodecTables : Prop :=
  (∀ n : Nibble, (classOf n).toNat = [0, 1, 1, 2, 1, 2, 2, 3, 1, 2, 2, 3, 2, 3, 3, 4].getD n.toNat 0 ∧
    (classOf n).toNat = ((List.range 4).filter n.getLsbD).length ∧
    (substOf n).toNat = [0, 1, 2, 0, 3, 1, 2, 0, 4, 3, 4, 1, 5, 2, 3, 0].getD n.toNat 0) ∧
  (∀ n n' : Nibble, classOf n = classOf n' → substOf n = substOf n' → n = n') ∧
  (∀ c : Nibble, revf .doc none c = (0#4, true)) ∧
  (∀ (k : Byte) (c : Nibble), 5 ≤ k.toNat → revf .doc (some k) c = (0#4, true)) ∧
  (∀ (k : Byte) (c : Nibble), k.toNat < 5 →
    let row := [[0, 3, 7, 15], [1, 2, 4, 8], [5, 6, 9, 12], [10, 11, 13], [14]].getD k.toNat []
    revf .doc (some k) c =
      if c.toNat < row.length then (BitVec.ofNat 4 (row.getD c.toNat 0), false) else (0#4, true))

/-- 40_lowbit_codec.md R104, R108: the `LAWFUL` table holds `n` exactly in the cell of the pair that `n` embeds to and is
a guard case elsewhere; and embed followed by extract, per nibble, under both tables. -/
def Obligations.NibbleRoundTrip : Prop :=
  (∀ (k : Byte) (c : Nibble) (n : Nibble), revf .lawful (some k) c = (n, false) ↔ (k = classOf n ∧ c = substOf n)) ∧
  (∀ (k : Option Byte) (c : Nibble), (revf .lawful k c).2 = true → (revf .lawful k c).1 = 0#4) ∧
  (∀ c : Nibble, (revf .lawful none c).2 = true) ∧
  (∀ n : Nibble, revf .doc (some (classOf n)) (substOf n) = (n, false) ↔ n.toNat ∈ [0, 11, 13]) ∧
  (∀ n : Nibble, (revf .doc (some (classOf n)) (substOf n)).2 = true ↔ n.toNat ∈ [8, 10, 12, 14]) ∧
  (∀ n : Nibble, revf .lawful (some (classOf n)) (substOf n) = (n, false))

/-! ### Lane commands -/

/-- 40_lowbit_codec.md R105: `LBC.EMB` is accepted, and the completion step of each selected lane re-codes the cells below
`N`, writes their classes to the side key and sets `SKLEN = N`. Cells from `N` on, the counters and everything else stay. -/
def Obligations.LbcEmbCompletes : Prop :=
  ∀ (s : State) (m : LaneMask), Admissible m s →
    let t := acceptedState (laneWord 0x20 m) m s
    exec (.lbcEmb m) s = .next t ∧
    ∀ ch, selects m ch = true →
      let u := laneComplete ch t
      LaneStepFrame ch t u ∧ u.flags.degr = false ∧
      (∀ i, i < s.pixels →
        (u.cell .layer ch i).toNat = 16 * ((s.cell .layer ch i).toNat / 16) +
          [0, 1, 2, 0, 3, 1, 2, 0, 4, 3, 4, 1, 5, 2, 3, 0].getD ((s.cell .layer ch i).toNat % 16) 0 ∧
        (u.cell .sk ch i).toNat =
          [0, 1, 1, 2, 1, 2, 2, 3, 1, 2, 2, 3, 2, 3, 3, 4].getD ((s.cell .layer ch i).toNat % 16) 0) ∧
      (∀ k i, s.pixels ≤ i → u.cell k ch i = s.cell k ch i) ∧
      (u.lane ch).sklen = BitVec.ofNat 32 s.pixels ∧
      (u.lane ch).degraded = (s.lane ch).degraded ∧ (u.lane ch).dropped = (s.lane ch).dropped

/-- 40_lowbit_codec.md R106, R107: `LBC.EXT` is accepted, and the completion step of each selected lane recovers the low
nibble of the cells below `N` from the side key, counts the guard cases in `DEGRADED` and raises `DEGR` if there is one.
The side key, `SKLEN`, `DROPPED`, cells from `N` on and everything else stay. -/
def Obligations.LbcExtCompletes : Prop :=
  ∀ (s : State) (m : LaneMask), Admissible m s →
    let t := acceptedState (laneWord 0x21 m) m s
    exec (.lbcExt m) s = .next t ∧
    ∀ ch, selects m ch = true →
      let u := laneComplete ch t
      let r := fun i => revf s.params.rev
        (if i < (s.lane ch).sklen.toNat then some (s.cell .sk ch i) else none) ((s.cell .layer ch i).extractLsb' 0 4)
      let deg := ((List.range s.pixels).filter (fun i => (r i).2)).length
      LaneStepFrame ch t u ∧ u.flags.degr = decide (0 < deg) ∧
      (∀ i, i < s.pixels →
        (u.cell .layer ch i).toNat = 16 * ((s.cell .layer ch i).toNat / 16) + (r i).1.toNat) ∧
      (∀ i, s.pixels ≤ i → u.cell .layer ch i = s.cell .layer ch i) ∧
      (∀ i, u.cell .sk ch i = s.cell .sk ch i) ∧
      (u.lane ch).degraded = BitVec.ofNat 32 deg ∧
      (u.lane ch).sklen = (s.lane ch).sklen ∧ (u.lane ch).dropped = (s.lane ch).dropped

/-- 41_affine_permutation.md R122 to R124, R129, R135: `PERM.FWD` is accepted whatever the key, and the completion step
of each selected lane puts in cell `j` below `N` the byte of the last source that maps to it, `0x00` where none does, and
counts the dropped sources. The side key, `SKLEN`, `DEGRADED`, cells from `N` on, the key-stage results and everything
else stay. -/
def Obligations.PermFwdCompletes : Prop :=
  ∀ (s : State) (m : LaneMask), Admissible m s →
    let t := acceptedState (laneWord 0x10 m) m s
    let fwd := forwardIndex s.key.values s.width.toNat s.height.toNat
    exec (.permFwd m) s = .next t ∧
    ∀ ch, selects m ch = true →
      let u := laneComplete ch t
      LaneStepFrame ch t u ∧ u.flags.degr = false ∧
      (∀ i j : Nat, i < s.pixels → j < s.pixels → fwd i = (j : Int) →
        (∀ i', i < i' → i' < s.pixels → fwd i' ≠ (j : Int)) → u.cell .layer ch j = s.cell .layer ch i) ∧
      (∀ j : Nat, j < s.pixels → (∀ i, i < s.pixels → fwd i ≠ (j : Int)) → u.cell .layer ch j = 0#8) ∧
      (∀ i, s.pixels ≤ i → u.cell .layer ch i = s.cell .layer ch i) ∧
      (∀ i, u.cell .sk ch i = s.cell .sk ch i) ∧
      (u.lane ch).dropped =
        BitVec.ofNat 32 ((List.range s.pixels).filter (fun i => decide (fwd i < 0))).length ∧
      (u.lane ch).sklen = (s.lane ch).sklen ∧ (u.lane ch).degraded = (s.lane ch).degraded

/-- 41_affine_permutation.md R130, R131: `PERM.REV` on an invertible key is accepted with the key-stage results written,
and the completion step of each selected lane puts in cell `i` below `N` the byte of the last index that maps back to it,
`0x00` where none does. The side key, the counters, cells from `N` on and everything else stay. -/
def Obligations.PermRevCompletes : Prop :=
  ∀ (s : State) (m : LaneMask), Admissible m s → KeyCoprime s →
    let v := keyStageResult s.key.values s.width.toNat
    let t := acceptedState (laneWord 0x11 m) m { s with inv := v }
    let rev := reverseIndex v.matrix s.key.tx.toInt s.key.ty.toInt s.width.toNat s.height.toNat
    exec (.permRev m) s = .next t ∧
    ∀ ch, selects m ch = true →
      let u := laneComplete ch t
      LaneStepFrame ch t u ∧ u.flags.degr = false ∧
      (∀ i j : Nat, j < s.pixels → i < s.pixels → rev j = i →
        (∀ j', j < j' → j' < s.pixels → rev j' ≠ i) → u.cell .layer ch i = s.cell .layer ch j) ∧
      (∀ i : Nat, i < s.pixels → (∀ j, j < s.pixels → rev j ≠ i) → u.cell .layer ch i = 0#8) ∧
      (∀ i, s.pixels ≤ i → u.cell .layer ch i = s.cell .layer ch i) ∧
      (∀ i, u.cell .sk ch i = s.cell .sk ch i) ∧
      (u.lane ch).sklen = (s.lane ch).sklen ∧ (u.lane ch).degraded = (s.lane ch).degraded ∧
      (u.lane ch).dropped = (s.lane ch).dropped

/-- 42_layer_pipeline.md R155: `WM.EMB` is accepted whatever the key, and the completion step of each selected lane
permutes first and re-codes the permuted bytes: cell `j` below `N` and its side-key entry come from the byte `q` that the
permutation leaves there, the last source's or `0x00`. -/
def Obligations.WmEmbCompletes : Prop :=
  ∀ (s : State) (m : LaneMask), Admissible m s →
    let t := acceptedState (laneWord 0x30 m) m s
    let fwd := forwardIndex s.key.values s.width.toNat s.height.toNat
    exec (.wmEmb m) s = .next t ∧
    ∀ ch, selects m ch = true →
      let u := laneComplete ch t
      LaneStepFrame ch t u ∧ u.flags.degr = false ∧
      (∀ (j : Nat) (q : Byte), j < s.pixels →
        ((∃ i, i < s.pixels ∧ fwd i = (j : Int) ∧ (∀ i', i < i' → i' < s.pixels → fwd i' ≠ (j : Int)) ∧
            q = s.cell .layer ch i) ∨
          ((∀ i, i < s.pixels → fwd i ≠ (j : Int)) ∧ q = 0#8)) →
        (u.cell .layer ch j).toNat = 16 * (q.toNat / 16) +
          [0, 1, 2, 0, 3, 1, 2, 0, 4, 3, 4, 1, 5, 2, 3, 0].getD (q.toNat % 16) 0 ∧
        (u.cell .sk ch j).toNat = [0, 1, 1, 2, 1, 2, 2, 3, 1, 2, 2, 3, 2, 3, 3, 4].getD (q.toNat % 16) 0) ∧
      (∀ k i, s.pixels ≤ i → u.cell k ch i = s.cell k ch i) ∧
      (u.lane ch).sklen = BitVec.ofNat 32 s.pixels ∧
      (u.lane ch).dropped =
        BitVec.ofNat 32 ((List.range s.pixels).filter (fun i => decide (fwd i < 0))).length ∧
      (u.lane ch).degraded = (s.lane ch).degraded

/-- 42_layer_pipeline.md R159: `WM.EXT` on an invertible key is accepted with the key-stage results written, and the
completion step of each selected lane recovers the low nibbles in place first and moves the recovered bytes back: cell
`i` below `N` holds the recovered byte of the last index that maps back to it, `0x00` where none does. The side key,
`SKLEN`, `DROPPED`, cells from `N` on and everything else stay. -/
def Obligations.WmExtCompletes : Prop :=
  ∀ (s : State) (m : LaneMask), Admissible m s → KeyCoprime s →
    let v := keyStageResult s.key.values s.width.toNat
    let t := acceptedState (laneWord 0x31 m) m { s with inv := v }
    let rev := reverseIndex v.matrix s.key.tx.toInt s.key.ty.toInt s.width.toNat s.height.toNat
    exec (.wmExt m) s = .next t ∧
    ∀ ch, selects m ch = true →
      let u := laneComplete ch t
      let r := fun i => revf s.params.rev
        (if i < (s.lane ch).sklen.toNat then some (s.cell .sk ch i) else none) ((s.cell .layer ch i).extractLsb' 0 4)
      let deg := ((List.range s.pixels).filter (fun i => (r i).2)).length
      LaneStepFrame ch t u ∧ u.flags.degr = decide (0 < deg) ∧
      (∀ i j : Nat, j < s.pixels → i < s.pixels → rev j = i →
        (∀ j', j < j' → j' < s.pixels → rev j' ≠ i) →
        (u.cell .layer ch i).toNat = 16 * ((s.cell .layer ch j).toNat / 16) + (r j).1.toNat) ∧
      (∀ i : Nat, i < s.pixels → (∀ j, j < s.pixels → rev j ≠ i) → u.cell .layer ch i = 0#8) ∧
      (∀ i, s.pixels ≤ i → u.cell .layer ch i = s.cell .layer ch i) ∧
      (∀ i, u.cell .sk ch i = s.cell .sk ch i) ∧
      (u.lane ch).degraded = BitVec.ofNat 32 deg ∧
      (u.lane ch).sklen = (s.lane ch).sklen ∧ (u.lane ch).dropped = (s.lane ch).dropped

/-- 40_lowbit_codec.md R109: the high nibble is invariant under both codec commands, and no pixel moves: cell `i` after
the lane's step depends only on cell `i` before (and, for extract alone, on its side-key entry, R100). -/
def Obligations.CodecKeepsHighNibbleAndPlace : Prop :=
  ∀ (s : State) (ch : Lane), (s.lane ch).lbusy = true →
    s.cmdr.extractLsb 7 0 = 0x20#8 ∨ s.cmdr.extractLsb 7 0 = 0x21#8 →
    (∀ i, ((laneComplete ch s).cell .layer ch i).extractLsb 7 4 = (s.cell .layer ch i).extractLsb 7 4) ∧
    (∀ (s' : State) (i : Nat), (s'.lane ch).lbusy = true → s'.cmdr = s.cmdr → s'.params = s.params →
      s'.width = s.width → s'.height = s.height → s'.cell .layer ch i = s.cell .layer ch i →
      (s.cmdr.extractLsb 7 0 = 0x21#8 → (s'.lane ch).entry i = (s.lane ch).entry i) →
      (laneComplete ch s').cell .layer ch i = (laneComplete ch s).cell .layer ch i)

/-- 40_lowbit_codec.md R105 corner case 3: after an embed, alone or in the pipeline, every low nibble below `N` is 0 to 5
and every side-key entry 0 to 4. -/
def Obligations.EmbedResultRanges : Prop :=
  ∀ (s : State) (ch : Lane) (i : Nat), (s.lane ch).lbusy = true →
    s.cmdr.extractLsb 7 0 = 0x20#8 ∨ s.cmdr.extractLsb 7 0 = 0x30#8 → i < s.pixels →
    ((laneComplete ch s).cell .layer ch i).toNat % 16 ≤ 5 ∧ ((laneComplete ch s).cell .sk ch i).toNat ≤ 4

/-- 40_lowbit_codec.md R106 corner case 1: without a side key every pixel is a guard case: its low nibble becomes 0 and
it is counted. -/
def Obligations.ExtractWithoutSideKey : Prop :=
  ∀ (s : State) (ch : Lane), (s.lane ch).lbusy = true → s.cmdr.extractLsb 7 0 = 0x21#8 →
    (s.lane ch).sklen = 0#32 → 1 ≤ s.pixels →
    let t := laneComplete ch s
    (t.lane ch).degraded = BitVec.ofNat 32 s.pixels ∧ t.flags.degr = true ∧
    ∀ i, i < s.pixels → t.cell .layer ch i = s.cell .layer ch i &&& 0xF0#8

/-- 41_affine_permutation.md R134: a permutation moves values and never makes one: every byte of either result below `N`
is a byte of the source or the fill byte. -/
def Obligations.PermutationOnlyMovesBytes : Prop :=
  ∀ (k : AffineKey) (v : InverseMatrix) (tx ty : Int) (w h : Nat) (l : LaneState) (j : Nat), j < w * h →
    ((pfwdLayer k w h l).1.layer.read j = 0#8 ∨
      ∃ i < w * h, (pfwdLayer k w h l).1.layer.read j = l.layer.read i) ∧
    ((prevLayer v tx ty w h l).layer.read j = 0#8 ∨
      ∃ i < w * h, (prevLayer v tx ty w h l).layer.read j = l.layer.read i)

/-! ### Lanes together -/

/-- 42_layer_pipeline.md R157: `BUSY` falls and `DONE` rises in the step in which the last running lane completes; until
then every selected lane stays owned. -/
def Obligations.BarrierReleasesLanesTogether : Prop :=
  ∀ (s : State) (ch : Lane), (s.lane ch).lbusy = true → s.flags.done = false →
    let t := laneComplete ch s
    (t.busy = false ↔ ∀ c, c ≠ ch → (s.lane c).lbusy = false) ∧
    (t.flags.done = true ↔ t.busy = false) ∧
    (t.busy = true → ∀ c, t.owned c = s.owned c) ∧ (t.busy = false → ∀ c, t.owned c = false)

/-- 42_layer_pipeline.md R156, R160; 60_exceptions.md R180, R197: no lane step raises an error event, and its frame, for every
lane and every command, enabled or not. It sets `DEGR` exactly when an extract leaves a positive count, and never clears
it. -/
def Obligations.LaneStepFrameHolds : Prop :=
  ∀ (s : State) (ch : Lane),
    ((s.lane ch).lbusy = true →
      let t := laneComplete ch s
      LaneStepFrame ch s t ∧
      t.flags.degr = (s.flags.degr ||
        (decide (s.cmdr.extractLsb 7 0 = 0x21#8 ∨ s.cmdr.extractLsb 7 0 = 0x31#8) &&
          decide ((t.lane ch).degraded ≠ 0#32)))) ∧
    ((s.lane ch).lbusy = false → laneComplete ch s = s)

/-- 42_layer_pipeline.md R160: what lane `ch` becomes depends on nothing but its own lane and the shared registers it
reads. -/
def Obligations.LaneStepReadsOnlyItsOwnLane : Prop :=
  ∀ (s s' : State) (ch : Lane), s'.lane ch = s.lane ch → s'.cmdr = s.cmdr → s'.params.rev = s.params.rev →
    s'.width = s.width → s'.height = s.height → s'.key = s.key → s'.inv = s.inv →
    (laneComplete ch s').lane ch = (laneComplete ch s).lane ch

/-- 20_memory.md R68, 42_layer_pipeline.md R163: the order in which lanes complete does not matter, from any state. -/
def Obligations.LaneOrderIsUnobservable : Prop :=
  ∀ (s : State) (order order' : List Lane), order.Perm order' → completeAll order s = completeAll order' s

/-- 42_layer_pipeline.md R163, 70_reset_and_hazards.md R220: a host write to cells, `LEN` or `SKLEN` of a lane that is not
owned, and a write to `CTRL`, commute with the completion step of another lane. -/
def Obligations.UnownedWriteCommutesWithLaneStep : Prop :=
  ∀ (s t : State) (ch c : Lane), c ≠ ch → s.owned c = false → (s.lane ch).lbusy = true →
    (∀ (k : MemKind) (i n : Nat) (v : Word), i < 0x1000000 →
      hostWrite (BitVec.ofNat 27 (apertureBase k c + i)) n v s = .next t →
      hostWrite (BitVec.ofNat 27 (apertureBase k c + i)) n v (laneComplete ch s) = .next (laneComplete ch t)) ∧
    (∀ a ∈ [0x004, 0x100 + 0x20 * c.toNat, 0x104 + 0x20 * c.toNat], ∀ w : Word,
      hostWrite (BitVec.ofNat 27 a) 4 w s = .next t →
      hostWrite (BitVec.ofNat 27 a) 4 w (laneComplete ch s) = .next (laneComplete ch t))

/-- 42_layer_pipeline.md R155: `WM.EMB` leaves what `PERM.FWD`, wait, `LBC.EMB`, wait leaves, but for the word in
`CMDR`. -/
def Obligations.WmEmbIsPermFwdThenLbcEmb : Prop :=
  ∀ (s : State) (m : LaneMask), Admissible m s →
    ∃ t t1 t2, exec (.wmEmb m) s = .next t ∧ exec (.permFwd m) s = .next t1 ∧
      exec (.lbcEmb m) (completeAll Lane.all t1) = .next t2 ∧
      completeAll Lane.all t = { completeAll Lane.all t2 with cmdr := laneWord 0x30 m }

/-- 42_layer_pipeline.md R159: on an invertible key `WM.EXT` leaves what `LBC.EXT`, wait, `PERM.REV`, wait leaves, but for
the word in `CMDR` and `DEGR`, which the second acceptance clears. -/
def Obligations.WmExtIsLbcExtThenPermRev : Prop :=
  ∀ (s : State) (m : LaneMask), Admissible m s → KeyCoprime s →
    ∃ t t1 t2, exec (.wmExt m) s = .next t ∧ exec (.lbcExt m) s = .next t1 ∧
      exec (.permRev m) (completeAll Lane.all t1) = .next t2 ∧
      completeAll Lane.all t =
        { completeAll Lane.all t2 with
          cmdr := laneWord 0x31 m
          flags := { (completeAll Lane.all t2).flags with degr := (completeAll Lane.all t1).flags.degr } }

/-- 41_affine_permutation.md R133: the round trip in the square case. With `W = H >= 2`, an invertible key and non-negative
key values, `PERM.FWD` drops nothing, and `PERM.REV` after it restores every cell of every selected lane's layer. -/
def Obligations.PermutationRoundTrip : Prop :=
  ∀ (s : State) (m : LaneMask), Admissible m s → KeyCoprime s → s.height = s.width →
    0 ≤ s.key.a.toInt → 0 ≤ s.key.b.toInt → 0 ≤ s.key.c.toInt → 0 ≤ s.key.d.toInt →
    0 ≤ s.key.tx.toInt → 0 ≤ s.key.ty.toInt →
    ∃ t t', exec (.permFwd m) s = .next t ∧ exec (.permRev m) (completeAll Lane.all t) = .next t' ∧
      ∀ ch, selects m ch = true →
        ((completeAll Lane.all t).lane ch).dropped = 0#32 ∧
        ∀ i, (completeAll Lane.all t').cell .layer ch i = s.cell .layer ch i

/-- 42_layer_pipeline.md R164: the pipeline round trip in the square case: under the `LAWFUL` table every byte comes back and
nothing degrades; under `DOC` the high nibbles come back and a low nibble exactly when it is 0, 11 or 13, and the count is
that of the nibbles 8, 10, 12, 14. -/
def Obligations.PipelineRoundTrip : Prop :=
  ∀ (s : State) (m : LaneMask), Admissible m s → KeyCoprime s → s.height = s.width →
    0 ≤ s.key.a.toInt → 0 ≤ s.key.b.toInt → 0 ≤ s.key.c.toInt → 0 ≤ s.key.d.toInt →
    0 ≤ s.key.tx.toInt → 0 ≤ s.key.ty.toInt →
    ∃ t t', exec (.wmEmb m) s = .next t ∧ exec (.wmExt m) (completeAll Lane.all t) = .next t' ∧
      ∀ ch, selects m ch = true →
        let u := completeAll Lane.all t'
        (∀ i, s.pixels ≤ i → u.cell .layer ch i = s.cell .layer ch i) ∧
        (s.params.rev = .lawful →
          (u.lane ch).degraded = 0#32 ∧ ∀ i, u.cell .layer ch i = s.cell .layer ch i) ∧
        (s.params.rev = .doc →
          (u.lane ch).degraded = BitVec.ofNat 32 ((List.range s.pixels).filter
            (fun i => decide ((s.cell .layer ch i).toNat % 16 ∈ [8, 10, 12, 14]))).length ∧
          ∀ i, i < s.pixels →
            (u.cell .layer ch i).toNat / 16 = (s.cell .layer ch i).toNat / 16 ∧
            (u.cell .layer ch i = s.cell .layer ch i ↔ (s.cell .layer ch i).toNat % 16 ∈ [0, 11, 13]))

/-! ### The host's side -/

/-- 42_layer_pipeline.md R165 (log entry 18: the spec marks the layout as general knowledge): merging the three split
layers gives back the flat buffer. -/
def Obligations.MergeUndoesSplit : Prop :=
  ∀ (flat : List Byte) (n : Nat), flat.length = 3 * n →
    mergeLayers (splitLayer flat .l0 n) (splitLayer flat .l1 n) (splitLayer flat .l2 n) n = flat
end

