-- ==== Sys2Proof/Laws/Decode.lean ====
section
/-! SUPPORT. What the fields of an encoded command are, and the decoder in terms of fields (30_encoding.md R80 to R89). -/

namespace Sys2Proof

@[simp] theorem opField_encode (i : Instr) : opField (encode i) = opcodeByte i.opcode := by
  simp only [opField, encode]
  generalize i.lanes = m
  cases i.opcode <;> revert m <;> decide

@[simp] theorem laneField_encode (i : Instr) : laneField (encode i) = i.lanes := by
  simp only [laneField, encode]
  generalize i.lanes = m
  cases i.opcode <;> revert m <;> decide

@[simp] theorem absentLaneField_encode (i : Instr) : absentLaneField (encode i) = 0#5 := by
  simp only [absentLaneField, encode]
  generalize i.lanes = m
  cases i.opcode <;> revert m <;> decide

@[simp] theorem mbzField_encode (i : Instr) : mbzField (encode i) = 0#16 := by
  simp only [mbzField, encode]
  generalize i.lanes = m
  cases i.opcode <;> revert m <;> decide

@[simp] theorem opcodeOf_opcodeByte (o : Opcode) : opcodeOf (opcodeByte o) = some o := by cases o <;> decide

/-- An opcode byte names one operation only (30_encoding.md R82). -/
theorem opcodeByte_of_opcodeOf {b : Byte} {o : Opcode} (h : opcodeOf b = some o) : opcodeByte o = b := by
  unfold opcodeOf at h
  repeat (split at h; · cases h; exact Eq.symm ‹_›)
  cases h

/-- A word is its four fields (30_encoding.md R80). -/
theorem word_of_fields (w : Word) : w = mbzField w ++ absentLaneField w ++ laneField w ++ opField w := by
  apply BitVec.eq_of_getLsbD_eq
  intro k hk
  simp only [BitVec.getLsbD_append, opField, laneField, absentLaneField, mbzField, BitVec.getLsbD_extractLsb']
  have h : k < 8 ∨ (8 ≤ k ∧ k < 11) ∨ (11 ≤ k ∧ k < 16) ∨ 16 ≤ k := by omega
  rcases h with h | h | h | h
  · simp [h]
  · have h1 : ¬ k < 8 := by omega
    have h2 : k - 8 < 3 := by omega
    have h3 : 8 + (k - 8) = k := by omega
    simp [h1, h2, h3]
  · have h1 : ¬ k < 8 := by omega
    have h2 : ¬ k - 8 < 3 := by omega
    have h3 : k - 8 - 3 < 5 := by omega
    have h4 : 11 + (k - 8 - 3) = k := by omega
    simp [h1, h2, h3, h4]
  · have h1 : ¬ k < 8 := by omega
    have h2 : ¬ k - 8 < 3 := by omega
    have h3 : ¬ k - 8 - 3 < 5 := by omega
    have h4 : k - 8 - 3 - 5 < 16 := by omega
    have h5 : 16 + (k - 8 - 3 - 5) = k := by omega
    simp [h1, h2, h3, h4, h5]

/-- Two words with the same fields are the same word (30_encoding.md R80). -/
theorem word_ext {w w' : Word} (h1 : mbzField w = mbzField w') (h2 : absentLaneField w = absentLaneField w')
    (h3 : laneField w = laneField w') (h4 : opField w = opField w') : w = w' := by
  rw [word_of_fields w, word_of_fields w', h1, h2, h3, h4]

/-- The decoder by fields: what it answers determines every field of the word, and that the command is well-formed. -/
theorem decode_fields {w : Word} {i : Instr} (h : decode w = .ok i) :
    mbzField w = 0#16 ∧ absentLaneField w = 0#5 ∧ laneField w = i.lanes ∧ opField w = opcodeByte i.opcode ∧
    i.wellFormed = true := by
  unfold decode at h
  split at h
  · cases h
  rename_i h1
  split at h
  · cases h
  rename_i h2
  have h1 : mbzField w = 0#16 := by simpa using h1
  have h2 : absentLaneField w = 0#5 := by simpa using h2
  split at h <;> rename_i ho
  · cases h
  · split at h
    · cases h
      exact ⟨h1, h2, ‹_›, (opcodeByte_of_opcodeOf ho).symm, rfl⟩
    · cases h
  all_goals
    unfold decodeLanes at h
    split at h
    · cases h
    · cases h
      exact ⟨h1, h2, rfl, (opcodeByte_of_opcodeOf ho).symm, by simpa [Instr.wellFormed] using ‹¬ _›⟩

end Sys2Proof
end

