-- ==== Sys2Proof/Laws/State.lean ====
section
/-! SUPPORT. One lemma per field per shared update, all true by unfolding the update once. -/

namespace Sys2Proof.Machine

/-! ### `respond` -/

@[simp] theorem respond_params (r : Response) (s : State) : (s.respond r).params = s.params := rfl
@[simp] theorem respond_ctrl (r : Response) (s : State) : (s.respond r).ctrl = s.ctrl := rfl
@[simp] theorem respond_flags (r : Response) (s : State) : (s.respond r).flags = s.flags := rfl
@[simp] theorem respond_cmdr (r : Response) (s : State) : (s.respond r).cmdr = s.cmdr := rfl
@[simp] theorem respond_cause (r : Response) (s : State) : (s.respond r).cause = s.cause := rfl
@[simp] theorem respond_einfo (r : Response) (s : State) : (s.respond r).einfo = s.einfo := rfl
@[simp] theorem respond_width (r : Response) (s : State) : (s.respond r).width = s.width := rfl
@[simp] theorem respond_height (r : Response) (s : State) : (s.respond r).height = s.height := rfl
@[simp] theorem respond_key (r : Response) (s : State) : (s.respond r).key = s.key := rfl
@[simp] theorem respond_inv (r : Response) (s : State) : (s.respond r).inv = s.inv := rfl
@[simp] theorem respond_lane (r : Response) (s : State) (ch : Lane) : (s.respond r).lane ch = s.lane ch := by
  cases ch <;> rfl
@[simp] theorem respond_response (r : Response) (s : State) : (s.respond r).response = some r := rfl
@[simp] theorem respond_draws (r : Response) (s : State) : (s.respond r).draws = s.draws := rfl
@[simp] theorem respond_agenda (r : Response) (s : State) : (s.respond r).agenda = s.agenda := rfl
@[simp] theorem respond_busy (r : Response) (s : State) : (s.respond r).busy = s.busy := rfl
@[simp] theorem respond_owned (r : Response) (s : State) (ch : Lane) : (s.respond r).owned ch = s.owned ch := rfl

/-! ### `raiseError` -/

@[simp] theorem raiseError_params (c : Cause) (w : Word) (s : State) : (raiseError c w s).params = s.params := rfl
@[simp] theorem raiseError_ctrl (c : Cause) (w : Word) (s : State) : (raiseError c w s).ctrl = s.ctrl := rfl
@[simp] theorem raiseError_flags (c : Cause) (w : Word) (s : State) :
    (raiseError c w s).flags = setErrorFlag c s.flags := rfl
@[simp] theorem raiseError_cmdr (c : Cause) (w : Word) (s : State) : (raiseError c w s).cmdr = s.cmdr := rfl
@[simp] theorem raiseError_cause (c : Cause) (w : Word) (s : State) : (raiseError c w s).cause = c := rfl
@[simp] theorem raiseError_einfo (c : Cause) (w : Word) (s : State) : (raiseError c w s).einfo = w := rfl
@[simp] theorem raiseError_width (c : Cause) (w : Word) (s : State) : (raiseError c w s).width = s.width := rfl
@[simp] theorem raiseError_height (c : Cause) (w : Word) (s : State) : (raiseError c w s).height = s.height := rfl
@[simp] theorem raiseError_key (c : Cause) (w : Word) (s : State) : (raiseError c w s).key = s.key := rfl
@[simp] theorem raiseError_inv (c : Cause) (w : Word) (s : State) : (raiseError c w s).inv = s.inv := rfl
@[simp] theorem raiseError_lane (c : Cause) (w : Word) (s : State) (ch : Lane) :
    (raiseError c w s).lane ch = s.lane ch := by cases ch <;> rfl
@[simp] theorem raiseError_response (c : Cause) (w : Word) (s : State) :
    (raiseError c w s).response = s.response := rfl
@[simp] theorem raiseError_draws (c : Cause) (w : Word) (s : State) : (raiseError c w s).draws = s.draws := rfl
@[simp] theorem raiseError_agenda (c : Cause) (w : Word) (s : State) : (raiseError c w s).agenda = s.agenda := rfl
@[simp] theorem raiseError_busy (c : Cause) (w : Word) (s : State) : (raiseError c w s).busy = s.busy := rfl
@[simp] theorem raiseError_owned (c : Cause) (w : Word) (s : State) (ch : Lane) :
    (raiseError c w s).owned ch = s.owned ch := rfl

/-! ### `setLane` -/

@[simp] theorem setLane_params (s : State) (ch : Lane) (l : LaneState) : (s.setLane ch l).params = s.params := by
  cases ch <;> rfl
@[simp] theorem setLane_ctrl (s : State) (ch : Lane) (l : LaneState) : (s.setLane ch l).ctrl = s.ctrl := by
  cases ch <;> rfl
@[simp] theorem setLane_flags (s : State) (ch : Lane) (l : LaneState) : (s.setLane ch l).flags = s.flags := by
  cases ch <;> rfl
@[simp] theorem setLane_cmdr (s : State) (ch : Lane) (l : LaneState) : (s.setLane ch l).cmdr = s.cmdr := by
  cases ch <;> rfl
@[simp] theorem setLane_cause (s : State) (ch : Lane) (l : LaneState) : (s.setLane ch l).cause = s.cause := by
  cases ch <;> rfl
@[simp] theorem setLane_einfo (s : State) (ch : Lane) (l : LaneState) : (s.setLane ch l).einfo = s.einfo := by
  cases ch <;> rfl
@[simp] theorem setLane_width (s : State) (ch : Lane) (l : LaneState) : (s.setLane ch l).width = s.width := by
  cases ch <;> rfl
@[simp] theorem setLane_height (s : State) (ch : Lane) (l : LaneState) : (s.setLane ch l).height = s.height := by
  cases ch <;> rfl
@[simp] theorem setLane_key (s : State) (ch : Lane) (l : LaneState) : (s.setLane ch l).key = s.key := by
  cases ch <;> rfl
@[simp] theorem setLane_inv (s : State) (ch : Lane) (l : LaneState) : (s.setLane ch l).inv = s.inv := by
  cases ch <;> rfl
@[simp] theorem setLane_response (s : State) (ch : Lane) (l : LaneState) :
    (s.setLane ch l).response = s.response := by cases ch <;> rfl
@[simp] theorem setLane_draws (s : State) (ch : Lane) (l : LaneState) : (s.setLane ch l).draws = s.draws := by
  cases ch <;> rfl
@[simp] theorem setLane_agenda (s : State) (ch : Lane) (l : LaneState) : (s.setLane ch l).agenda = s.agenda := by
  cases ch <;> rfl
@[simp] theorem setLane_lane_same (s : State) (ch : Lane) (l : LaneState) : (s.setLane ch l).lane ch = l := by
  cases ch <;> rfl
theorem setLane_lane (s : State) (ch c : Lane) (l : LaneState) :
    (s.setLane ch l).lane c = if c = ch then l else s.lane c := by
  cases ch <;> cases c <;> rfl
@[simp] theorem setLane_lane_other (s : State) {ch c : Lane} (l : LaneState) (h : c ≠ ch) :
    (s.setLane ch l).lane c = s.lane c := by rw [setLane_lane, if_neg h]

/-! ### `setMem` -/

@[simp] theorem setMem_mem_same (l : LaneState) (k : MemKind) (m : Memory) : (l.setMem k m).mem k = m := by
  cases k <;> rfl
@[simp] theorem setMem_mem_other (l : LaneState) {k k' : MemKind} (m : Memory) (h : k' ≠ k) :
    (l.setMem k m).mem k' = l.mem k' := by cases k <;> cases k' <;> simp_all [LaneState.setMem, LaneState.mem]
@[simp] theorem setMem_len (l : LaneState) (k : MemKind) (m : Memory) : (l.setMem k m).len = l.len := by
  cases k <;> rfl
@[simp] theorem setMem_sklen (l : LaneState) (k : MemKind) (m : Memory) : (l.setMem k m).sklen = l.sklen := by
  cases k <;> rfl
@[simp] theorem setMem_degraded (l : LaneState) (k : MemKind) (m : Memory) :
    (l.setMem k m).degraded = l.degraded := by cases k <;> rfl
@[simp] theorem setMem_dropped (l : LaneState) (k : MemKind) (m : Memory) :
    (l.setMem k m).dropped = l.dropped := by cases k <;> rfl
@[simp] theorem setMem_lbusy (l : LaneState) (k : MemKind) (m : Memory) : (l.setMem k m).lbusy = l.lbusy := by
  cases k <;> rfl

/-! ### Busy and owned -/

/-- The block is busy exactly when some lane is (10_state.md R16). -/
theorem busy_iff (s : State) : s.busy = true ↔ ∃ ch, (s.lane ch).lbusy = true := by
  constructor
  · intro h
    simp only [State.busy, Bool.or_eq_true] at h
    rcases h with (h | h) | h
    · exact ⟨.l0, h⟩
    · exact ⟨.l1, h⟩
    · exact ⟨.l2, h⟩
  · rintro ⟨ch, h⟩
    cases ch <;> simp_all [State.busy, State.lane]

theorem busy_of_lane {s : State} {ch : Lane} (h : (s.lane ch).lbusy = true) : s.busy = true :=
  (busy_iff s).2 ⟨ch, h⟩

theorem owned_iff (s : State) (ch : Lane) : s.owned ch = true ↔ s.busy = true ∧ selects s.cmdrLanes ch = true := by
  simp [State.owned]

/-- Two states with the same registers and lanes are equal. -/
theorem State.eq_of_fields {s t : State} (h1 : s.params = t.params) (h2 : s.ctrl = t.ctrl) (h3 : s.flags = t.flags)
    (h4 : s.cmdr = t.cmdr) (h5 : s.cause = t.cause) (h6 : s.einfo = t.einfo) (h7 : s.width = t.width)
    (h8 : s.height = t.height) (h9 : s.key = t.key) (h10 : s.inv = t.inv) (h11 : ∀ ch, s.lane ch = t.lane ch)
    (h12 : s.response = t.response) (h13 : s.draws = t.draws) (h14 : s.agenda = t.agenda) : s = t := by
  have a := h11 .l0
  have b := h11 .l1
  have c := h11 .l2
  cases s
  cases t
  simp only [State.lane] at a b c
  simp_all

end Sys2Proof.Machine
end

