-- ==== Sys2Proof/Laws/Ops.lean ====
section
/-! SUPPORT. What admission, the key stage and reset can do, said once each. -/

namespace Sys2Proof.Machine

/-- Steps 1 and 2 of `OnCmdWrite`: busy, ill-formed, or on to the rest (42_layer_pipeline.md R150). -/
theorem issue_cases (i : Instr) (rest : State → State) (s : State) :
    (s.busy = true ∧ issue i rest s = (raiseError .cmdWhileBusy (encode i) s).respond .err) ∨
    (s.busy = false ∧ i.wellFormed = false ∧ issue i rest s = (raiseError .illegalCmd (encode i) s).respond .ok) ∨
    (s.busy = false ∧ i.wellFormed = true ∧ issue i rest s = rest s) := by
  unfold issue
  cases s.busy <;> cases i.wellFormed <;> simp

/-- Step 3: a failed check rejects, a passed one goes on (42_layer_pipeline.md R150). -/
theorem checkGeometry_cases (check : State → Option Word) (rest : State → State) (s : State) :
    (∃ info, check s = some info ∧ checkGeometry check rest s = (raiseError .dimMismatch info s).respond .ok) ∨
    (check s = none ∧ checkGeometry check rest s = rest s) := by
  unfold checkGeometry
  cases check s <;> simp

/-- Step 4: the key stage writes its registers and goes on, or rejects (42_layer_pipeline.md R150, R152). -/
theorem checkKey_cases (rest : State → State) (s : State) :
    (s.keyOk = true ∧ checkKey rest s = rest (keyStage s)) ∨
    (s.keyOk = false ∧ checkKey rest s =
      (raiseError .keyInvalid (zeroExtend32 (keyStage s).inv.detn) (keyStage s)).respond .ok) := by
  unfold checkKey
  cases s.keyOk <;> simp

/-- The geometry check of a lane command passes exactly when the command is admissible by its rule
(42_layer_pipeline.md R151). -/
theorem laneGeometry_none (m : LaneMask) (s : State) :
    laneGeometry m s = none ↔
      GeometryLegal s ∧ ∀ ch, selects m ch = true → (s.lane ch).len.toNat = s.width.toNat * s.height.toNat := by
  unfold laneGeometry GeometryLegal
  have hp : s.pixels = s.width.toNat * s.height.toNat := rfl
  split
  · rename_i h
    simp only [reduceCtorEq, false_iff]
    rintro ⟨⟨h1, h2, h3⟩, _⟩
    rw [hp] at h
    omega
  · rename_i h
    rw [hp] at h
    simp only [Option.map_eq_none_iff, List.find?_eq_none, lengthWrong, hp]
    constructor
    · intro hl
      refine ⟨by omega, fun ch hs => ?_⟩
      have := hl ch (by cases ch <;> simp [Lane.all])
      simpa [hs] using this
    · rintro ⟨_, hl⟩ ch _
      simp only [Bool.and_eq_true, decide_eq_true_eq, not_and, not_not]
      exact hl ch

/-- An accepted lane command on an idle block leaves the state that its rule says (42_layer_pipeline.md R153). -/
theorem acceptLanes_eq (i : Instr) (s : State) (h : s.busy = false) :
    acceptLanes i s = acceptedState (encode i) i.lanes s := by
  simp only [State.busy, Bool.or_eq_false_iff] at h
  simp only [acceptLanes, acceptedState, State.respond, startLane, h.1.1, h.1.2, h.2, Bool.false_or]
  rfl

/-- The word of a lane command as a number (30_encoding.md R91). -/
theorem encode_permFwd (m : LaneMask) : encode (.permFwd m) = laneWord 0x10 m := by revert m; decide
theorem encode_permRev (m : LaneMask) : encode (.permRev m) = laneWord 0x11 m := by revert m; decide
theorem encode_lbcEmb (m : LaneMask) : encode (.lbcEmb m) = laneWord 0x20 m := by revert m; decide
theorem encode_lbcExt (m : LaneMask) : encode (.lbcExt m) = laneWord 0x21 m := by revert m; decide
theorem encode_wmEmb (m : LaneMask) : encode (.wmEmb m) = laneWord 0x30 m := by revert m; decide
theorem encode_wmExt (m : LaneMask) : encode (.wmExt m) = laneWord 0x31 m := by revert m; decide

/-- Admission of an admissible lane command without a key stage is acceptance. -/
theorem admitLanes_of_admissible {i : Instr} {s : State} (hw : i.wellFormed = true) (h : Admissible i.lanes s) :
    admitLanes i s = acceptedState (encode i) i.lanes s := by
  obtain ⟨hb, _, hg, hl⟩ := h
  unfold admitLanes
  rcases issue_cases i (checkGeometry (laneGeometry i.lanes) (acceptLanes i)) s with h | h | h
  · rw [hb] at h; cases h.1
  · rw [hw] at h; cases h.2.1
  · rw [h.2.2]
    rcases checkGeometry_cases (laneGeometry i.lanes) (acceptLanes i) s with ⟨info, hi, _⟩ | ⟨_, h'⟩
    · rw [(laneGeometry_none i.lanes s).2 ⟨hg, hl⟩] at hi; cases hi
    · rw [h', acceptLanes_eq i s hb]

/-- Admission of an admissible lane command with a key stage, by the outcome of the key stage. -/
theorem admitLanesWithKey_of_admissible {i : Instr} {s : State} (hw : i.wellFormed = true)
    (h : Admissible i.lanes s) :
    admitLanesWithKey i s =
      if s.keyOk then acceptedState (encode i) i.lanes (keyStage s)
      else (raiseError .keyInvalid (zeroExtend32 (keyStage s).inv.detn) (keyStage s)).respond .ok := by
  obtain ⟨hb, _, hg, hl⟩ := h
  unfold admitLanesWithKey
  rcases issue_cases i (checkGeometry (laneGeometry i.lanes) (checkKey (acceptLanes i))) s with h | h | h
  · rw [hb] at h; cases h.1
  · rw [hw] at h; cases h.2.1
  · rw [h.2.2]
    rcases checkGeometry_cases (laneGeometry i.lanes) (checkKey (acceptLanes i)) s with ⟨info, hi, _⟩ | ⟨_, h'⟩
    · rw [(laneGeometry_none i.lanes s).2 ⟨hg, hl⟩] at hi; cases hi
    · rw [h']
      rcases checkKey_cases (acceptLanes i) s with ⟨hk, h''⟩ | ⟨hk, h''⟩
      · rw [h'', hk, if_pos rfl, acceptLanes_eq i (keyStage s) hb]
      · rw [h'', hk]; rfl

/-! ### The inverse search -/

theorem inverseSearch_some {d w v : Nat} (h : inverseSearch d w = some v) : 1 ≤ v ∧ v < w ∧ d * v % w = 1 := by
  unfold inverseSearch at h
  have h1 := List.find?_some h
  have h2 := List.mem_of_find?_eq_some h
  simp only [Bool.and_eq_true, decide_eq_true_eq] at h1
  exact ⟨h1.1, List.mem_range.1 h2, h1.2⟩

theorem inverseSearch_none {d w : Nat} (h : inverseSearch d w = none) :
    ∀ v, 1 ≤ v → v < w → d * v % w ≠ 1 := by
  intro v h1 h2 h3
  unfold inverseSearch at h
  have := List.find?_eq_none.1 h v (List.mem_range.2 h2)
  simp [h1, h3] at this

theorem emod_lt (n : Int) {w : Nat} (h : 0 < w) : emod n w < w := by
  have h1 := Int.emod_lt_of_pos n (by omega : (0 : Int) < w)
  have h2 := Int.emod_nonneg n (by omega : (w : Int) ≠ 0)
  simp only [emod]
  omega

theorem emod_coe (n : Int) {w : Nat} (h : 0 < w) : ((emod n w : Nat) : Int) = n % (w : Int) := by
  have h2 := Int.emod_nonneg n (by omega : (w : Int) ≠ 0)
  simp only [emod]
  omega

/-- The key stage leaves zeros when there is no inverse, and an inverse that is not zero when there is one
(10_state.md R25, R26). -/
theorem keyStageResult_zero (k : AffineKey) {w : Nat} (hw : w < 65536)
    (h : (keyStageResult k w).detinv = 0#16) :
    (keyStageResult k w).inv0 = 0#16 ∧ (keyStageResult k w).inv1 = 0#16 ∧ (keyStageResult k w).inv2 = 0#16 ∧
    (keyStageResult k w).inv3 = 0#16 := by
  unfold keyStageResult at h ⊢
  dsimp only at h ⊢
  cases hs : inverseSearch (determinant k w) w with
  | none => simp
  | some v =>
    exfalso
    rw [hs] at h
    obtain ⟨h1, h2, _⟩ := inverseSearch_some hs
    have := congrArg BitVec.toNat h
    simp only [BitVec.toNat_ofNat] at this
    omega

end Sys2Proof.Machine
end

