-- ==== Sys2Proof/Laws/Memory.lean ====
section
/-! SUPPORT. Lane memories: read after write, the canonical form, and equality of canonical memories. -/

namespace Sys2Proof.Machine

@[simp] theorem Memory.read_nil (i : Nat) : Memory.read [] i = Config.unwrittenByte := rfl

@[simp] theorem Memory.read_cons (a : Nat) (b : Byte) (m : Memory) (i : Nat) :
    Memory.read ((a, b) :: m) i = if i = a then b else Memory.read m i := rfl

theorem Memory.read_insert (i : Nat) (v : Byte) (m : Memory) (j : Nat) :
    (Memory.insert i v m).read j = if j = i then v else m.read j := by
  induction m with
  | nil => simp [Memory.insert]
  | cons c m ih =>
    obtain ⟨a, b⟩ := c
    simp only [Memory.insert]
    split
    · simp
    · split
      · subst i; simp only [Memory.read_cons]; split <;> rfl
      · simp only [Memory.read_cons, ih]
        split <;> split <;> simp_all

theorem Memory.read_erase (i : Nat) (m : Memory) (j : Nat) :
    (Memory.erase i m).read j = if j = i then Config.unwrittenByte else m.read j := by
  induction m with
  | nil => simp [Memory.erase]
  | cons c m ih =>
    obtain ⟨a, b⟩ := c
    have step : Memory.erase i ((a, b) :: m) = if a = i then Memory.erase i m else (a, b) :: Memory.erase i m := by
      by_cases h : a = i <;> simp [Memory.erase, h]
    rw [step]
    by_cases h : a = i
    · subst h; rw [if_pos rfl, ih]; split <;> simp_all
    · simp only [if_neg h, Memory.read_cons, ih]
      by_cases hj : j = a
      · subst hj; simp [h]
      · simp [hj]

/-- Reading after a write gives the byte written, and every other cell is as before. -/
@[simp] theorem Memory.read_write (m : Memory) (i : Nat) (v : Byte) (j : Nat) :
    (m.write i v).read j = if j = i then v else m.read j := by
  unfold Memory.write
  split
  · rename_i h; rw [Memory.read_erase, h]
  · rw [Memory.read_insert]

/-- The byte that `writeBytes` leaves in a cell. -/
theorem Memory.read_writeBytes (bs : List Byte) (m : Memory) (i j : Nat) :
    (m.writeBytes i bs).read j = if i ≤ j ∧ j < i + bs.length then bs.getD (j - i) 0#8 else m.read j := by
  induction bs generalizing m i with
  | nil =>
    simp only [Memory.writeBytes, List.length_nil]
    rw [if_neg (by omega)]
  | cons b bs ih =>
    simp only [Memory.writeBytes, ih, Memory.read_write, List.length_cons]
    by_cases h : j = i
    · subst h; simp
    · by_cases h2 : i + 1 ≤ j ∧ j < i + 1 + bs.length
      · rw [if_pos h2, if_pos (by omega)]
        have : j - i = (j - (i + 1)) + 1 := by omega
        rw [this]; simp
      · rw [if_neg h2, if_neg h, if_neg (by omega)]

/-! ### The canonical form -/

theorem Memory.canonicalFrom_cons (lo a : Nat) (b : Byte) (m : Memory) :
    Memory.canonicalFrom lo ((a, b) :: m) = true ↔
      lo ≤ a ∧ b ≠ Config.unwrittenByte ∧ Memory.canonicalFrom (a + 1) m = true := by
  simp [Memory.canonicalFrom, and_assoc]

theorem Memory.canonicalFrom_mono {lo lo' : Nat} (h : lo' ≤ lo) {m : Memory}
    (hm : Memory.canonicalFrom lo m = true) : Memory.canonicalFrom lo' m = true := by
  cases m with
  | nil => rfl
  | cons c m =>
    obtain ⟨a, b⟩ := c
    rw [Memory.canonicalFrom_cons] at hm ⊢
    exact ⟨by omega, hm.2⟩

theorem Memory.canonicalFrom_insert {lo i : Nat} {v : Byte} (hi : lo ≤ i) (hv : v ≠ Config.unwrittenByte)
    {m : Memory} (hm : Memory.canonicalFrom lo m = true) : Memory.canonicalFrom lo (Memory.insert i v m) = true := by
  induction m generalizing lo with
  | nil => simp [Memory.insert, hi, hv, Memory.canonicalFrom]
  | cons c m ih =>
    obtain ⟨a, b⟩ := c
    rw [Memory.canonicalFrom_cons] at hm
    simp only [Memory.insert]
    split
    · rw [Memory.canonicalFrom_cons, Memory.canonicalFrom_cons]
      exact ⟨hi, hv, by omega, hm.2⟩
    · split
      · subst i; rw [Memory.canonicalFrom_cons]; exact ⟨hi, hv, hm.2.2⟩
      · rw [Memory.canonicalFrom_cons]
        exact ⟨hm.1, hm.2.1, ih (by omega) hm.2.2⟩

theorem Memory.canonicalFrom_erase {lo : Nat} (i : Nat) {m : Memory}
    (hm : Memory.canonicalFrom lo m = true) : Memory.canonicalFrom lo (Memory.erase i m) = true := by
  induction m generalizing lo with
  | nil => rfl
  | cons c m ih =>
    obtain ⟨a, b⟩ := c
    rw [Memory.canonicalFrom_cons] at hm
    have step : Memory.erase i ((a, b) :: m) = if a = i then Memory.erase i m else (a, b) :: Memory.erase i m := by
      by_cases h : a = i <;> simp [Memory.erase, h]
    rw [step]
    split
    · exact Memory.canonicalFrom_mono (by omega) (ih hm.2.2)
    · rw [Memory.canonicalFrom_cons]; exact ⟨hm.1, hm.2.1, ih hm.2.2⟩

/-- A write keeps the canonical form. -/
theorem Memory.wf_write {m : Memory} (hm : m.wf = true) (i : Nat) (v : Byte) : (m.write i v).wf = true := by
  unfold Memory.write
  split
  · exact Memory.canonicalFrom_erase i hm
  · exact Memory.canonicalFrom_insert (Nat.zero_le i) ‹_› hm

/-- Storing several bytes keeps the canonical form. -/
theorem Memory.wf_writeBytes (bs : List Byte) {m : Memory} (hm : m.wf = true) (i : Nat) :
    (m.writeBytes i bs).wf = true := by
  induction bs generalizing m i with
  | nil => exact hm
  | cons b bs ih => exact ih (Memory.wf_write hm i b) (i + 1)

theorem Memory.read_of_lt {lo i : Nat} (h : i < lo) {m : Memory} (hm : Memory.canonicalFrom lo m = true) :
    m.read i = Config.unwrittenByte := by
  induction m generalizing lo with
  | nil => rfl
  | cons c m ih =>
    obtain ⟨a, b⟩ := c
    rw [Memory.canonicalFrom_cons] at hm
    rw [Memory.read_cons, if_neg (by omega)]
    exact ih (by omega) hm.2.2

theorem Memory.ext_from {lo lo' : Nat} {m m' : Memory} (hm : Memory.canonicalFrom lo m = true)
    (hm' : Memory.canonicalFrom lo' m' = true) (h : ∀ i, m.read i = m'.read i) : m = m' := by
  induction m generalizing lo lo' m' with
  | nil =>
    cases m' with
    | nil => rfl
    | cons c' m' =>
      obtain ⟨a', b'⟩ := c'
      rw [Memory.canonicalFrom_cons] at hm'
      have := h a'
      simp at this
      exact absurd this.symm hm'.2.1
  | cons c m ih =>
    obtain ⟨a, b⟩ := c
    rw [Memory.canonicalFrom_cons] at hm
    cases m' with
    | nil =>
      have := h a
      simp at this
      exact absurd this hm.2.1
    | cons c' m' =>
      obtain ⟨a', b'⟩ := c'
      rw [Memory.canonicalFrom_cons] at hm'
      have ha : a = a' := by
        by_contra hne
        rcases Nat.lt_or_gt_of_ne hne with hlt | hlt
        · have := h a
          simp only [Memory.read_cons, if_true, if_neg hne] at this
          rw [Memory.read_of_lt (by omega) hm'.2.2] at this
          exact hm.2.1 this
        · have := h a'
          simp only [Memory.read_cons, if_true, if_neg (Ne.symm hne)] at this
          rw [Memory.read_of_lt (by omega) hm.2.2] at this
          exact hm'.2.1 this.symm
      subst ha
      have hb : b = b' := by simpa using h a
      subst hb
      rw [ih hm.2.2 hm'.2.2]
      intro i
      by_cases hi : i = a
      · subst hi
        rw [Memory.read_of_lt (by omega) hm.2.2, Memory.read_of_lt (by omega) hm'.2.2]
      · simpa [hi] using h i

/-- Canonical memories that read alike are equal data. -/
theorem Memory.eq_of_read {m m' : Memory} (hm : m.wf = true) (hm' : m'.wf = true)
    (h : ∀ i, m.read i = m'.read i) : m = m' :=
  Memory.ext_from hm hm' h

/-! ### The cells that exist -/

theorem Memory.below_insert {bound i : Nat} {v : Byte} (hi : i < bound) {m : Memory}
    (hm : m.below bound = true) : (Memory.insert i v m).below bound = true := by
  induction m with
  | nil => simp [Memory.insert, Memory.below, hi]
  | cons c m ih =>
    obtain ⟨a, b⟩ := c
    simp only [Memory.below, List.all_cons, Bool.and_eq_true, decide_eq_true_eq] at hm ih ⊢
    simp only [Memory.insert]
    split
    · simp [hi, hm.1, hm.2]
    · split
      · simp [hi, hm.2]
      · simp only [List.all_cons, Bool.and_eq_true, decide_eq_true_eq]; exact ⟨hm.1, ih hm.2⟩

theorem Memory.below_erase {bound : Nat} (i : Nat) {m : Memory} (hm : m.below bound = true) :
    (Memory.erase i m).below bound = true := by
  simp only [Memory.below, List.all_eq_true, decide_eq_true_eq, Memory.erase] at *
  intro c hc
  exact hm c (List.mem_of_mem_filter hc)

/-- A write below the bound lists no cell at or above it. -/
theorem Memory.below_write {bound i : Nat} (v : Byte) (hi : i < bound) {m : Memory} (hm : m.below bound = true) :
    (m.write i v).below bound = true := by
  unfold Memory.write
  split
  · exact Memory.below_erase i hm
  · exact Memory.below_insert hi hm

theorem Memory.below_writeBytes {bound : Nat} (bs : List Byte) {i : Nat} (hi : i + bs.length ≤ bound) {m : Memory}
    (hm : m.below bound = true) : (m.writeBytes i bs).below bound = true := by
  induction bs generalizing m i with
  | nil => exact hm
  | cons b bs ih =>
    simp only [List.length_cons] at hi
    exact ih (by omega) (Memory.below_write b (by omega) hm)

@[simp] theorem bytesLE_length (v : Word) (n : Nat) : (bytesLE v n).length = n := by
  induction n generalizing v with
  | zero => rfl
  | succ n ih => simp [bytesLE, ih]

end Sys2Proof.Machine
end

