-- ==== Sys2Proof/Laws/Transforms.lean ====
section
/-! SUPPORT. What each lane transform leaves in every cell, said once (40_lowbit_codec.md R105, R106;
41_affine_permutation.md R124, R129, R131). -/

namespace Sys2Proof.Machine

/-! ### Pixel bytes -/

@[simp] theorem highNibble_pixel (hi lo : Nibble) : highNibble (pixel hi lo) = hi := by
  revert hi lo; decide

@[simp] theorem lowNibble_pixel (hi lo : Nibble) : lowNibble (pixel hi lo) = lo := by
  revert hi lo; decide

theorem pixel_nibbles (p : Byte) : pixel (highNibble p) (lowNibble p) = p := by
  revert p; decide

/-! ### Embed -/

/-- The fold of `embPixel` over the first `n` pixels. -/
def embFold (n : Nat) (l : LaneState) : LaneState := (List.range n).foldl embPixel l

theorem embFold_succ (n : Nat) (l : LaneState) : embFold (n + 1) l = embPixel (embFold n l) n := by
  simp [embFold, List.range_succ]

theorem embFold_spec (n : Nat) (l : LaneState) :
    (∀ i, (embFold n l).layer.read i =
      if i < n then pixel (highNibble (l.layer.read i)) (substOf (lowNibble (l.layer.read i))) else l.layer.read i) ∧
    (∀ i, (embFold n l).sk.read i = if i < n then classOf (lowNibble (l.layer.read i)) else l.sk.read i) ∧
    (embFold n l).len = l.len ∧ (embFold n l).sklen = l.sklen ∧ (embFold n l).degraded = l.degraded ∧
    (embFold n l).dropped = l.dropped ∧ (embFold n l).lbusy = l.lbusy := by
  induction n with
  | zero => simp [embFold]
  | succ n ih =>
    obtain ⟨h1, h2, h3, h4, h5, h6, h7⟩ := ih
    rw [embFold_succ]
    refine ⟨?_, ?_, h3, h4, h5, h6, h7⟩
    · intro i
      simp only [embPixel, Memory.read_write, h1, lt_irrefl, if_false]
      by_cases hi : i = n
      · subst hi; simp
      · rw [if_neg hi]
        by_cases hl : i < n
        · rw [if_pos hl, if_pos (by omega)]
        · rw [if_neg hl, if_neg (by omega)]
    · intro i
      simp only [embPixel, Memory.read_write, h1, h2, lt_irrefl, if_false]
      by_cases hi : i = n
      · subst hi; simp
      · rw [if_neg hi]
        by_cases hl : i < n
        · rw [if_pos hl, if_pos (by omega)]
        · rw [if_neg hl, if_neg (by omega)]

/-- The layer after `EMB` (40_lowbit_codec.md R105). -/
theorem embLayer_layer (n : Nat) (l : LaneState) (i : Nat) :
    (embLayer n l).layer.read i =
      if i < n then pixel (highNibble (l.layer.read i)) (substOf (lowNibble (l.layer.read i)))
      else l.layer.read i := (embFold_spec n l).1 i

/-- The side key after `EMB` (40_lowbit_codec.md R105). -/
theorem embLayer_sk (n : Nat) (l : LaneState) (i : Nat) :
    (embLayer n l).sk.read i = if i < n then classOf (lowNibble (l.layer.read i)) else l.sk.read i :=
  (embFold_spec n l).2.1 i

@[simp] theorem embLayer_sklen (n : Nat) (l : LaneState) : (embLayer n l).sklen = BitVec.ofNat 32 n := rfl
@[simp] theorem embLayer_len (n : Nat) (l : LaneState) : (embLayer n l).len = l.len := (embFold_spec n l).2.2.1
@[simp] theorem embLayer_degraded (n : Nat) (l : LaneState) : (embLayer n l).degraded = l.degraded :=
  (embFold_spec n l).2.2.2.2.1
@[simp] theorem embLayer_dropped (n : Nat) (l : LaneState) : (embLayer n l).dropped = l.dropped :=
  (embFold_spec n l).2.2.2.2.2.1
@[simp] theorem embLayer_lbusy (n : Nat) (l : LaneState) : (embLayer n l).lbusy = l.lbusy :=
  (embFold_spec n l).2.2.2.2.2.2

/-- `EMB` keeps both memories canonical and within the cells below a bound that covers the pixels. -/
theorem embLayer_wf (n : Nat) (l : LaneState) {bound : Nat} (hn : n ≤ bound)
    (h1 : l.layer.wf = true) (h2 : l.sk.wf = true) (h3 : l.layer.below bound = true) (h4 : l.sk.below bound = true) :
    (embLayer n l).layer.wf = true ∧ (embLayer n l).sk.wf = true ∧
    (embLayer n l).layer.below bound = true ∧ (embLayer n l).sk.below bound = true := by
  suffices ∀ k ≤ n, (embFold k l).layer.wf = true ∧ (embFold k l).sk.wf = true ∧
      (embFold k l).layer.below bound = true ∧ (embFold k l).sk.below bound = true from this n (le_refl n)
  intro k
  induction k with
  | zero => intro _; exact ⟨h1, h2, h3, h4⟩
  | succ k ih =>
    intro hk
    obtain ⟨a, b, c, d⟩ := ih (by omega)
    rw [embFold_succ]
    exact ⟨Memory.wf_write a _ _, Memory.wf_write b _ _, Memory.below_write _ (by omega) c,
      Memory.below_write _ (by omega) d⟩

/-! ### Extract -/

/-- What `EXT` recovers for pixel `i` (40_lowbit_codec.md R106). -/
def recovered (v : RevVariant) (l : LaneState) (i : Nat) : Nibble × Bool :=
  revf v (l.entry i) (lowNibble (l.layer.read i))

/-- The fold of `extPixel` over the first `n` pixels. -/
def extFold (v : RevVariant) (n : Nat) (l : LaneState) : LaneState × Nat := (List.range n).foldl (extPixel v) (l, 0)

theorem extFold_succ (v : RevVariant) (n : Nat) (l : LaneState) :
    extFold v (n + 1) l = extPixel v (extFold v n l) n := by
  simp [extFold, List.range_succ]

theorem extLayer_spec (v : RevVariant) (n : Nat) (l : LaneState) :
    (∀ i, (extLayer v n l).1.layer.read i =
      if i < n then pixel (highNibble (l.layer.read i)) (recovered v l i).1 else l.layer.read i) ∧
    (extLayer v n l).2 = ((List.range n).filter (fun i => (recovered v l i).2)).length ∧
    (extLayer v n l).1 = { l with layer := (extLayer v n l).1.layer } := by
  show (∀ i, (extFold v n l).1.layer.read i = _) ∧ (extFold v n l).2 = _ ∧
    (extFold v n l).1 = { l with layer := (extFold v n l).1.layer }
  induction n with
  | zero => simp [extFold]
  | succ n ih =>
    obtain ⟨h1, h2, h3⟩ := ih
    have hrec : revf v ((extFold v n l).1.entry n) (lowNibble ((extFold v n l).1.layer.read n)) = recovered v l n := by
      have e : (extFold v n l).1.entry n = l.entry n := by rw [h3]; rfl
      rw [e, h1, if_neg (lt_irrefl n)]; rfl
    rw [extFold_succ]
    refine ⟨?_, ?_, ?_⟩
    · intro i
      simp only [extPixel, Memory.read_write, hrec]
      by_cases hi : i = n
      · subst hi; simp [h1]
      · rw [if_neg hi, h1]
        by_cases hl : i < n
        · rw [if_pos hl, if_pos (by omega)]
        · rw [if_neg hl, if_neg (by omega)]
    · simp only [extPixel, hrec, h2, List.range_succ, List.filter_append, List.length_append]
      by_cases hd : (recovered v l n).2 = true
      · simp [hd]
      · simp [hd]
    · simp only [extPixel]
      rw [h3]

/-- The layer after `EXT` (40_lowbit_codec.md R106). -/
theorem extLayer_layer (v : RevVariant) (n : Nat) (l : LaneState) (i : Nat) :
    (extLayer v n l).1.layer.read i =
      if i < n then pixel (highNibble (l.layer.read i)) (recovered v l i).1 else l.layer.read i :=
  (extLayer_spec v n l).1 i

/-- The degraded count of `EXT`: the guard cases among the pixels (40_lowbit_codec.md R106, R107). -/
theorem extLayer_count (v : RevVariant) (n : Nat) (l : LaneState) :
    (extLayer v n l).2 = ((List.range n).filter (fun i => (recovered v l i).2)).length := (extLayer_spec v n l).2.1

/-- `EXT` writes nothing but the layer. -/
theorem extLayer_frame (v : RevVariant) (n : Nat) (l : LaneState) :
    (extLayer v n l).1 = { l with layer := (extLayer v n l).1.layer } := (extLayer_spec v n l).2.2

theorem extLayer_count_le (v : RevVariant) (n : Nat) (l : LaneState) : (extLayer v n l).2 ≤ n := by
  rw [extLayer_count]
  exact (List.length_filter_le _ _).trans (by simp)

/-- `EXT` keeps the layer canonical and within the cells below a bound that covers the pixels. -/
theorem extLayer_wf (v : RevVariant) (n : Nat) (l : LaneState) {bound : Nat} (hn : n ≤ bound)
    (h1 : l.layer.wf = true) (h3 : l.layer.below bound = true) :
    (extLayer v n l).1.layer.wf = true ∧ (extLayer v n l).1.layer.below bound = true := by
  suffices ∀ k ≤ n, (extFold v k l).1.layer.wf = true ∧ (extFold v k l).1.layer.below bound = true from this n (le_refl n)
  intro k
  induction k with
  | zero => intro _; exact ⟨h1, h3⟩
  | succ k ih =>
    intro hk
    obtain ⟨a, c⟩ := ih (by omega)
    rw [extFold_succ]
    exact ⟨Memory.wf_write a _ _, Memory.below_write _ (by omega) c⟩

/-! ### The output buffer -/

@[simp] theorem freshOutput_length (n : Nat) : (freshOutput n).length = n := by simp [freshOutput]

theorem freshOutput_getD (n j : Nat) : (freshOutput n).getD j 0#8 = 0#8 := by
  simp only [freshOutput, List.getD_eq_getElem?_getD, List.getElem?_replicate]
  split <;> rfl

/-- The layer after the output buffer is copied over it (41_affine_permutation.md R124). -/
theorem copyOutput_read (out : List Byte) (m : Memory) (j : Nat) :
    (copyOutput out m).read j = if j < out.length then out.getD j 0#8 else m.read j := by
  simp [copyOutput, Memory.read_writeBytes]

theorem copyOutput_wf (out : List Byte) {m : Memory} (h : m.wf = true) : (copyOutput out m).wf = true :=
  Memory.wf_writeBytes out h 0

theorem copyOutput_below (out : List Byte) {m : Memory} {bound : Nat} (hl : out.length ≤ bound)
    (h : m.below bound = true) : (copyOutput out m).below bound = true :=
  Memory.below_writeBytes out (by omega) h

theorem getD_set (l : List Byte) (i j : Nat) (v : Byte) :
    (l.set i v).getD j 0#8 = if i = j ∧ j < l.length then v else l.getD j 0#8 := by
  simp only [List.getD_eq_getElem?_getD, List.getElem?_set]
  by_cases h : i = j
  · subst h
    by_cases hl : i < l.length
    · simp [hl]
    · simp [hl]
  · simp [h]

/-! ### Forward permutation -/

/-- The greatest index below `n` that satisfies `P`, if any: which source wins a target (41_affine_permutation.md
R124). -/
def lastBelow (P : Nat → Bool) : Nat → Option Nat
  | 0 => none
  | n + 1 => if P n then some n else lastBelow P n

theorem lastBelow_some {P : Nat → Bool} {n i : Nat} (h : lastBelow P n = some i) :
    i < n ∧ P i = true ∧ ∀ k, i < k → k < n → P k = false := by
  induction n with
  | zero => simp [lastBelow] at h
  | succ n ih =>
    simp only [lastBelow] at h
    split at h
    · cases h
      exact ⟨by omega, ‹_›, fun k h1 h2 => by omega⟩
    · obtain ⟨a, b, c⟩ := ih h
      refine ⟨by omega, b, fun k h1 h2 => ?_⟩
      by_cases hk : k = n
      · subst hk; simp_all
      · exact c k h1 (by omega)

theorem lastBelow_none {P : Nat → Bool} {n : Nat} (h : lastBelow P n = none) : ∀ k < n, P k = false := by
  induction n with
  | zero => intro k hk; omega
  | succ n ih =>
    simp only [lastBelow] at h
    split at h
    · cases h
    · intro k hk
      by_cases hk' : k = n
      · subst hk'; simp_all
      · exact ih h k (by omega)

/-- The greatest index is the one: nothing above it satisfies the predicate. -/
theorem lastBelow_eq {P : Nat → Bool} {n i : Nat} (hi : i < n) (hp : P i = true)
    (hl : ∀ k, i < k → k < n → P k = false) : lastBelow P n = some i := by
  cases h : lastBelow P n with
  | none => rw [lastBelow_none h i hi] at hp; cases hp
  | some j =>
    obtain ⟨a, b, c⟩ := lastBelow_some h
    rcases Nat.lt_trichotomy i j with h1 | h1 | h1
    · rw [hl j h1 a] at b; cases b
    · rw [h1]
    · rw [c i h1 hi] at hp; cases hp

/-- What a permutation leaves in target cell `j`: the byte of the last source that maps to it, or the fill byte. -/
def landed (hit : Nat → Bool) (src : Memory) (n : Nat) : Byte :=
  match lastBelow hit n with
  | some i => src.read i
  | none => 0#8

/-- The fold of `pfwdPixel` over the first `k` sources. -/
def pfwdFold (target : Nat → Int) (n : Nat) (src : Memory) (k : Nat) : List Byte × Nat :=
  (List.range k).foldl (pfwdPixel target n src) (freshOutput n, 0)

theorem pfwdFold_spec (target : Nat → Int) (n : Nat) (src : Memory) (k : Nat) :
    (pfwdFold target n src k).1.length = n ∧
    (∀ j < n, (pfwdFold target n src k).1.getD j 0#8 = landed (fun i => decide (target i = (j : Int))) src k) ∧
    (pfwdFold target n src k).2 =
      ((List.range k).filter (fun i => decide (¬ (0 ≤ target i ∧ target i < (n : Int))))).length := by
  induction k with
  | zero => exact ⟨by simp [pfwdFold], fun j _ => freshOutput_getD n j, by simp [pfwdFold]⟩
  | succ k ih =>
    obtain ⟨h1, h2, h3⟩ := ih
    have e : pfwdFold target n src (k + 1) = pfwdPixel target n src (pfwdFold target n src k) k := by
      simp [pfwdFold, List.range_succ]
    rw [e]
    by_cases hin : 0 ≤ target k ∧ target k < (n : Int)
    · simp only [pfwdPixel, if_pos hin]
      refine ⟨by simpa using h1, ?_, ?_⟩
      · intro j hj
        rw [getD_set, h1]
        simp only [landed, lastBelow]
        by_cases ht : target k = (j : Int)
        · have : (target k).toNat = j := by omega
          simp [ht, hj]
        · have : (target k).toNat ≠ j := by omega
          simp only [this, false_and, if_false, h2 j hj, landed, ht, decide_false, Bool.false_eq_true]
      · rw [List.range_succ, List.filter_append, List.length_append, h3, List.filter_cons, if_neg (by simpa using hin)]; rfl
    · simp only [pfwdPixel, if_neg hin]
      refine ⟨h1, ?_, ?_⟩
      · intro j hj
        rw [h2 j hj]
        have ht : target k ≠ (j : Int) := by omega
        simp [landed, lastBelow, ht]
      · rw [List.range_succ, List.filter_append, List.length_append, h3]
        rw [List.filter_cons, if_pos (decide_eq_true hin)]; rfl

/-- The layer after `PFWD` (41_affine_permutation.md R124, R129). -/
theorem pfwdLayer_layer (k : AffineKey) (w h : Nat) (l : LaneState) (j : Nat) :
    (pfwdLayer k w h l).1.layer.read j =
      if j < w * h then landed (fun i => decide (forwardIndex k w h i = (j : Int))) l.layer (w * h)
      else l.layer.read j := by
  obtain ⟨h1, h2, _⟩ := pfwdFold_spec (forwardIndex k w h) (w * h) l.layer (w * h)
  show (copyOutput (pfwdFold (forwardIndex k w h) (w * h) l.layer (w * h)).1 l.layer).read j = _
  rw [copyOutput_read, h1]
  split
  · rw [h2 j ‹_›]
  · rfl

/-- The drop count of `PFWD` (41_affine_permutation.md R123). -/
theorem pfwdLayer_count (k : AffineKey) (w h : Nat) (l : LaneState) :
    (pfwdLayer k w h l).2 = ((List.range (w * h)).filter
      (fun i => decide (¬ (0 ≤ forwardIndex k w h i ∧ forwardIndex k w h i < ((w * h : Nat) : Int))))).length :=
  (pfwdFold_spec (forwardIndex k w h) (w * h) l.layer (w * h)).2.2

theorem pfwdLayer_count_le (k : AffineKey) (w h : Nat) (l : LaneState) : (pfwdLayer k w h l).2 ≤ w * h := by
  rw [pfwdLayer_count]
  exact (List.length_filter_le _ _).trans (by simp)

/-- `PFWD` writes nothing but the layer. -/
theorem pfwdLayer_frame (k : AffineKey) (w h : Nat) (l : LaneState) :
    (pfwdLayer k w h l).1 = { l with layer := (pfwdLayer k w h l).1.layer } := rfl

/-- `PFWD` keeps the layer canonical and within the cells below a bound that covers the pixels. -/
theorem pfwdLayer_wf (k : AffineKey) (w h : Nat) (l : LaneState) {bound : Nat} (hn : w * h ≤ bound)
    (h1 : l.layer.wf = true) (h3 : l.layer.below bound = true) :
    (pfwdLayer k w h l).1.layer.wf = true ∧ (pfwdLayer k w h l).1.layer.below bound = true :=
  ⟨copyOutput_wf _ h1,
   copyOutput_below _ ((pfwdFold_spec (forwardIndex k w h) (w * h) l.layer (w * h)).1.le.trans hn) h3⟩

/-! ### Reverse permutation -/

/-- The fold of `prevPixel` over the first `k` destinations. -/
def prevFold (target : Nat → Nat) (n : Nat) (src : Memory) (k : Nat) : List Byte :=
  (List.range k).foldl (prevPixel target src) (freshOutput n)

theorem prevFold_spec (target : Nat → Nat) (n : Nat) (src : Memory) (k : Nat) :
    (prevFold target n src k).length = n ∧
    (∀ i < n, (prevFold target n src k).getD i 0#8 = landed (fun j => decide (target j = i)) src k) := by
  induction k with
  | zero => exact ⟨by simp [prevFold], fun j _ => freshOutput_getD n j⟩
  | succ k ih =>
    obtain ⟨h1, h2⟩ := ih
    have e : prevFold target n src (k + 1) = prevPixel target src (prevFold target n src k) k := by
      simp [prevFold, List.range_succ]
    rw [e]
    simp only [prevPixel]
    refine ⟨by simpa using h1, ?_⟩
    intro i hi
    rw [getD_set, h1]
    simp only [landed, lastBelow]
    by_cases ht : target k = i
    · simp [ht, hi]
    · simp only [ht, false_and, if_false, h2 i hi, landed, decide_false, Bool.false_eq_true]

/-- The layer after `PREV` (41_affine_permutation.md R124, R131). -/
theorem prevLayer_layer (v : InverseMatrix) (tx ty : Int) (w h : Nat) (l : LaneState) (i : Nat) :
    (prevLayer v tx ty w h l).layer.read i =
      if i < w * h then landed (fun j => decide (reverseIndex v tx ty w h j = i)) l.layer (w * h)
      else l.layer.read i := by
  obtain ⟨h1, h2⟩ := prevFold_spec (reverseIndex v tx ty w h) (w * h) l.layer (w * h)
  show (copyOutput (prevFold (reverseIndex v tx ty w h) (w * h) l.layer (w * h)) l.layer).read i = _
  rw [copyOutput_read, h1]
  split
  · rw [h2 i ‹_›]
  · rfl

/-- `PREV` writes nothing but the layer. -/
theorem prevLayer_frame (v : InverseMatrix) (tx ty : Int) (w h : Nat) (l : LaneState) :
    prevLayer v tx ty w h l = { l with layer := (prevLayer v tx ty w h l).layer } := rfl

/-- `PREV` keeps the layer canonical and within the cells below a bound that covers the pixels. -/
theorem prevLayer_wf (v : InverseMatrix) (tx ty : Int) (w h : Nat) (l : LaneState) {bound : Nat} (hn : w * h ≤ bound)
    (h1 : l.layer.wf = true) (h3 : l.layer.below bound = true) :
    (prevLayer v tx ty w h l).layer.wf = true ∧ (prevLayer v tx ty w h l).layer.below bound = true :=
  ⟨copyOutput_wf _ h1,
   copyOutput_below _ ((prevFold_spec (reverseIndex v tx ty w h) (w * h) l.layer (w * h)).1.le.trans hn) h3⟩

end Sys2Proof.Machine
end

