-- ==== Sys2Proof/Laws/Lanes.lean ====
section
/-! SUPPORT. What a lane transform and a completion step can do, and what one event can do, said once each. -/

namespace Sys2Proof.Machine

/-- No lane transform writes `LEN`, `LBUSY` or the two counters; the counts it returns are at most `N`
(42_layer_pipeline.md R154, R160). -/
theorem laneTransform_frame (s : State) (ch : Lane) :
    (laneTransform s ch).lane.len = (s.lane ch).len ∧
    (laneTransform s ch).lane.degraded = (s.lane ch).degraded ∧
    (laneTransform s ch).lane.dropped = (s.lane ch).dropped ∧
    (∀ d, (laneTransform s ch).dropped = some d → d ≤ s.pixels) ∧
    (∀ d, (laneTransform s ch).deg = some d → d ≤ s.pixels) := by
  have hp : s.pixels = s.width.toNat * s.height.toNat := rfl
  unfold laneTransform
  split
  · refine ⟨rfl, rfl, rfl, ?_, by simp [lanePermFwd]⟩
    intro d hd
    simp only [lanePermFwd, Option.some.injEq] at hd
    rw [← hd, hp]; exact pfwdLayer_count_le _ _ _ _
  · exact ⟨rfl, rfl, rfl, by simp [lanePermRev], by simp [lanePermRev]⟩
  · exact ⟨by simp [laneLbcEmb], by simp [laneLbcEmb], by simp [laneLbcEmb], by simp [laneLbcEmb], by simp [laneLbcEmb]⟩
  · refine ⟨?_, ?_, ?_, by simp [laneLbcExt], ?_⟩
    · simp only [laneLbcExt]; rw [extLayer_frame]
    · simp only [laneLbcExt]; rw [extLayer_frame]
    · simp only [laneLbcExt]; rw [extLayer_frame]
    · intro d hd
      simp only [laneLbcExt, Option.some.injEq] at hd
      rw [← hd]; exact extLayer_count_le _ _ _
  · refine ⟨by simp [laneWmEmb, State.pfwdOf, pfwdLayer], by simp [laneWmEmb, State.pfwdOf, pfwdLayer],
      by simp [laneWmEmb, State.pfwdOf, pfwdLayer], ?_, by simp [laneWmEmb]⟩
    intro d hd
    simp only [laneWmEmb, Option.some.injEq] at hd
    rw [← hd, hp]; exact pfwdLayer_count_le _ _ _ _
  · refine ⟨?_, ?_, ?_, by simp [laneWmExt], ?_⟩
    · simp only [laneWmExt, State.prevOf, prevLayer]; rw [extLayer_frame]
    · simp only [laneWmExt, State.prevOf, prevLayer]; rw [extLayer_frame]
    · simp only [laneWmExt, State.prevOf, prevLayer]; rw [extLayer_frame]
    · intro d hd
      simp only [laneWmExt, Option.some.injEq] at hd
      rw [← hd]; exact extLayer_count_le _ _ _
  · exact ⟨rfl, rfl, rfl, by simp, by simp⟩
  · exact ⟨rfl, rfl, rfl, by simp, by simp⟩

/-- Every lane transform keeps the lane's memories canonical and within the cells that exist. -/
theorem laneTransform_wf (s : State) (ch : Lane) {bound : Nat} (hn : s.pixels ≤ bound)
    (h1 : (s.lane ch).layer.wf = true) (h2 : (s.lane ch).sk.wf = true)
    (h3 : (s.lane ch).layer.below bound = true) (h4 : (s.lane ch).sk.below bound = true) :
    (laneTransform s ch).lane.layer.wf = true ∧ (laneTransform s ch).lane.sk.wf = true ∧
    (laneTransform s ch).lane.layer.below bound = true ∧ (laneTransform s ch).lane.sk.below bound = true := by
  have hp : s.width.toNat * s.height.toNat ≤ bound := hn
  unfold laneTransform
  split
  · have h := pfwdLayer_wf s.key.values s.width.toNat s.height.toNat (s.lane ch) hp h1 h3
    exact ⟨h.1, h2, h.2, h4⟩
  · have h := prevLayer_wf s.inv.matrix s.key.values.tx s.key.values.ty s.width.toNat s.height.toNat (s.lane ch) hp h1 h3
    exact ⟨h.1, h2, h.2, h4⟩
  · exact embLayer_wf s.pixels (s.lane ch) hn h1 h2 h3 h4
  · have h := extLayer_wf s.params.rev s.pixels (s.lane ch) hn h1 h3
    have hs : (extLayer s.params.rev s.pixels (s.lane ch)).1.sk = (s.lane ch).sk := by rw [extLayer_frame]
    simp only [laneLbcExt, hs]
    exact ⟨h.1, h2, h.2, h4⟩
  · have h := pfwdLayer_wf s.key.values s.width.toNat s.height.toNat (s.lane ch) hp h1 h3
    exact embLayer_wf s.pixels (pfwdLayer s.key.values s.width.toNat s.height.toNat (s.lane ch)).1 hn h.1 h2 h.2 h4
  · have h := extLayer_wf s.params.rev s.pixels (s.lane ch) hn h1 h3
    have hs : (extLayer s.params.rev s.pixels (s.lane ch)).1.sk = (s.lane ch).sk := by rw [extLayer_frame]
    have h' := prevLayer_wf s.inv.matrix s.key.values.tx s.key.values.ty s.width.toNat s.height.toNat
      (extLayer s.params.rev s.pixels (s.lane ch)).1 hp h.1 h.2
    refine ⟨h'.1, ?_, h'.2, ?_⟩
    · show (extLayer s.params.rev s.pixels (s.lane ch)).1.sk.wf = true
      rw [hs]; exact h2
    · show Memory.below bound (extLayer s.params.rev s.pixels (s.lane ch)).1.sk = true
      rw [hs]; exact h4
  · exact ⟨h1, h2, h3, h4⟩
  · exact ⟨h1, h2, h3, h4⟩

/-- A lane that is not enabled does nothing (42_layer_pipeline.md R156, log entry 3). -/
theorem laneComplete_idle {ch : Lane} {s : State} (h : (s.lane ch).lbusy = false) : laneComplete ch s = s := by
  simp [laneComplete, h]

/-- An enabled lane's completion step: its lane, `DEGR` and `DONE` are all it writes (42_layer_pipeline.md R156). -/
theorem laneComplete_running {ch : Lane} {s : State} (h : (s.lane ch).lbusy = true) :
    laneComplete ch s =
      { s.setLane ch (laneTransform s ch).finish with
        flags := { s.flags with
          degr := s.flags.degr || (laneTransform s ch).degrades
          done := s.flags.done || !(s.setLane ch (laneTransform s ch).finish).busy } } := by
  simp only [laneComplete, h, if_true, barrier]
  have hb : ∀ f : Flags, State.busy { s.setLane ch (laneTransform s ch).finish with flags := f } =
      (s.setLane ch (laneTransform s ch).finish).busy := fun _ => rfl
  rw [hb]
  cases (s.setLane ch (laneTransform s ch).finish).busy <;> simp

@[simp] theorem laneComplete_lane_other {ch c : Lane} (s : State) (h : c ≠ ch) :
    (laneComplete ch s).lane c = s.lane c := by
  cases hb : (s.lane ch).lbusy
  · rw [laneComplete_idle hb]
  · rw [laneComplete_running hb]
    have : ∀ f : Flags, State.lane { s.setLane ch (laneTransform s ch).finish with flags := f } c =
      (s.setLane ch (laneTransform s ch).finish).lane c := by intro f; cases c <;> rfl
    rw [this, setLane_lane_other _ _ h]

theorem laneComplete_lane_same {ch : Lane} {s : State} (h : (s.lane ch).lbusy = true) :
    (laneComplete ch s).lane ch = (laneTransform s ch).finish := by
  rw [laneComplete_running h]
  have : ∀ f : Flags, State.lane { s.setLane ch (laneTransform s ch).finish with flags := f } ch =
    (s.setLane ch (laneTransform s ch).finish).lane ch := by intro f; cases ch <;> rfl
  rw [this, setLane_lane_same]

/-- What no lane step writes. -/
theorem laneComplete_shared (ch : Lane) (s : State) : SharedUnchanged s (laneComplete ch s) := by
  cases hb : (s.lane ch).lbusy
  · rw [laneComplete_idle hb]; constructor <;> rfl
  · rw [laneComplete_running hb]; constructor <;> simp

/-- A running lane's step sets `DEGR` when its transform degrades a pixel, and never clears it (42_layer_pipeline.md
R156, 60_exceptions.md R197). -/
theorem laneComplete_degr {ch : Lane} {s : State} (h : (s.lane ch).lbusy = true) :
    (laneComplete ch s).flags.degr = (s.flags.degr || (laneTransform s ch).degrades) := by
  rw [laneComplete_running h]

/-- A lane transform depends only on its own lane and the shared registers it reads (42_layer_pipeline.md R160). -/
theorem laneTransform_congr {s t : State} {ch : Lane} (hl : t.lane ch = s.lane ch) (hc : t.cmdr = s.cmdr)
    (hr : t.params.rev = s.params.rev) (hw : t.width = s.width) (hh : t.height = s.height) (hk : t.key = s.key)
    (hi : t.inv = s.inv) : laneTransform t ch = laneTransform s ch := by
  have hp : t.pixels = s.pixels := by simp [State.pixels, hw, hh]
  unfold laneTransform
  rw [hc]
  split <;> simp only [lanePermFwd, lanePermRev, laneLbcEmb, laneLbcExt, laneWmEmb, laneWmExt, State.pfwdOf, State.prevOf,
    hp, hl, hr, hw, hh, hk, hi]

/-- The extract commands, and no other, return a degraded count (42_layer_pipeline.md R154). -/
theorem laneTransform_deg_iff (s : State) (ch : Lane) :
    (∃ d, (laneTransform s ch).deg = some d) ↔ (opField s.cmdr = 0x21#8 ∨ opField s.cmdr = 0x31#8) := by
  have ho : ∀ o : Byte, (opcodeOf o = some .lbcExt ∨ opcodeOf o = some .wmExt) ↔ (o = 0x21#8 ∨ o = 0x31#8) := by decide
  rw [← ho]
  unfold laneTransform
  cases opcodeOf (opField s.cmdr) with
  | none => simp
  | some x => cases x <;> simp [lanePermFwd, lanePermRev, laneLbcEmb, laneLbcExt, laneWmEmb, laneWmExt]

/-- After its step a lane runs no more. -/
theorem laneComplete_lbusy (ch : Lane) (s : State) : ((laneComplete ch s).lane ch).lbusy = false := by
  cases hb : (s.lane ch).lbusy
  · rw [laneComplete_idle hb]; exact hb
  · rw [laneComplete_lane_same hb]; rfl

/-- A lane runs after the step of lane `ch` exactly when it ran before and is not `ch`. -/
theorem laneComplete_lbusy_iff (ch c : Lane) (s : State) :
    ((laneComplete ch s).lane c).lbusy = true ↔ c ≠ ch ∧ (s.lane c).lbusy = true := by
  by_cases h : c = ch
  · subst h; simp [laneComplete_lbusy]
  · simp [laneComplete_lane_other s h, h]

/-! ### Events -/

/-- What a step is: the head of the agenda, or the block's own next step. -/
theorem step_nil {s : State} (h : s.agenda = []) : step s = .next (autonomous s) := by simp [step, h]

theorem step_cons {s : State} {e : Event} {rest : List Event} (h : s.agenda = e :: rest) :
    step s = runEvent e { s with agenda := rest } := by simp [step, h]

/-- The block's own next step is the completion of a running lane, or nothing if none runs. -/
theorem autonomous_cases (s : State) :
    (s.busy = false ∧ autonomous s = s) ∨
    (∃ ch, (s.lane ch).lbusy = true ∧ autonomous s = laneComplete ch s) := by
  unfold autonomous nextLane
  cases h : Lane.all.find? (fun ch => (s.lane ch).lbusy) with
  | none =>
    left
    refine ⟨?_, rfl⟩
    rw [List.find?_eq_none] at h
    cases hb : s.busy
    · rfl
    · obtain ⟨ch, hc⟩ := (busy_iff s).1 hb
      exact absurd hc (h ch (by cases ch <;> simp [Lane.all]))
  | some ch => exact .inr ⟨ch, List.find?_some (p := fun ch => (s.lane ch).lbusy) h, rfl⟩

/-- Every command answers a next state: its admission. -/
theorem exec_next (i : Instr) (s : State) : ∃ t, exec i s = .next t := by cases i <;> exact ⟨_, rfl⟩

/-- A write to `CMD` answers a next state. -/
theorem writeCmd_next (w : Word) (s : State) : ∃ t, writeCmd w s = .next t := by
  unfold writeCmd
  split
  · exact exec_next _ _
  · split <;> exact ⟨_, rfl⟩

/-- A host write by its target: a bus error, a command, a refused access, a register write, or a store of cells
(20_memory.md R55 to R57, 60_exceptions.md R185). -/
theorem hostWrite_cases (addr : Offset) (n : Nat) (v : Word) (s : State) :
    (busTarget s.params addr n = none ∧ hostWrite addr n v s = .next (s.respond .err)) ∨
    (busTarget s.params addr n = some (.reg .cmd) ∧ hostWrite addr n v s = writeCmd v s) ∨
    (∃ r, r ≠ .cmd ∧ busTarget s.params addr n = some (.reg r) ∧ writeLocked s r = true ∧
      hostWrite addr n v s = .next (refuseLocked addr s)) ∨
    (∃ r, r ≠ .cmd ∧ busTarget s.params addr n = some (.reg r) ∧ writeLocked s r = false ∧
      hostWrite addr n v s = .next ((writeReg r v s).respond .ok)) ∨
    (∃ k ch first, busTarget s.params addr n = some (.cells k ch first) ∧ s.owned ch = true ∧
      hostWrite addr n v s = .next (refuseLocked addr s)) ∨
    (∃ k ch first, busTarget s.params addr n = some (.cells k ch first) ∧ s.owned ch = false ∧
      hostWrite addr n v s = .next ((storeCells k ch first n v s).respond .ok)) := by
  unfold hostWrite
  split
  · exact .inl ⟨‹_›, rfl⟩
  · exact .inr (.inl ⟨‹_›, rfl⟩)
  · rename_i r hr heq
    have hne : r ≠ .cmd := fun hc => hr hc
    cases hl : writeLocked s r
    · exact .inr (.inr (.inr (.inl ⟨r, hne, heq, hl, by simp⟩)))
    · exact .inr (.inr (.inl ⟨r, hne, heq, hl, by simp⟩))
  · rename_i k ch first heq
    cases ho : s.owned ch
    · exact .inr (.inr (.inr (.inr (.inr ⟨k, ch, first, heq, ho, by simp⟩))))
    · exact .inr (.inr (.inr (.inr (.inl ⟨k, ch, first, heq, ho, by simp⟩))))

/-- A host read by its target: a bus error, a register, a refused access, or cells. -/
theorem hostRead_cases (addr : Offset) (n : Nat) (s : State) :
    (busTarget s.params addr n = none ∧ hostRead addr n s = s.respond .err) ∨
    (∃ r, busTarget s.params addr n = some (.reg r) ∧ hostRead addr n s = s.respond (.value (readReg s r))) ∨
    (∃ k ch first, busTarget s.params addr n = some (.cells k ch first) ∧ s.owned ch = true ∧
      hostRead addr n s = refuseLocked addr s) ∨
    (∃ k ch first, busTarget s.params addr n = some (.cells k ch first) ∧ s.owned ch = false ∧
      hostRead addr n s = s.respond (.value (BitVec.ofNat 32 (((s.lane ch).mem k).readLE first n)))) := by
  unfold hostRead
  split
  · exact .inl ⟨‹_›, rfl⟩
  · exact .inr (.inl ⟨_, ‹_›, rfl⟩)
  · rename_i k ch first heq
    cases ho : s.owned ch
    · exact .inr (.inr (.inr ⟨k, ch, first, heq, ho, by simp⟩))
    · exact .inr (.inr (.inl ⟨k, ch, first, heq, ho, by simp⟩))

end Sys2Proof.Machine
end

