-- ==== Sys2Proof/Laws/Transactions.lean ====
section
/-! SUPPORT. What a command, a host transaction and a step can do, said once each. -/

namespace Sys2Proof.Machine

/-- The check of step 3 that a command makes (42_layer_pipeline.md R151). -/
def geometryOf (i : Instr) (s : State) : Option Word :=
  match i with
  | .keyInv => keyGeometry s
  | _ => laneGeometry i.lanes s

/-- The command has a key stage (42_layer_pipeline.md R152). -/
def hasKeyStage : Instr → Bool
  | .keyInv => true
  | .permRev _ => true
  | .wmExt _ => true
  | _ => false

/-- The state on which an admitted command is accepted: with the key-stage results written, if it has a key stage. -/
def staged (i : Instr) (s : State) : State := if hasKeyStage i then keyStage s else s

/-- The state after acceptance (42_layer_pipeline.md R153). -/
def accepted (i : Instr) (s : State) : State :=
  match i with
  | .keyInv => acceptKeyInv s
  | _ => acceptLanes i s

/-- Everything that a command can do when it is written to `CMD` (42_layer_pipeline.md R150): the four rejections in
their order, or acceptance. -/
theorem exec_cases (i : Instr) (s : State) :
    (s.busy = true ∧ exec i s = .next ((raiseError .cmdWhileBusy (encode i) s).respond .err)) ∨
    (s.busy = false ∧ i.wellFormed = false ∧
      exec i s = .next ((raiseError .illegalCmd (encode i) s).respond .ok)) ∨
    (∃ info, s.busy = false ∧ i.wellFormed = true ∧ geometryOf i s = some info ∧
      exec i s = .next ((raiseError .dimMismatch info s).respond .ok)) ∨
    (s.busy = false ∧ i.wellFormed = true ∧ geometryOf i s = none ∧ hasKeyStage i = true ∧ s.keyOk = false ∧
      exec i s = .next ((raiseError .keyInvalid (zeroExtend32 (keyStage s).inv.detn) (keyStage s)).respond .ok)) ∨
    (s.busy = false ∧ i.wellFormed = true ∧ geometryOf i s = none ∧ (hasKeyStage i = true → s.keyOk = true) ∧
      exec i s = .next (accepted i (staged i s))) := by
  cases i <;>
    simp only [exec, execKeyInv, execPermFwd, execPermRev, execLbcEmb, execLbcExt, execWmEmb, execWmExt, admitLanes,
      admitLanesWithKey, issue, checkGeometry, checkKey, geometryOf, hasKeyStage, staged, accepted] <;>
    cases s.busy <;> cases Instr.wellFormed _ <;> simp <;> split <;> simp_all <;> cases s.keyOk <;> simp_all

/-- A word written to `CMD` (42_layer_pipeline.md R150, 60_exceptions.md R183, R184): an illegal one raises an error
event, a legal one is its command. -/
theorem writeCmd_cases (w : Word) (s : State) :
    (∃ i, decode w = .ok i ∧ writeCmd w s = exec i s) ∨
    ((∃ e, decode w = .error e) ∧ s.busy = true ∧
      writeCmd w s = .next ((raiseError .cmdWhileBusy w s).respond .err)) ∨
    ((∃ e, decode w = .error e) ∧ s.busy = false ∧
      writeCmd w s = .next ((raiseError .illegalCmd w s).respond .ok)) := by
  unfold writeCmd
  cases hd : decode w with
  | ok i => exact .inl ⟨i, rfl, rfl⟩
  | error e => cases s.busy <;> simp

theorem regAt_offset (r : Reg) : regAt r.offset = some r := by
  cases r <;> first | rfl | (rename_i ch; cases ch <;> rfl)

theorem Reg.offset_lt (r : Reg) : r.offset < 0x1000 := by
  cases r <;> first | decide | (rename_i ch; cases ch <;> decide)

theorem Reg.offset_aligned (r : Reg) : r.offset % 4 = 0 := by
  cases r <;> first | decide | (rename_i ch; cases ch <;> decide)

/-- An aligned 32-bit access at a register's offset addresses that register (10_state.md R12, 20_memory.md R55). -/
theorem busTarget_reg (p : Params) (r : Reg) : busTarget p (BitVec.ofNat 27 r.offset) 4 = some (.reg r) := by
  have h1 := Reg.offset_lt r
  have h2 := Reg.offset_aligned r
  have h3 : (BitVec.ofNat 27 r.offset).toNat = r.offset := by
    rw [BitVec.toNat_ofNat]; omega
  simp only [busTarget, h3]
  simp [h1, h2, regAt_offset]

/-- `regAt` finds a register exactly at its offset (10_state.md R12). -/
theorem regAt_some {a : Nat} {r : Reg} (h : regAt a = some r) : r.offset = a := by
  simpa using List.find?_some h

theorem regAt_none {a : Nat} : regAt a = none ↔ ∀ r : Reg, r.offset ≠ a := by
  constructor
  · intro h r hr
    rw [← hr, regAt_offset] at h; cases h
  · intro h
    cases hr : regAt a with
    | none => rfl
    | some r => exact absurd (regAt_some hr) (h r)

/-- What a transaction addresses when it addresses a register. -/
theorem busTarget_eq_reg {p : Params} {addr : Offset} {n : Nat} {r : Reg}
    (h : busTarget p addr n = some (.reg r)) : n = 4 ∧ addr.toNat = r.offset := by
  unfold busTarget at h
  dsimp only at h
  split at h
  · cases h
  split at h
  · cases h
  split at h
  · split at h
    · cases hr : regAt addr.toNat with
      | none => rw [hr] at h; cases h
      | some r' =>
        rw [hr] at h
        simp only [Option.map_some, Option.some.injEq, Target.reg.injEq] at h
        subst h
        exact ⟨‹_›, (regAt_some hr).symm⟩
    · cases h
  · split at h
    · cases h
    · split at h <;> cases h

theorem apertureSlot_some {q : Nat} {k : MemKind} {ch : Lane} (h : apertureSlot q = some (k, ch)) :
    q * 0x1000000 = apertureBase k ch := by
  unfold apertureSlot at h
  split at h <;> cases h <;> rfl

theorem apertureSlot_base (k : MemKind) (ch : Lane) {i : Nat} (hi : i < 0x1000000) :
    apertureSlot ((apertureBase k ch + i) / 0x1000000) = some (k, ch) := by
  have : (apertureBase k ch + i) / 0x1000000 = apertureBase k ch / 0x1000000 := by
    cases k <;> cases ch <;> simp only [apertureBase, Lane.toNat] <;> omega
  rw [this]
  cases k <;> cases ch <;> rfl

/-- What a transaction addresses when it addresses cells (20_memory.md R54, R56). -/
theorem busTarget_eq_cells {p : Params} {addr : Offset} {n : Nat} {k : MemKind} {ch : Lane} {i : Nat}
    (h : busTarget p addr n = some (.cells k ch i)) :
    addr.toNat = apertureBase k ch + i ∧ i < 0x1000000 ∧ (n = 1 ∨ n = 2 ∨ n = 4) ∧ addr.toNat % n = 0 ∧
    i + n - 1 < p.lmax := by
  unfold busTarget at h
  dsimp only at h
  split at h
  · cases h
  rename_i hn
  split at h
  · cases h
  rename_i ha
  split at h
  · split at h
    · cases hr : regAt addr.toNat <;> rw [hr] at h <;> cases h
    · cases h
  · split at h
    · cases h
    · rename_i k' ch' hs
      split at h
      · rename_i hl
        cases h
        have := apertureSlot_some hs
        exact ⟨by omega, by omega, not_not.1 hn, not_not.1 ha, hl⟩
      · cases h

/-- A transaction of a legal size at an aligned cell of an aperture, within `LMAX`, addresses those cells (20_memory.md
R54 to R57). -/
theorem busTarget_cells (p : Params) (k : MemKind) (ch : Lane) {i n : Nat} (hn : n = 1 ∨ n = 2 ∨ n = 4)
    (ha : i % n = 0) (hi : i < 0x1000000) (hl : i + n ≤ p.lmax) :
    busTarget p (BitVec.ofNat 27 (apertureBase k ch + i)) n = some (.cells k ch i) := by
  have hb : 0x1000000 ≤ apertureBase k ch ∧ apertureBase k ch ≤ 0x7000000 ∧ apertureBase k ch % 0x1000000 = 0 := by
    cases k <;> cases ch <;> decide
  have h3 : (BitVec.ofNat 27 (apertureBase k ch + i)).toNat = apertureBase k ch + i := by
    rw [BitVec.toNat_ofNat]; omega
  have h4 : (apertureBase k ch + i) % n = 0 := by
    rcases hn with rfl | rfl | rfl <;> omega
  have h5 : (apertureBase k ch + i) % 0x1000000 = i := by omega
  have h6 : ¬ apertureBase k ch + i < 0x1000 := by omega
  have h7 : i + n - 1 < p.lmax := by omega
  simp only [busTarget, h3, h4, apertureSlot_base k ch hi, h5, h6, h7, hn]
  simp

end Sys2Proof.Machine
end

