-- ==== Sys2Proof/Laws/Completion.lean ====
section
/-! SUPPORT. What an accepted command leaves in a lane, which transform a lane runs, and what an abandoned command
leaves in a memory. -/

namespace Sys2Proof.Machine

/-! ### Pixel arithmetic -/

theorem pixel_toNat (hi lo : Nibble) : (pixel hi lo).toNat = 16 * hi.toNat + lo.toNat := by revert hi lo; decide
theorem highNibble_toNat (p : Byte) : (highNibble p).toNat = p.toNat / 16 := by revert p; decide
theorem lowNibble_toNat (p : Byte) : (lowNibble p).toNat = p.toNat % 16 := by revert p; decide

/-! ### Which transform a lane runs -/

/-- The opcode in the word of a lane command (30_encoding.md R82). -/
theorem opcodeOf_laneWord {b : Nat} {m : LaneMask} {i : Instr} (h : encode i = laneWord b m) :
    opcodeOf (opField (laneWord b m)) = some i.opcode := by
  rw [← h, opField_encode, opcodeOf_opcodeByte]

theorem laneTransform_permFwd {s : State} (ch : Lane) (h : opcodeOf (opField s.cmdr) = some .permFwd) :
    laneTransform s ch = lanePermFwd s ch := by simp only [laneTransform, h]
theorem laneTransform_permRev {s : State} (ch : Lane) (h : opcodeOf (opField s.cmdr) = some .permRev) :
    laneTransform s ch = lanePermRev s ch := by simp only [laneTransform, h]
theorem laneTransform_lbcEmb {s : State} (ch : Lane) (h : opcodeOf (opField s.cmdr) = some .lbcEmb) :
    laneTransform s ch = laneLbcEmb s ch := by simp only [laneTransform, h]
theorem laneTransform_lbcExt {s : State} (ch : Lane) (h : opcodeOf (opField s.cmdr) = some .lbcExt) :
    laneTransform s ch = laneLbcExt s ch := by simp only [laneTransform, h]
theorem laneTransform_wmEmb {s : State} (ch : Lane) (h : opcodeOf (opField s.cmdr) = some .wmEmb) :
    laneTransform s ch = laneWmEmb s ch := by simp only [laneTransform, h]
theorem laneTransform_wmExt {s : State} (ch : Lane) (h : opcodeOf (opField s.cmdr) = some .wmExt) :
    laneTransform s ch = laneWmExt s ch := by simp only [laneTransform, h]

/-! ### The accepted state -/

/-- A lane after acceptance: only its `LBUSY` bit may have changed (42_layer_pipeline.md R153). -/
theorem acceptedState_lane (w : Word) (m : LaneMask) (s : State) (ch : Lane) :
    (acceptedState w m s).lane ch = { s.lane ch with lbusy := selects m ch } := by cases ch <;> rfl

theorem acceptedState_running {w : Word} {m : LaneMask} {s : State} {ch : Lane} (h : selects m ch = true) :
    ((acceptedState w m s).lane ch).lbusy = true := by rw [acceptedState_lane]; exact h

/-- A non-empty mask selects some lane (30_encoding.md R94). -/
theorem exists_selected {m : LaneMask} (h : m ≠ 0#3) : ∃ ch, selects m ch = true := by
  have key : ∀ m : LaneMask, m ≠ 0#3 → selects m .l0 = true ∨ selects m .l1 = true ∨ selects m .l2 = true := by decide
  rcases key m h with h | h | h <;> exact ⟨_, h⟩

/-- In an idle block no lane runs (10_state.md R16). -/
theorem lane_idle {s : State} (h : s.busy = false) (ch : Lane) : (s.lane ch).lbusy = false := by
  cases hc : (s.lane ch).lbusy
  · rfl
  · rw [busy_of_lane hc] at h; cases h

/-! ### What a permutation leaves in a cell -/

theorem landed_last {hit : Nat → Bool} {src : Memory} {n i : Nat} (hi : i < n) (hp : hit i = true)
    (hl : ∀ k, i < k → k < n → hit k = false) : landed hit src n = src.read i := by
  unfold landed; rw [lastBelow_eq hi hp hl]

theorem landed_none {hit : Nat → Bool} {src : Memory} {n : Nat} (hl : ∀ k < n, hit k = false) :
    landed hit src n = 0#8 := by
  unfold landed
  cases h : lastBelow hit n with
  | none => rfl
  | some i => have h' := lastBelow_some h; rw [hl i h'.1] at h'; simp at h'

/-! ### What an abandoned command leaves -/

/-- A cell of a memory whose command was abandoned (70_reset_and_hazards.md R211, log entry 5). -/
theorem scramble_read (d b n : Nat) (m : Memory) (i : Nat) :
    (scramble d b n m).read i = if i < n then Config.abandonedByte d (b + i) else m.read i := by
  induction n with
  | zero => simp [scramble]
  | succ n ih =>
    have e : scramble d b (n + 1) m = (scramble d b n m).write n (Config.abandonedByte d (b + n)) := by
      simp [scramble, List.range_succ]
    rw [e, Memory.read_write, ih]
    by_cases h : i = n
    · subst h; simp
    · rw [if_neg h]
      by_cases h' : i < n
      · rw [if_pos h', if_pos (by omega)]
      · rw [if_neg h', if_neg (by omega)]

theorem scramble_wf (d b n : Nat) {m : Memory} (h : m.wf = true) : (scramble d b n m).wf = true := by
  unfold scramble
  generalize List.range n = l
  induction l generalizing m with
  | nil => exact h
  | cons a l ih => exact ih (Memory.wf_write h _ _)

theorem scramble_below (d b n : Nat) {m : Memory} {bound : Nat} (hn : n ≤ bound) (h : m.below bound = true) :
    (scramble d b n m).below bound = true := by
  unfold scramble
  have hb : ∀ i ∈ List.range n, i < bound := by intro i hi; have h' := List.mem_range.1 hi; omega
  generalize List.range n = l at hb
  induction l generalizing m with
  | nil => exact h
  | cons a l ih => exact ih (Memory.below_write _ (hb a (by simp)) h) (fun i hi => hb i (by simp [hi]))

/-- A lane after `RESET`, cell by cell of its layer (70_reset_and_hazards.md R211, R212). -/
theorem resetLane_layer (s : State) (ch : Lane) (i : Nat) :
    (resetLane s ch).layer.read i =
      if s.owned ch = true ∧ i < s.pixels then Config.abandonedByte s.draws (apertureBase .layer ch + i)
      else (s.lane ch).layer.read i := by
  simp only [resetLane]
  cases s.owned ch <;> simp [scramble_read]

/-- A lane after `RESET`, cell by cell of its side key (70_reset_and_hazards.md R211, R212). -/
theorem resetLane_sk (s : State) (ch : Lane) (i : Nat) :
    (resetLane s ch).sk.read i =
      if s.owned ch = true ∧ s.embedRunning = true ∧ i < s.pixels then
        Config.abandonedByte s.draws (apertureBase .sk ch + i)
      else (s.lane ch).sk.read i := by
  simp only [resetLane]
  cases s.owned ch <;> cases s.embedRunning <;> simp [scramble_read]

end Sys2Proof.Machine
end

