-- ==== Sys2Proof/Laws/PerInstr.lean ====
section
/-! SUPPORT. What the encoding of each command is, field by field (30_encoding.md R80 to R82, R91). -/

/-- The word of a command: its opcode byte, its mask, every other bit zero; as a number `OP + 256 * mask`. -/
def Sys2Proof.Laws.EncodedFields.Statement (i : Sys2Proof.Instr) : Prop :=
  Sys2Proof.opField (Sys2Proof.encode i) = Sys2Proof.opcodeByte i.opcode ∧
  Sys2Proof.laneField (Sys2Proof.encode i) = i.lanes ∧
  (Sys2Proof.encode i).toNat = (Sys2Proof.opcodeByte i.opcode).toNat + 256 * i.lanes.toNat

theorem Sys2Proof.Laws.EncodedFields.keyInv : Sys2Proof.Laws.EncodedFields.Statement .keyInv := by
  refine ⟨?_, ?_, ?_⟩ <;> decide

theorem Sys2Proof.Laws.EncodedFields.permFwd (lanes : Sys2Proof.LaneMask) :
    Sys2Proof.Laws.EncodedFields.Statement (.permFwd lanes) := by
  refine ⟨?_, ?_, ?_⟩ <;> revert lanes <;> decide

theorem Sys2Proof.Laws.EncodedFields.permRev (lanes : Sys2Proof.LaneMask) :
    Sys2Proof.Laws.EncodedFields.Statement (.permRev lanes) := by
  refine ⟨?_, ?_, ?_⟩ <;> revert lanes <;> decide

theorem Sys2Proof.Laws.EncodedFields.lbcEmb (lanes : Sys2Proof.LaneMask) :
    Sys2Proof.Laws.EncodedFields.Statement (.lbcEmb lanes) := by
  refine ⟨?_, ?_, ?_⟩ <;> revert lanes <;> decide

theorem Sys2Proof.Laws.EncodedFields.lbcExt (lanes : Sys2Proof.LaneMask) :
    Sys2Proof.Laws.EncodedFields.Statement (.lbcExt lanes) := by
  refine ⟨?_, ?_, ?_⟩ <;> revert lanes <;> decide

theorem Sys2Proof.Laws.EncodedFields.wmEmb (lanes : Sys2Proof.LaneMask) :
    Sys2Proof.Laws.EncodedFields.Statement (.wmEmb lanes) := by
  refine ⟨?_, ?_, ?_⟩ <;> revert lanes <;> decide

theorem Sys2Proof.Laws.EncodedFields.wmExt (lanes : Sys2Proof.LaneMask) :
    Sys2Proof.Laws.EncodedFields.Statement (.wmExt lanes) := by
  refine ⟨?_, ?_, ?_⟩ <;> revert lanes <;> decide
end

