-- ==== Sys2Proof/Tests/Slice0.lean ====
section
/-! SUPPORT. Tests against 95_test_vectors.md, and a witness for the hypotheses of each obligation. -/

namespace Sys2Proof.Machine.Tests

open Sys2Proof Sys2Proof.Machine

/-! ### Well-formed commands (30_encoding.md R81, R86) -/

theorem test_wellFormed_permFwd : (Instr.permFwd 0#3).wellFormed = false ∧ (Instr.permFwd 1#3).wellFormed = true := by
  decide
theorem test_wellFormed_permRev : (Instr.permRev 0#3).wellFormed = false ∧ (Instr.permRev 2#3).wellFormed = true := by
  decide
theorem test_wellFormed_lbcEmb : (Instr.lbcEmb 0#3).wellFormed = false ∧ (Instr.lbcEmb 4#3).wellFormed = true := by
  decide
theorem test_wellFormed_lbcExt : (Instr.lbcExt 0#3).wellFormed = false ∧ (Instr.lbcExt 7#3).wellFormed = true := by
  decide
theorem test_wellFormed_wmEmb : (Instr.wmEmb 0#3).wellFormed = false ∧ (Instr.wmEmb 3#3).wellFormed = true := by
  decide
theorem test_wellFormed_wmExt : (Instr.wmExt 0#3).wellFormed = false ∧ (Instr.wmExt 5#3).wellFormed = true := by
  decide
theorem test_wellFormed_keyInv : Instr.keyInv.wellFormed = true := by decide

/-! ### Decoding: one word per command written out from R80 to R82 as `MBZ LANES OP`, then the rejected words V8 to V15 -/

theorem test_decode_keyInv : decode 0b0000000000000000_00000000_00000001#32 = .ok .keyInv := by decide
theorem test_decode_permFwd : decode 0b0000000000000000_00000001_00010000#32 = .ok (.permFwd 0b001#3) := by decide
theorem test_decode_permRev : decode 0b0000000000000000_00000111_00010001#32 = .ok (.permRev 0b111#3) := by decide
theorem test_decode_lbcEmb : decode 0b0000000000000000_00000010_00100000#32 = .ok (.lbcEmb 0b010#3) := by decide
theorem test_decode_lbcExt : decode 0b0000000000000000_00000101_00100001#32 = .ok (.lbcExt 0b101#3) := by decide
theorem test_decode_wmEmb : decode 0b0000000000000000_00000111_00110000#32 = .ok (.wmEmb 0b111#3) := by decide
theorem test_decode_wmExt : decode 0b0000000000000000_00000100_00110001#32 = .ok (.wmExt 0b100#3) := by decide

theorem test_decode_rejects_zero : decode 0x00000000#32 = .error .unknownOpcode := by decide
theorem test_decode_rejects_empty_mask : decode 0x00000010#32 = .error .emptyLaneMask := by decide
theorem test_decode_rejects_keyInv_lane : decode 0x00000101#32 = .error .keyInvWithLanes := by decide
theorem test_decode_rejects_lane3 : decode 0x00000810#32 = .error .absentLane := by decide
theorem test_decode_rejects_bit16 : decode 0x00010110#32 = .error .reservedBits := by decide
theorem test_decode_rejects_opcode12 : decode 0x00000112#32 = .error .unknownOpcode := by decide
theorem test_decode_rejects_opcode32 : decode 0x00000732#32 = .error .unknownOpcode := by decide
theorem test_decode_rejects_ones : decode 0xFFFFFFFF#32 = .error .reservedBits := by decide

/-- The table's numbering: bit 0 is the least significant bit; bits above 32 make no command word. -/
theorem test_decodeTableWord : decodeTableWord 32 0x731 = some (.wmExt 7#3) ∧ decodeTableWord 40 (2 ^ 33) = none := by
  decide

/-! ### Small states -/

/-- The next state of an outcome. -/
def after : Host.Outcome State Fault Refusal → State
  | .next t => t
  | .fault _ => State.reset
  | .refused _ => State.reset

/-- The first `n` cells of a memory. -/
def cells (s : State) (k : MemKind) (ch : Lane) (n : Nat) : List Byte := (List.range n).map (s.cell k ch)

/-- The first bytes of a memory, listed in the canonical form. -/
def mem (bytes : List Byte) : Memory := Memory.writeBytes [] 0 bytes

/-- A state with the given geometry and key, `LMAX = 16`, and `bytes` loaded on lane 0. -/
def image (w h : Half) (key : Key) (bytes : List Byte) : State :=
  { State.reset with
    params := { lmax := 16, rev := .doc }
    width := w
    height := h
    key := key
    lane0 := { LaneState.reset with len := BitVec.ofNat 32 bytes.length, layer := mem bytes } }

/-- The shear key `(1,1,1,2,0,0)`. -/
def shear : Key := { a := 1#16, b := 1#16, c := 1#16, d := 2#16, tx := 0#16, ty := 0#16 }

/-- V40 before the command: `W = H = 2`, layer `AD 30 47 F8` on lane 0; lane 1 declared, its cells never written. -/
def loaded : State :=
  { image 2#16 2#16 shear [0xAD#8, 0x30#8, 0x47#8, 0xF8#8] with lane1 := { LaneState.reset with len := 4#32 } }

/-- V40 after the command. -/
def embedded : State :=
  { image 2#16 2#16 shear [0xA2#8, 0x40#8, 0xF4#8, 0x30#8] with
    lane0 :=
      { LaneState.reset with
        len := 4#32
        sklen := 4#32
        layer := mem [0xA2#8, 0x40#8, 0xF4#8, 0x30#8]
        sk := mem [3#8, 3#8, 1#8, 0#8] } }

/-- `loaded` while the command `op` runs on the lanes of `m`. -/
def busyWith (op : Nat) (m : LaneMask) : State := acceptedState (laneWord op m) m loaded

/-- `loaded` with the key `(1,1,1,1,0,0)`, whose determinant is 0. -/
def singular : State := { loaded with key := { shear with d := 1#16 } }

/-- `loaded` with `WIDTH = 1`, `HEIGHT = 4`. -/
def narrow : State := { loaded with width := 1#16, height := 4#16 }

/-! ### One command each -/

/-- V50: `W = 7`, key `(3,1,2,4)`. -/
theorem test_keyInv :
    (after (exec .keyInv { State.reset with width := 7#16, key := { shear with a := 3#16, c := 2#16, d := 4#16 } })).inv =
      { detn := 3#16, detinv := 5#16, inv0 := 6#16, inv1 := 2#16, inv2 := 4#16, inv3 := 1#16 } := by decide

/-- V63: `WIDTH = 0`. -/
theorem test_keyInv_width0 :
    (after (exec .keyInv State.reset)).einfo = 0x80000000#32 ∧ (after (exec .keyInv State.reset)).cause = .dimMismatch := by
  decide

/-- V34: a drop and a misplaced pixel, key `(1,0,0,1,-1,0)`, on a 4 x 4 image. -/
theorem test_permFwd_negative :
    let key : Key := { a := 1#16, b := 0#16, c := 0#16, d := 1#16, tx := 0xFFFF#16, ty := 0#16 }
    let s := laneComplete .l0 (after (exec (.permFwd 1#3) (image 4#16 4#16 key
      [0x10#8, 0x11#8, 0x12#8, 0x13#8, 0x14#8, 0x15#8, 0x16#8, 0x17#8,
       0x18#8, 0x19#8, 0x1A#8, 0x1B#8, 0x1C#8, 0x1D#8, 0x1E#8, 0x1F#8])))
    cells s .layer .l0 16 =
      [0x11#8, 0x12#8, 0x13#8, 0x14#8, 0x15#8, 0x16#8, 0x17#8, 0x18#8,
       0x19#8, 0x1A#8, 0x1B#8, 0x1C#8, 0x1D#8, 0x1E#8, 0x1F#8, 0x00#8] ∧
    s.lane0.dropped = 1#32 := by decide

/-- V39 (b): every source maps to one cell and the last one stays. -/
theorem test_permFwd_collision :
    cells (laneComplete .l0 (after (exec (.permFwd 1#3) (image 2#16 2#16
      { a := 0#16, b := 0#16, c := 0#16, d := 0#16, tx := 1#16, ty := 1#16 } [0xA1#8, 0xB2#8, 0xC3#8, 0xD4#8]))))
      .layer .l0 4 = [0#8, 0#8, 0#8, 0xD4#8] := by decide

/-- V37: a non-square image that does not come back. -/
theorem test_permRev_nonsquare :
    let s := laneComplete .l0 (after (exec (.permRev 1#3) (image 3#16 2#16
      { a := 1#16, b := 0#16, c := 1#16, d := 1#16, tx := 0#16, ty := 0#16 }
      [0x10#8, 0x14#8, 0x12#8, 0x13#8, 0x11#8, 0x15#8])))
    cells s .layer .l0 6 = [0x10#8, 0x14#8, 0x12#8, 0x13#8, 0x11#8, 0x15#8] ∧ s.inv.inv2 = 2#16 ∧
    s.flags.done = true := by decide

/-- 41_affine_permutation.md R125, R126: `W = 4`, determinant 2: rejected with `DETN` as information. -/
theorem test_permRev_singular :
    (after (exec (.permRev 1#3) { loaded with width := 4#16, height := 1#16, key := { shear with a := 2#16, d := 1#16, c := 0#16 } })).einfo =
      2#32 := by decide

/-- V20, the nibbles 13, 7, 8 and 12. -/
theorem test_lbcEmb :
    let s := laneComplete .l0 (after (exec (.lbcEmb 1#3) (image 2#16 2#16 shear [0xDD#8, 0x77#8, 0x88#8, 0xCC#8])))
    cells s .layer .l0 4 = [0xD2#8, 0x70#8, 0x84#8, 0xC5#8] ∧ cells s .sk .l0 4 = [3#8, 3#8, 1#8, 2#8] ∧
    s.lane0.sklen = 4#32 := by decide

/-- V72: the lowest offending lane is reported. -/
theorem test_lbcEmb_length : (after (exec (.lbcEmb 7#3) loaded)).einfo = 2#32 := by decide

/-- V22, cells 8, 9, 11 and 15, `DOC`: the layer and side key that V20 leaves there. -/
theorem test_lbcExt :
    let s0 := image 2#16 2#16 shear [0x84#8, 0x93#8, 0xB1#8, 0xF0#8]
    let s := laneComplete .l0 (after (exec (.lbcExt 1#3)
      { s0 with lane0 := { s0.lane0 with sklen := 4#32, sk := mem [1#8, 2#8, 3#8, 4#8] } }))
    cells s .layer .l0 4 = [0x80#8, 0x9C#8, 0xBB#8, 0xFE#8] ∧ s.lane0.degraded = 1#32 ∧ statusWord s = 0x006#32 := by
  decide

/-- V25: from `SKLEN` on the entries are absent. -/
theorem test_lbcExt_short :
    let s0 := image 2#16 2#16 shear [0x00#8, 0x11#8, 0x22#8, 0x30#8]
    let s := laneComplete .l0 (after (exec (.lbcExt 1#3)
      { s0 with lane0 := { s0.lane0 with sklen := 2#32, sk := mem [0#8, 1#8, 1#8, 2#8] } }))
    cells s .layer .l0 4 = [0x00#8, 0x12#8, 0x20#8, 0x30#8] ∧ s.lane0.degraded = 2#32 := by decide

/-- V40. -/
theorem test_wmEmb :
    let s := laneComplete .l0 (after (exec (.wmEmb 1#3) loaded))
    cells s .layer .l0 4 = [0xA2#8, 0x40#8, 0xF4#8, 0x30#8] ∧ cells s .sk .l0 4 = [3#8, 3#8, 1#8, 0#8] ∧
    statusWord s = 0x002#32 ∧ s.cmdr = 0x130#32 := by decide

/-- V41, `DOC`. -/
theorem test_wmExt :
    let s := laneComplete .l0 (after (exec (.wmExt 1#3) embedded))
    cells s .layer .l0 4 = [0xAD#8, 0x30#8, 0x4A#8, 0xF0#8] ∧ s.lane0.degraded = 1#32 ∧ statusWord s = 0x006#32 := by
  decide

/-- V42, `LAWFUL`. -/
theorem test_wmExt_lawful :
    let s := laneComplete .l0 (after (exec (.wmExt 1#3) { embedded with params := { lmax := 16, rev := .lawful } }))
    cells s .layer .l0 4 = [0xAD#8, 0x30#8, 0x47#8, 0xF8#8] ∧ s.lane0.degraded = 0#32 := by decide

/-! ### The port -/

/-- V80, V81: little-endian reads. -/
theorem test_read_littleEndian :
    let s := image 4#16 1#16 shear [0x10#8, 0x1E#8, 0x18#8, 0x16#8]
    (hostRead 0x1000000#27 4 s).response = some (.value 0x16181E10#32) ∧
    (hostRead 0x1000002#27 2 s).response = some (.value 0x1618#32) := by decide

/-- V82: a little-endian write. -/
theorem test_write_littleEndian :
    cells (after (hostWrite 0x7000004#27 4 0x00010303#32 loaded)) .sk .l2 8 =
      [0#8, 0#8, 0#8, 0#8, 3#8, 3#8, 1#8, 0#8] := by decide

/-- V83, V84, V85, V87: bus errors, and the accesses beside them that are none. -/
theorem test_busErrors :
    busTarget loaded.params 0x1000001#27 2 = none ∧ busTarget loaded.params 0x0000018#27 4 = none ∧
    busTarget loaded.params 0x0001000#27 4 = none ∧ busTarget loaded.params 0x4000000#27 1 = none ∧
    busTarget loaded.params 0x0000020#27 2 = none ∧ busTarget loaded.params 0x1000010#27 1 = none ∧
    busTarget loaded.params 0x100000F#27 1 = some (.cells .layer .l0 15) ∧
    busTarget loaded.params 0x100000C#27 4 = some (.cells .layer .l0 12) := by decide

/-- V88, V89, V90, V91. -/
theorem test_registers :
    readReg (after (hostWrite 0x028#27 4 0x12348001#32 loaded)) .keyA = 0xFFFF8001#32 ∧
    readReg (after (hostWrite 0x020#27 4 0x00012345#32 loaded)) .width = 0x00002345#32 ∧
    readReg (after (hostWrite 0x008#27 4 0x00000042#32
      { loaded with
        flags := { done := true, degr := false, errKey := true, errDim := true, errCmd := true, errBusy := false } }))
      .status = 0x030#32 ∧
    readReg (after (hostWrite 0x004#27 4 0xFFFFFFFF#32 loaded)) .ctrl = 0x00000007#32 := by decide

/-- V78: any word is refused while busy. -/
theorem test_cmdWhileBusy :
    let s := after (hostWrite cmdOffset 4 0x00000000#32 (busyWith 0x20 1#3))
    s.response = some .err ∧ s.flags.errBusy = true ∧ s.flags.errCmd = false ∧ s.einfo = 0#32 := by decide

/-- 42_layer_pipeline.md R158: a step runs the word that `withFetchWord` places, from reset. -/
theorem test_step_runs_word : (after (step (State.reset.withFetchWord 32 1))).cause = .dimMismatch := by decide

/-! ### Witnesses: a state and operands that meet the hypotheses of each obligation, one per clause -/

theorem witness_IllegalWordRaisesIllegalCmd : (¬ ∃ i, decode 0x00000010#32 = .ok i) ∧ loaded.busy = false := by
  refine ⟨?_, by decide⟩
  rintro ⟨i, h⟩
  rw [test_decode_rejects_empty_mask] at h
  cases h

theorem witness_StepRunsDecodedCommand :
    (loaded.withFetchWord 32 0x110).agenda = [.write cmdOffset 4 0x110#32] ∧
    decode 0x110#32 = .ok (.permFwd 1#3) ∧ decodeTableWord 32 0x110 = some (.permFwd 1#3) := by decide

theorem witness_IdleBlockDoesNothing : loaded.agenda = [] ∧ loaded.busy = false := by decide

theorem witness_RunningCommandCompletes : (busyWith 0x30 3#3).agenda = [] ∧ (busyWith 0x30 3#3).busy = true := by decide

/-- `WM.EXT {0}` running on V40's result, the key-stage results written. -/
def extracting : State :=
  acceptedState (laneWord 0x31 1#3) 1#3 { embedded with inv := keyStageResult shear.values 2 }

theorem invariant_extracting : Invariant extracting := by
  constructor
  · decide
  · intro ch; cases ch <;> constructor <;> decide
  · exact .inr ⟨.wmExt 1#3, by decide⟩
  · intro ch; cases ch <;> decide
  · decide
  · intro ch; cases ch <;> decide
  · decide
  · decide
  · decide
  · decide

theorem witness_StepKeepsBlockInvariant : Invariant extracting ∧ ∃ t, step extracting = .next t :=
  ⟨invariant_extracting, _, rfl⟩

/-- An embed on lane 0 is abandoned: lane 0 is owned, lane 1 is not, cell 3 is below `N` and cell 4 is not. -/
theorem witness_ResetEventEffect :
    let s := { busyWith 0x20 1#3 with agenda := [.reset] }
    s.agenda = [.reset] ∧ s.owned .l0 = true ∧ s.owned .l1 = false ∧ 3 < s.pixels ∧ s.pixels ≤ 4 ∧
    s.cmdr.extractLsb 7 0 = 0x20#8 ∧ (busyWith 0x30 1#3).cmdr.extractLsb 7 0 = 0x30#8 ∧
    (busyWith 0x31 1#3).cmdr.extractLsb 7 0 ≠ 0x20#8 ∧ (busyWith 0x31 1#3).cmdr.extractLsb 7 0 ≠ 0x30#8 := by decide

theorem no_register_at_018 : ∀ r : Reg, r.offset ≠ (0x018#27).toNat := by
  intro r
  cases r <;> first | decide | (rename_i ch; cases ch <;> decide)

/-- An offset between two registers, and each size at the last cells of `LMAX = 16`. -/
theorem witness_RegisterMapIsComplete :
    (0x018#27).toNat < 0x1000 ∧
    (0x018#27).toNat ∉ [0x000, 0x004, 0x008, 0x00C, 0x010, 0x014, 0x020, 0x024, 0x028, 0x02C, 0x030, 0x034, 0x038, 0x03C,
      0x040, 0x044, 0x048, 0x04C, 0x050, 0x054, 0x100, 0x104, 0x108, 0x10C, 0x120, 0x124, 0x128, 0x12C, 0x140, 0x144,
      0x148, 0x14C] ∧
    (15 % 1 = 0 ∧ 15 + 1 ≤ loaded.params.lmax ∧ 14 % 2 = 0 ∧ 14 + 2 ≤ loaded.params.lmax ∧ 12 % 4 = 0 ∧
      12 + 4 ≤ loaded.params.lmax ∧ 15 < 0x1000000) := by decide

/-- `loaded` with `DONE` set and its interrupt enabled. -/
def pending : State :=
  { loaded with ctrl := { ieDone := true, ieDegr := false, ieErr := false }, flags := { loaded.flags with done := true } }

theorem witness_InterruptFallsOnlyBy_status :
    let s := { pending with agenda := [.write 0x008#27 4 0x2#32] }
    step s = .next (after (step s)) ∧ irq s = true ∧ irq (after (step s)) = false := ⟨rfl, by decide, by decide⟩
theorem witness_InterruptFallsOnlyBy_ctrl :
    let s := { pending with agenda := [.write 0x004#27 4 0x0#32] }
    step s = .next (after (step s)) ∧ irq s = true ∧ irq (after (step s)) = false := ⟨rfl, by decide, by decide⟩
theorem witness_InterruptFallsOnlyBy_reset :
    let s := { pending with agenda := [.reset] }
    step s = .next (after (step s)) ∧ irq s = true ∧ irq (after (step s)) = false := ⟨rfl, by decide, by decide⟩
theorem witness_InterruptFallsOnlyBy_accept :
    let s := { pending with agenda := [.write cmdOffset 4 0x110#32] }
    step s = .next (after (step s)) ∧ irq s = true ∧ irq (after (step s)) = false := ⟨rfl, by decide, by decide⟩

/-- A lockable register while idle, an unlockable one and the `LEN` of an unowned lane while busy. -/
theorem witness_RegisterWriteThenRead :
    (Reg.width ≠ .cmd ∧ ¬ Locked loaded true (BitVec.ofNat 27 Reg.width.offset)) ∧
    (Reg.ctrl ≠ .cmd ∧ ¬ Locked (busyWith 0x30 1#3) true (BitVec.ofNat 27 Reg.ctrl.offset)) ∧
    (Reg.len .l1 ≠ .cmd ∧ ¬ Locked (busyWith 0x30 1#3) true (BitVec.ofNat 27 (Reg.len .l1).offset)) := by
  refine ⟨⟨by decide, fun h => by cases h.1⟩, ⟨by decide, ?_⟩, by decide, ?_⟩
  all_goals
    rintro ⟨_, ⟨_, r, hr, h⟩ | ⟨_, ch, ho, h⟩ | ⟨k, ch, ho, h, _⟩⟩
    · revert h; revert r; decide
    · revert ho h; cases ch <;> decide
    · revert h; cases k <;> cases ch <;> decide

theorem witness_ReadOnlyAndReservedBitsIgnoreWrites :
    readOnly .id = true ∧ readOnly (.dropped .l2) = true ∧ 0xFFFFFFFF#32 &&& 7#32 = 7#32 &&& 7#32 ∧
    0xFFFFFF09#32 &&& 0xF6#32 = 0#32 &&& 0xF6#32 ∧ Reg.keyTy ∈ sharedConfig ∧
    0x12348001#32 &&& 0xFFFF#32 = 0x8001#32 &&& 0xFFFF#32 := by decide

/-- One access per condition of a bus error, at its boundary, with `LMAX = 16`. -/
theorem witness_BusErrorsChangeNothing_errors :
    BusError loaded.params 0x1000001#27 2 ∧ BusError loaded.params 0x1000000#27 3 ∧
    BusError loaded.params 0x0001000#27 4 ∧ BusError loaded.params 0x4FFFFFF#27 1 ∧
    BusError loaded.params 0x0000018#27 4 ∧ BusError loaded.params 0x0000020#27 2 ∧
    BusError loaded.params 0x1000010#27 1 :=
  ⟨.inl (.inr (by decide)), .inl (.inl (by decide)), .inr (.inl (.inl (by decide))),
    .inr (.inl (.inr (.inl (by decide)))), .inr (.inl (.inr (.inr ⟨by decide, no_register_at_018⟩))),
    .inr (.inr (.inl (by decide))), .inr (.inr (.inr ⟨.inl (by decide), by decide⟩))⟩

/-- The last cell of an aperture, a register, and a locked register while busy are no bus errors. -/
theorem witness_BusErrorsChangeNothing_others :
    ¬ BusError loaded.params 0x100000F#27 1 ∧ ¬ BusError loaded.params 0x0000020#27 4 ∧
    (hostRead 0x100000F#27 1 (busyWith 0x30 1#3)).response = some .err ∧
    hostWrite 0x0000020#27 4 0#32 (busyWith 0x30 1#3) = .next (after (hostWrite 0x0000020#27 4 0#32 (busyWith 0x30 1#3))) ∧
    (after (hostWrite 0x0000020#27 4 0#32 (busyWith 0x30 1#3))).response = some .err := by
  refine ⟨?_, ?_, by decide, rfl, by decide⟩
  · rintro ((h | h) | (h | h | ⟨h, _⟩) | ⟨h, _⟩ | ⟨_, h⟩) <;> revert h <;> decide
  · rintro ((h | h) | (h | h | ⟨_, h⟩) | ⟨_, h⟩ | ⟨h, _⟩)
    · revert h; decide
    · revert h; decide
    · revert h; decide
    · revert h; decide
    · exact h .width rfl
    · revert h; decide
    · revert h; unfold inAperture; decide

theorem witness_RegisterReadHasNoSideEffect :
    ({ busyWith 0x30 1#3 with agenda := [.read (BitVec.ofNat 27 Reg.status.offset) 4] } : State).agenda =
      .read (BitVec.ofNat 27 Reg.status.offset) 4 :: [] := rfl

/-- Each size at the last cells of `LMAX = 16`, on an idle lane and on an unowned lane of a busy block. -/
theorem witness_ApertureReadIsLittleEndian :
    (15 % 1 = 0 ∧ 15 + 1 ≤ loaded.params.lmax ∧ 14 % 2 = 0 ∧ 14 + 2 ≤ loaded.params.lmax ∧ 12 % 4 = 0 ∧
      12 + 4 ≤ loaded.params.lmax ∧ 15 < 0x1000000) ∧
    loaded.owned .l0 = false ∧ (busyWith 0x30 1#3).owned .l1 = false := by decide

theorem witness_ApertureWriteStoresBytes :
    12 % 4 = 0 ∧ 12 + 4 ≤ loaded.params.lmax ∧ 12 < 0x1000000 ∧ (busyWith 0x30 1#3).owned .l1 = false := by decide

/-- One access per clause of the lock while `WM.EMB {0}` runs: a shared register, `LEN` and `SKLEN` of the owned lane, the
first and the last cell of its apertures; each is no bus error, and one beside them is. -/
theorem witness_LockedAccessIsRefused_locked :
    let s := busyWith 0x30 1#3
    Locked s true 0x020#27 ∧ Locked s true 0x100#27 ∧ Locked s true 0x104#27 ∧ Locked s false 0x1000000#27 ∧
    Locked s true 0x500000F#27 :=
  ⟨⟨rfl, .inl ⟨rfl, .width, by decide, rfl⟩⟩, ⟨rfl, .inr (.inl ⟨rfl, .l0, by decide, .inl rfl⟩)⟩,
    ⟨rfl, .inr (.inl ⟨rfl, .l0, by decide, .inr rfl⟩)⟩,
    ⟨rfl, .inr (.inr ⟨.layer, .l0, by decide, by decide, by decide⟩)⟩,
    ⟨rfl, .inr (.inr ⟨.sk, .l0, by decide, by decide, by decide⟩)⟩⟩

theorem witness_LockedAccessIsRefused_bus :
    let p := (busyWith 0x30 1#3).params
    ¬ BusError p 0x020#27 4 ∧ ¬ BusError p 0x104#27 4 ∧ ¬ BusError p 0x1000000#27 1 ∧ ¬ BusError p 0x500000F#27 1 ∧
    BusError p 0x1000010#27 1 ∧ (busyWith 0x30 1#3).busy = true := by
  refine ⟨witness_BusErrorsChangeNothing_others.2.1, ?_, ?_, ?_,
    witness_BusErrorsChangeNothing_errors.2.2.2.2.2.2, by decide⟩
  · rintro ((h | h) | (h | h | ⟨_, h⟩) | ⟨_, h⟩ | ⟨h, _⟩)
    · revert h; decide
    · revert h; decide
    · revert h; decide
    · revert h; decide
    · exact h (.sklen .l0) rfl
    · revert h; decide
    · revert h; unfold inAperture; decide
  · rintro ((h | h) | (h | h | ⟨h, _⟩) | ⟨h, _⟩ | ⟨_, h⟩) <;> revert h <;> decide
  · rintro ((h | h) | (h | h | ⟨h, _⟩) | ⟨h, _⟩ | ⟨_, h⟩) <;> revert h <;> decide

theorem witness_CommandWhileBusyIsRefused : (busyWith 0x30 1#3).busy = true := by decide

theorem witness_RunningCommandReadsConstants :
    let s := { busyWith 0x30 1#3 with agenda := [.write 0x020#27 4 9#32] }
    step s = .next (after (step s)) ∧ s.busy = true ∧ s.agenda.head? ≠ some .reset ∧ s.owned .l0 = true ∧
    ((after (step s)).lane .l0).lbusy = true := ⟨rfl, by decide, by decide, by decide, by decide⟩

/-- From a state of the invariant, a read of the running lane's layer, which is refused. -/
theorem witness_RunningCommandReadsConstants_lane :
    let s := { extracting with agenda := [.read 0x1000000#27 4] }
    Invariant s ∧ step s = .next (after (step s)) ∧ s.busy = true ∧ s.agenda.head? ≠ some .reset ∧
    ((after (step s)).lane .l0).lbusy = true := by
  refine ⟨?_, rfl, by decide, by decide, by decide⟩
  exact ⟨invariant_extracting.params_wf, invariant_extracting.lanes, invariant_extracting.cmdr_legal,
    invariant_extracting.busy_selected, invariant_extracting.busy_geometry, invariant_extracting.busy_lengths,
    invariant_extracting.busy_not_done, invariant_extracting.busy_key, invariant_extracting.failed_inverse,
    invariant_extracting.no_cause⟩

theorem witness_LaneStartsOnlyByAcceptance :
    let s := { loaded with agenda := [.write cmdOffset 4 0x110#32] }
    step s = .next (after (step s)) ∧ (s.lane .l0).lbusy = false ∧ ((after (step s)).lane .l0).lbusy = true :=
  ⟨rfl, by decide, by decide⟩

/-- `WIDTH = 0` for `KEY.INV`; an illegal geometry for a lane command; lane 2 the lowest with a wrong length. -/
theorem witness_DimMismatchIsRaised :
    (State.reset.busy = false ∧ State.reset.width.toNat = 0) ∧
    ((Instr.wmExt 1#3).wellFormed = true ∧ Instr.wmExt 1#3 ≠ .keyInv ∧ ¬ GeometryLegal State.reset) ∧
    (loaded.busy = false ∧ GeometryLegal loaded ∧ selects (Instr.lbcEmb 7#3).lanes .l2 = true ∧
      (loaded.lane .l2).len.toNat ≠ loaded.width.toNat * loaded.height.toNat ∧
      ∀ c, c.toNat < Lane.l2.toNat → selects (Instr.lbcEmb 7#3).lanes c = true →
        (loaded.lane c).len.toNat = loaded.width.toNat * loaded.height.toNat) := by
  refine ⟨by decide, ⟨by decide, by decide, by unfold GeometryLegal; decide⟩, by decide,
    by unfold GeometryLegal; decide, by decide, by decide, ?_⟩
  intro c; cases c <;> decide

theorem admissible_loaded : Admissible 3#3 loaded := by
  refine ⟨by decide, by decide, by unfold GeometryLegal; decide, ?_⟩
  intro ch; cases ch <;> decide

theorem admissible_singular : Admissible 1#3 singular := by
  refine ⟨by decide, by decide, by unfold GeometryLegal; decide, ?_⟩
  intro ch; cases ch <;> decide

theorem admissible_narrow : Admissible 1#3 narrow := by
  refine ⟨by decide, by decide, by unfold GeometryLegal; decide, ?_⟩
  intro ch; cases ch <;> decide

/-- A common factor, and `WIDTH = 1`, for the commands with a key stage; and a command that raises the error. -/
theorem witness_KeyInvalidIsRaised :
    (1 ≤ singular.width.toNat ∧ singular.busy = false ∧ Admissible 1#3 singular ∧
      Int.gcd (singular.key.a.toInt * singular.key.d.toInt - singular.key.b.toInt * singular.key.c.toInt)
        singular.width.toNat ≠ 1) ∧
    (narrow.width.toNat = 1 ∧ Admissible 1#3 narrow) ∧
    (step (singular.withFetchWord 32 1) = .next (after (step (singular.withFetchWord 32 1))) ∧
      (singular.withFetchWord 32 1).cause ≠ .keyInvalid ∧
      (after (step (singular.withFetchWord 32 1))).cause = .keyInvalid) :=
  ⟨⟨by decide, by decide, admissible_singular, by decide⟩, ⟨by decide, admissible_narrow⟩, rfl, by decide, by decide⟩

theorem witness_WidthOneIsNeverInvertible : narrow.width.toNat = 1 ∧ narrow.busy = false ∧ Admissible 1#3 narrow :=
  ⟨by decide, by decide, admissible_narrow⟩

theorem witness_RejectedCommandChangesNoData :
    exec (.permFwd 4#3) loaded = .next (after (exec (.permFwd 4#3) loaded)) ∧
    exec (.permFwd 1#3) loaded = .next (after (exec (.permFwd 1#3) loaded)) := ⟨rfl, rfl⟩

theorem witness_ErrorsDoNotBlockCommands :
    exec (.wmEmb 3#3) loaded = .next (after (exec (.wmEmb 3#3) loaded)) := rfl

theorem witness_EmptyLaneMaskIsIllegal : loaded.busy = false ∧ (Instr.lbcExt 0#3).wellFormed = false := by decide

theorem coprime_loaded : KeyCoprime loaded := by unfold KeyCoprime; decide

theorem witness_KeyInvCompletes : loaded.busy = false ∧ KeyCoprime loaded := ⟨by decide, coprime_loaded⟩
theorem witness_KeyStageInvertsMatrix : KeyCoprime loaded := coprime_loaded

theorem witness_RemainderLaws : (0 : Nat) < 4 ∧ (0 : Int) ≤ 7 ∧ 3 < 4 ∧ ((4 : Nat) : Int) ∣ (-1) - ((3 : Nat) : Int) := by decide

theorem witness_ForwardMapRange : 1 ≤ 4 ∧ 1 ≤ 4 ∧ 15 < 4 * 4 ∧
    0 ≤ shear.values.a ∧ 0 ≤ shear.values.b ∧ 0 ≤ shear.values.tx ∧ 0 ≤ shear.values.c ∧ 0 ≤ shear.values.d ∧
    0 ≤ shear.values.ty := by decide

theorem witness_ReverseMapRange : 1 ≤ 8 ∧ 1 ≤ 2 ∧ 15 < 8 * 2 := by decide

theorem witness_CodecTables :
    5 ≤ (5#8).toNat ∧ (4#8).toNat < 5 ∧ classOf 7#4 = classOf 7#4 ∧ substOf 7#4 = substOf 7#4 := by decide

theorem witness_NibbleRoundTrip : (revf .lawful (some 1#8) 0#4).2 = true := by decide

theorem witness_LbcEmbCompletes : Admissible 3#3 loaded ∧ selects 3#3 .l1 = true ∧ 3 < loaded.pixels ∧ loaded.pixels ≤ 4 :=
  ⟨admissible_loaded, by decide, by decide, by decide⟩

theorem witness_LbcExtCompletes : Admissible 3#3 loaded ∧ selects 3#3 .l1 = true ∧ 3 < loaded.pixels ∧ loaded.pixels ≤ 4 :=
  ⟨admissible_loaded, by decide, by decide, by decide⟩

/-- Cell 3 is the target of source 1 alone; with the all-zero key cell 3 is no source's target and cell 0 is the last's. -/
theorem witness_PermFwdCompletes :
    Admissible 3#3 loaded ∧ selects 3#3 .l0 = true ∧
    (forwardIndex shear.values 2 2 1 = 3 ∧ ∀ i', 1 < i' → i' < 4 → forwardIndex shear.values 2 2 i' ≠ 3) ∧
    (∀ i, i < 4 → forwardIndex (Key.values { shear with a := 0#16, b := 0#16, c := 0#16, d := 0#16 }) 2 2 i ≠ 3) := by
  refine ⟨admissible_loaded, by decide, ⟨by decide, ?_⟩, ?_⟩
  · intro i h1 h2; interval_cases i <;> decide
  · intro i h; interval_cases i <;> decide

/-- Cell 2 is the target of index 1 alone. -/
theorem witness_PermRevCompletes :
    Admissible 3#3 loaded ∧ KeyCoprime loaded ∧ selects 3#3 .l0 = true ∧
    (reverseIndex (keyStageResult shear.values 2).matrix 0 0 2 2 1 = 2 ∧
      ∀ j', 1 < j' → j' < 4 → reverseIndex (keyStageResult shear.values 2).matrix 0 0 2 2 j' ≠ 2) := by
  refine ⟨admissible_loaded, coprime_loaded, by decide, by decide, ?_⟩
  intro j h1 h2; interval_cases j <;> decide

/-- On a 2 x 3 image the key `(0,1,1,0,0,0)` is invertible, and no index is mapped back to cell 4. -/
theorem witness_PermRevCompletes_fill :
    let key : Key := { a := 0#16, b := 1#16, c := 1#16, d := 0#16, tx := 0#16, ty := 0#16 }
    let s := image 2#16 3#16 key [1#8, 2#8, 3#8, 4#8, 5#8, 6#8]
    Admissible 1#3 s ∧ KeyCoprime s ∧ 4 < s.pixels ∧
    ∀ j, j < 6 → reverseIndex (keyStageResult key.values 2).matrix 0 0 2 3 j ≠ 4 := by
  refine ⟨⟨by decide, by decide, by unfold GeometryLegal; decide, ?_⟩, by unfold KeyCoprime; decide, by decide, ?_⟩
  · intro ch; cases ch <;> decide
  · intro j h; interval_cases j <;> decide

/-- The two cases of the byte `q` are those of `witness_PermFwdCompletes`. -/
theorem witness_WmEmbCompletes : Admissible 3#3 loaded ∧ selects 3#3 .l0 = true ∧ 3 < loaded.pixels :=
  ⟨admissible_loaded, by decide, by decide⟩

/-- The two cases of a cell are those of `witness_PermRevCompletes` and `witness_PermRevCompletes_fill`. -/
theorem witness_WmExtCompletes : Admissible 3#3 loaded ∧ KeyCoprime loaded ∧ selects 3#3 .l0 = true :=
  ⟨admissible_loaded, coprime_loaded, by decide⟩

/-- Under `LBC.EMB` two states that differ in the side-key entry; under `LBC.EXT` two that differ in another cell. -/
theorem witness_CodecKeepsHighNibbleAndPlace :
    (let s := busyWith 0x20 1#3
     let s' := { s with lane0 := { s.lane0 with sklen := 4#32, sk := mem [1#8, 2#8, 3#8, 4#8] } }
     (s.lane .l0).lbusy = true ∧ s.cmdr.extractLsb 7 0 = 0x20#8 ∧ (s'.lane .l0).lbusy = true ∧ s'.cmdr = s.cmdr ∧
     s'.params = s.params ∧ s'.width = s.width ∧ s'.height = s.height ∧ s'.cell .layer .l0 1 = s.cell .layer .l0 1 ∧
     (s'.lane .l0).entry 1 ≠ (s.lane .l0).entry 1) ∧
    (let s := busyWith 0x21 1#3
     let s' := { s with lane0 := { s.lane0 with layer := s.lane0.layer.write 0 0x55#8 } }
     (s.lane .l0).lbusy = true ∧ s.cmdr.extractLsb 7 0 = 0x21#8 ∧ (s'.lane .l0).lbusy = true ∧ s'.cmdr = s.cmdr ∧
     s'.params = s.params ∧ s'.width = s.width ∧ s'.height = s.height ∧ s'.cell .layer .l0 1 = s.cell .layer .l0 1 ∧
     (s'.lane .l0).entry 1 = (s.lane .l0).entry 1 ∧ s' ≠ s) := by decide

theorem witness_EmbedResultRanges :
    ((busyWith 0x20 1#3).lane .l0).lbusy = true ∧ (busyWith 0x20 1#3).cmdr.extractLsb 7 0 = 0x20#8 ∧
    ((busyWith 0x30 1#3).lane .l0).lbusy = true ∧ (busyWith 0x30 1#3).cmdr.extractLsb 7 0 = 0x30#8 ∧
    3 < (busyWith 0x20 1#3).pixels := by decide

theorem witness_ExtractWithoutSideKey :
    let s := busyWith 0x21 1#3
    (s.lane .l0).lbusy = true ∧ s.cmdr.extractLsb 7 0 = 0x21#8 ∧ (s.lane .l0).sklen = 0#32 ∧ 1 ≤ s.pixels := by decide

theorem witness_PermutationOnlyMovesBytes : 3 < 2 * 2 := by decide

/-- Two lanes running: the first to complete leaves the barrier up, the last one alone lowers it. -/
theorem witness_BarrierReleasesLanesTogether :
    (((busyWith 0x30 3#3).lane .l0).lbusy = true ∧ (busyWith 0x30 3#3).flags.done = false ∧
      ((busyWith 0x30 3#3).lane .l1).lbusy = true) ∧
    (((busyWith 0x30 1#3).lane .l0).lbusy = true ∧ (busyWith 0x30 1#3).flags.done = false) := by decide

theorem witness_LaneStepFrameHolds :
    ((busyWith 0x30 1#3).lane .l0).lbusy = true ∧ ((busyWith 0x30 1#3).lane .l1).lbusy = false := by decide

/-- Two states that differ in another lane, in the error record and in the interrupt enables. -/
theorem witness_LaneStepReadsOnlyItsOwnLane :
    let s := busyWith 0x30 1#3
    let s' := { s with
      lane2 := { s.lane2 with len := 9#32 }
      einfo := 7#32
      ctrl := { ieDone := true, ieDegr := true, ieErr := true } }
    s'.lane .l0 = s.lane .l0 ∧ s'.cmdr = s.cmdr ∧ s'.params.rev = s.params.rev ∧ s'.width = s.width ∧
    s'.height = s.height ∧ s'.key = s.key ∧ s'.inv = s.inv ∧ s' ≠ s := by decide

theorem witness_LaneOrderIsUnobservable : [Lane.l0, .l1, .l2].Perm [.l2, .l0, .l1] := by decide

theorem witness_UnownedWriteCommutesWithLaneStep :
    let s := busyWith 0x30 1#3
    Lane.l2 ≠ .l0 ∧ s.owned .l2 = false ∧ (s.lane .l0).lbusy = true ∧
    hostWrite (BitVec.ofNat 27 (apertureBase .sk .l2 + 12)) 4 0x01020304#32 s =
      .next (after (hostWrite (BitVec.ofNat 27 (apertureBase .sk .l2 + 12)) 4 0x01020304#32 s)) ∧
    0x144 ∈ [0x004, 0x100 + 0x20 * Lane.l2.toNat, 0x104 + 0x20 * Lane.l2.toNat] ∧
    hostWrite 0x144#27 4 9#32 s = .next (after (hostWrite 0x144#27 4 9#32 s)) ∧
    (after (hostWrite 0x144#27 4 9#32 s)).lane2.sklen = 9#32 :=
  ⟨by decide, by decide, by decide, rfl, by decide, rfl, by decide⟩

theorem witness_WmEmbIsPermFwdThenLbcEmb : Admissible 3#3 loaded := admissible_loaded

theorem witness_WmExtIsLbcExtThenPermRev : Admissible 3#3 loaded ∧ KeyCoprime loaded :=
  ⟨admissible_loaded, coprime_loaded⟩

theorem square_loaded :
    loaded.height = loaded.width ∧ 0 ≤ loaded.key.a.toInt ∧ 0 ≤ loaded.key.b.toInt ∧ 0 ≤ loaded.key.c.toInt ∧
    0 ≤ loaded.key.d.toInt ∧ 0 ≤ loaded.key.tx.toInt ∧ 0 ≤ loaded.key.ty.toInt := by decide

theorem witness_PermutationRoundTrip :
    Admissible 3#3 loaded ∧ KeyCoprime loaded ∧ (loaded.height = loaded.width ∧ 0 ≤ loaded.key.a.toInt ∧
      0 ≤ loaded.key.b.toInt ∧ 0 ≤ loaded.key.c.toInt ∧ 0 ≤ loaded.key.d.toInt ∧ 0 ≤ loaded.key.tx.toInt ∧
      0 ≤ loaded.key.ty.toInt) ∧ selects 3#3 .l0 = true :=
  ⟨admissible_loaded, coprime_loaded, square_loaded, by decide⟩

/-- The `DOC` clause, and the `LAWFUL` clause; the height and the signs of the key are `square_loaded`'s. -/
theorem witness_PipelineRoundTrip :
    (Admissible 3#3 loaded ∧ KeyCoprime loaded ∧ loaded.params.rev = .doc) ∧
    (Admissible 3#3 { loaded with params := { lmax := 4, rev := .lawful } } ∧
      KeyCoprime { loaded with params := { lmax := 4, rev := .lawful } }) := by
  refine ⟨⟨admissible_loaded, coprime_loaded, by decide⟩, ⟨by decide, by decide, by unfold GeometryLegal; decide, ?_⟩,
    by unfold KeyCoprime; decide⟩
  intro ch; cases ch <;> decide

theorem witness_MergeUndoesSplit : [1#8, 2#8, 3#8, 4#8, 5#8, 6#8].length = 3 * 2 := by decide

end Sys2Proof.Machine.Tests
end

section
/-! The laws of the remainder primitives `tmod` and `emod` (00_scope.md R7), and the statement O35 from them. -/

namespace Sys2Proof.Machine

/-! ### The truncated remainder -/

theorem tmod_nonneg {n : Int} (m : Nat) (hn : 0 ≤ n) : 0 ≤ tmod n m :=
  Int.tmod_nonneg _ hn

theorem tmod_neg_left (n : Int) (m : Nat) : tmod (-n) m = -tmod n m :=
  Int.neg_tmod _ _

theorem tmod_nonpos {n : Int} (m : Nat) (hn : n ≤ 0) : tmod n m ≤ 0 := by
  have hneg := tmod_nonneg m (Int.neg_nonneg_of_nonpos hn)
  rw [tmod_neg_left] at hneg
  omega

/-- "It has the sign of `n` (or is 0)". -/
theorem tmod_eq_zero_or_pos_iff (n : Int) (m : Nat) : tmod n m = 0 ∨ (0 < tmod n m ↔ 0 < n) := by
  rcases Int.le_total 0 n with hn | hn
  · have := tmod_nonneg m hn
    have : n = 0 → tmod n m = 0 := fun h0 => by rw [h0]; exact Int.zero_tmod _
    omega
  · have := tmod_nonpos m hn
    omega

theorem tmod_lt (n : Int) {m : Nat} (hm : 0 < m) : tmod n m < m :=
  Int.tmod_lt_of_pos n (Int.natCast_pos.2 hm)

theorem neg_lt_tmod (n : Int) {m : Nat} (hm : 0 < m) : -(m : Int) < tmod n m :=
  Int.lt_tmod_of_pos n (Int.natCast_pos.2 hm)

theorem dvd_sub_tmod (n : Int) (m : Nat) : (m : Int) ∣ n - tmod n m :=
  Int.dvd_self_sub_tmod

/-! ### The Euclidean remainder -/

theorem dvd_sub_emod (n : Int) {m : Nat} (hm : 0 < m) : (m : Int) ∣ n - emod n m := by
  rw [emod_coe n hm]
  exact Int.dvd_self_sub_emod

/-- The uniqueness half of R7's definition of `emod`. -/
theorem emod_unique {n r : Int} {m : Nat} (h0 : 0 ≤ r) (hlt : r < m) (hdvd : (m : Int) ∣ n - r) :
    (emod n m : Int) = r := by
  have hm : 0 < m := by omega
  calc (emod n m : Int) = n % m := emod_coe n hm
    _ = r % m := Int.emod_eq_emod_iff_emod_sub_eq_zero.2 (Int.emod_eq_zero_of_dvd hdvd)
    _ = r := Int.emod_eq_of_lt h0 hlt

/-- The one conditional addition of `normalize` turns the truncated remainder into the Euclidean one. -/
theorem emod_eq_normalize_tmod (n : Int) {m : Nat} (hm : 0 < m) : (emod n m : Int) = normalize (tmod n m) m := by
  have hlt := tmod_lt n hm
  have hgt := neg_lt_tmod n hm
  have hdvd := dvd_sub_tmod n m
  unfold normalize
  split
  next hneg =>
    refine emod_unique (by omega) (by omega) ?_
    rw [← Int.sub_sub]
    exact Int.dvd_sub hdvd (Int.dvd_refl _)
  next hnonneg => exact emod_unique (by omega) hlt hdvd

theorem normalize_eq_ite_nonneg (n : Int) (m : Nat) : normalize n m = if 0 ≤ n then n else n + m := by
  unfold normalize
  split <;> split <;> omega

/-- Settles O35: the laws of `Nat`'s division, R7's examples by evaluation, and the lemmas above clause by clause. -/
theorem remainderLaws : Obligations.RemainderLaws := by
  unfold Obligations.RemainderLaws
  refine ⟨fun n m hm => ⟨(Nat.div_add_mod n m).symm, Nat.mod_lt n hm⟩, by decide, fun n m hm => ?_⟩
  refine ⟨Int.tmod_def n m, tmod_eq_zero_or_pos_iff n m, neg_lt_tmod n hm, tmod_lt n hm,
    Int.tmod_eq_emod_of_nonneg, emod_lt n hm, dvd_sub_emod n hm, fun r hr hdvd => ?_, ?_⟩
  · have huniq := emod_unique (Int.natCast_nonneg r) (Int.ofNat_lt.2 hr) hdvd
    exact (Int.natCast_inj.1 huniq).symm
  · rw [emod_eq_normalize_tmod n hm, normalize_eq_ite_nonneg]

end Sys2Proof.Machine
end

section
/-! Register bits, and what one register transaction does: the layer that the statements about registers rest on
(10_state.md R12 to R28, R34 to R38). -/

namespace Sys2Proof.Machine

/-! ### Words made of flags -/

theorem bitAt_eq (b : Bool) (k : Nat) : bitAt b k = if b then BitVec.twoPow 32 k else 0#32 := by
  have hpow : BitVec.ofNat 32 (2 ^ k) = BitVec.twoPow 32 k :=
    BitVec.eq_of_toNat_eq (by rw [BitVec.toNat_ofNat, BitVec.toNat_twoPow])
  rw [bitAt, hpow]

theorem getLsbD_bitAt (b : Bool) {k : Nat} (hk : k < 32) (i : Nat) :
    (bitAt b k).getLsbD i = (b && decide (i = k)) := by
  rw [bitAt_eq]
  cases b <;> simp [BitVec.getLsbD_twoPow, hk, eq_comm]

/-- Clearing the written ones under a mask acts on each flag of a word alone (10_state.md R17). -/
theorem bitAt_and_not_mask (b : Bool) {k : Nat} (hk : k < 32) (w m : Word) :
    bitAt b k &&& ~~~(w &&& m) = bitAt (b && !(w.getLsbD k && m.getLsbD k)) k := by
  apply BitVec.eq_of_getLsbD_eq
  intro i hi
  simp only [BitVec.getLsbD_and, BitVec.getLsbD_not, getLsbD_bitAt _ hk, hi, decide_true, Bool.true_and]
  by_cases hik : i = k
  · subst hik; simp
  · simp [hik]

theorem bitAt_getLsbD (w : Word) (k : Nat) : bitAt (w.getLsbD k) k = w &&& BitVec.twoPow 32 k := by
  rw [bitAt_eq, BitVec.and_twoPow]

/-- `CTRL` keeps bits 2:0 of the written word (10_state.md R14). -/
theorem ctrlWord_ctrlOfWord (w : Word) : ctrlWord (ctrlOfWord w) = w &&& 7#32 := by
  simp only [ctrlWord, ctrlOfWord, bitAt_getLsbD, ← BitVec.and_or_distrib_left]
  congr 1

/-- `STATUS` after a write of ones: the bits of the mask `0xF6` that were written are cleared (10_state.md R17). -/
theorem statusWord_clearFlags (w : Word) (s : State) :
    statusWord { s with flags := clearFlags w s.flags } = statusWord s &&& ~~~(w &&& 0xF6#32) := by
  simp [statusWord, clearFlags, State.busy, BitVec.and_or_distrib_right, bitAt_and_not_mask]

/-! ### The stored bits of a written word -/

theorem getLsbD_eq_of_and_eq {w w' m : Word} (h : w &&& m = w' &&& m) {k : Nat} (hk : m.getLsbD k = true) :
    w.getLsbD k = w'.getLsbD k := by
  have hbit := congrArg (BitVec.getLsbD · k) h
  simpa [hk] using hbit

theorem ctrlOfWord_congr {w w' : Word} (h : w &&& 7#32 = w' &&& 7#32) : ctrlOfWord w = ctrlOfWord w' := by
  have hbit := fun k => getLsbD_eq_of_and_eq (k := k) h
  simp only [ctrlOfWord, hbit 0 (by decide), hbit 1 (by decide), hbit 2 (by decide)]

theorem clearFlags_congr {w w' : Word} (h : w &&& 0xF6#32 = w' &&& 0xF6#32) (f : Flags) :
    clearFlags w f = clearFlags w' f := by
  have hbit := fun k => getLsbD_eq_of_and_eq (k := k) h
  simp only [clearFlags, hbit 1 (by decide), hbit 2 (by decide), hbit 4 (by decide), hbit 5 (by decide),
    hbit 6 (by decide), hbit 7 (by decide)]

theorem lowHalf_congr {w w' : Word} (h : w &&& 0xFFFF#32 = w' &&& 0xFFFF#32) : lowHalf w = lowHalf w' := by
  have hlow : ∀ v : Word, lowHalf (v &&& 0xFFFF#32) = lowHalf v := fun v => by
    simp only [lowHalf, BitVec.extractLsb'_and]
    exact BitVec.and_allOnes
  rw [← hlow w, h, hlow w']

/-! ### A read or a write at a register's offset -/

/-- A 32-bit read at a register's offset is answered with its value and changes nothing else (20_memory.md R55, R58). -/
theorem hostRead_reg (s : State) (r : Reg) :
    hostRead (BitVec.ofNat 27 r.offset) 4 s = s.respond (.value (readReg s r)) := by
  simp only [hostRead, busTarget_reg]

/-- A 32-bit write at the offset of a register other than `CMD` is refused while the register is locked, and stored
otherwise (20_memory.md R55, 60_exceptions.md R185). -/
theorem hostWrite_reg (s : State) {r : Reg} (hr : r ≠ .cmd) (w : Word) :
    hostWrite (BitVec.ofNat 27 r.offset) 4 w s =
      if writeLocked s r then .next (refuseLocked (BitVec.ofNat 27 r.offset) s)
      else .next ((writeReg r w s).respond .ok) := by
  rcases hostWrite_cases (BitVec.ofNat 27 r.offset) 4 w s with
    ⟨ht, _⟩ | ⟨ht, _⟩ | ⟨r', _, ht, hl, he⟩ | ⟨r', _, ht, hl, he⟩ | ⟨k, ch, i, ht, _⟩ | ⟨k, ch, i, ht, _⟩ <;>
    rw [busTarget_reg] at ht <;> cases ht
  · exact absurd rfl hr
  · rw [he, hl, if_pos rfl]
  · rw [he, hl]; rfl

/-- The register lock of the machine is the lock of the rules (60_exceptions.md R185, 70_reset_and_hazards.md R217). -/
theorem locked_of_writeLocked {s : State} {r : Reg} (h : writeLocked s r = true) :
    Locked s true (BitVec.ofNat 27 r.offset) := by
  have haddr : (BitVec.ofNat 27 r.offset).toNat = r.offset := by
    have := Reg.offset_lt r
    rw [BitVec.toNat_ofNat]; omega
  have hshared : s.busy = true → r ∈ sharedConfig → Locked s true (BitVec.ofNat 27 r.offset) :=
    fun hb hr => ⟨hb, .inl ⟨rfl, r, hr, haddr.symm⟩⟩
  cases r with
  | len ch => exact ⟨((owned_iff s ch).1 h).1, .inr (.inl ⟨rfl, ch, h, .inl haddr.symm⟩)⟩
  | sklen ch => exact ⟨((owned_iff s ch).1 h).1, .inr (.inl ⟨rfl, ch, h, .inr haddr.symm⟩)⟩
  | width | height | keyA | keyB | keyC | keyD | keyTx | keyTy => exact hshared h (by decide)
  | _ => cases h

/-! ### What a register write leaves unchanged -/

@[simp] theorem writeReg_params (r : Reg) (w : Word) (s : State) : (writeReg r w s).params = s.params := by
  cases r <;> simp [writeReg, acknowledge]

@[simp] theorem writeReg_draws (r : Reg) (w : Word) (s : State) : (writeReg r w s).draws = s.draws := by
  cases r <;> simp [writeReg, acknowledge]

@[simp] theorem writeReg_agenda (r : Reg) (w : Word) (s : State) : (writeReg r w s).agenda = s.agenda := by
  cases r <;> simp [writeReg, acknowledge]

/-- No register write reaches a memory: it writes at most `LEN` or `SKLEN` of a lane (70_reset_and_hazards.md R220). -/
theorem writeReg_lane_mem (r : Reg) (w : Word) (s : State) (c : Lane) (k : MemKind) :
    ((writeReg r w s).lane c).mem k = (s.lane c).mem k := by
  cases r with
  | len ch | sklen ch =>
    by_cases hc : c = ch
    · subst hc; cases k <;> simp [writeReg, LaneState.mem]
    · simp [writeReg, hc]
  | _ => rfl

theorem writeReg_readOnly {r : Reg} (h : readOnly r = true) (w : Word) (s : State) :
    r ≠ .cmd ∧ writeLocked s r = false ∧ writeReg r w s = s := by
  cases r <;> cases h <;> exact ⟨nofun, rfl, rfl⟩

/-- `STATUS` sees nothing of a lane but its `LBUSY` bit (10_state.md R15, R16). -/
theorem statusWord_setLane (s : State) (ch : Lane) {l : LaneState} (h : l.lbusy = (s.lane ch).lbusy) :
    statusWord (s.setLane ch l) = statusWord s := by
  cases ch <;> simp only [State.lane] at h <;> simp [statusWord, State.busy, State.setLane, h]

/-- The registers after a change of one lane that keeps its `LBUSY` bit and its counters: only `LEN` and `SKLEN` of that
lane can differ. -/
theorem readReg_setLane (s : State) {ch : Lane} {l : LaneState} {r : Reg} (hbusy : l.lbusy = (s.lane ch).lbusy)
    (hdeg : l.degraded = (s.lane ch).degraded) (hdrop : l.dropped = (s.lane ch).dropped)
    (hlen : r = .len ch → l.len = (s.lane ch).len) (hsklen : r = .sklen ch → l.sklen = (s.lane ch).sklen) :
    readReg (s.setLane ch l) r = readReg s r := by
  cases r with
  | status => exact statusWord_setLane s ch hbusy
  | len c | sklen c | degraded c | dropped c =>
    by_cases hc : c = ch
    · subst hc; simp [readReg, *]
    · simp [readReg, hc]
  | _ => simp [readReg]

/-- A dimension or key register stores the low half of the written word (10_state.md R21, R23). -/
theorem writeReg_congr_lowHalf {r : Reg} (hr : r ∈ sharedConfig) {w w' : Word} (h : lowHalf w = lowHalf w') (s : State) :
    writeReg r w s = writeReg r w' s := by
  cases r with
  | width | height | keyA | keyB | keyC | keyD | keyTx | keyTy => simp only [writeReg, h]
  | _ => simp [sharedConfig] at hr

/-- Whether a register write is refused does not depend on the word. -/
theorem hostWrite_congr (s : State) {r : Reg} (hr : r ≠ .cmd) {w w' : Word} (h : writeReg r w s = writeReg r w' s) :
    hostWrite (BitVec.ofNat 27 r.offset) 4 w s = hostWrite (BitVec.ofNat 27 r.offset) 4 w' s := by
  rw [hostWrite_reg s hr, hostWrite_reg s hr, h]

/-- A write to one register is seen in no other (10_state.md R28, 70_reset_and_hazards.md R220). -/
theorem readReg_writeReg_ne {r r' : Reg} (h : r' ≠ r) (w : Word) (s : State) :
    readReg (writeReg r w s) r' = readReg s r' := by
  cases r with
  | len ch => exact readReg_setLane s rfl rfl rfl (fun he => absurd he h) (fun _ => rfl)
  | sklen ch => exact readReg_setLane s rfl rfl rfl (fun _ => rfl) (fun he => absurd he h)
  | _ => cases r' <;> first | rfl | exact absurd rfl h

theorem readReg_respond (a : Response) (s : State) (r : Reg) : readReg (s.respond a) r = readReg s r := by
  cases r <;> rfl

end Sys2Proof.Machine
end

section
/-! The statements about registers, from the layer above: O10, O12, O13, O14, O17, O18, O60. -/

namespace Sys2Proof.Machine

/-- Settles O10, register by register. -/
theorem resetRegisterValues : Obligations.ResetRegisterValues := by
  refine ⟨fun r => ?_, rfl, rfl⟩
  cases r with
  | len ch | sklen ch | degraded ch | dropped ch => cases ch <;> rfl
  | _ => rfl

/-- An offset of the register region that no register has addresses nothing (10_state.md R12, 20_memory.md R57). -/
theorem busTarget_eq_none_of_no_register (p : Params) {addr : Offset} (hlt : addr.toNat < 0x1000)
    (hno : ∀ r : Reg, r.offset ≠ addr.toNat) (n : Nat) : busTarget p addr n = none := by
  simp [busTarget, hlt, regAt_none.2 hno]

/-- Settles O12: the literal map and the literal bases are those of `Reg.offset` and `apertureBase`, and `busTarget_reg`,
`busTarget_cells` say what an access there addresses. -/
theorem registerMapIsComplete : Obligations.RegisterMapIsComplete := by
  unfold Obligations.RegisterMapIsComplete
  intro map apertures
  have hoffset : ∀ e ∈ map, e.2.offset = e.1 := by decide
  have hbase : ∀ e ∈ apertures, apertureBase e.2.1 e.2.2 = e.1 := by decide
  have hall : ∀ r : Reg, r ∈ map.map Prod.snd := by
    intro r
    cases r with
    | len ch | sklen ch | degraded ch | dropped ch => cases ch <;> decide
    | _ => decide
  refine ⟨fun p e he => ⟨?_, hoffset e he⟩, hall, fun p addr hlt hnot n => ?_,
    fun p i n hn ha hl hi e he => ⟨?_, hbase e he⟩⟩
  · rw [← hoffset e he]
    exact busTarget_reg p e.2
  · refine busTarget_eq_none_of_no_register p hlt (fun r hr => hnot ?_) n
    obtain ⟨e, he, rfl⟩ := List.mem_map.1 (hall r)
    exact List.mem_map.2 ⟨e, he, (hoffset e he).symm.trans hr⟩
  · rw [← hbase e he]
    exact busTarget_cells p e.2.1 e.2.2 hn ha hi hl

theorem zeroExtend32_eq_ofNat (v : Half) : zeroExtend32 v = BitVec.ofNat 32 v.toNat :=
  BitVec.eq_of_toNat_eq (by simp [zeroExtend32])

theorem ctrlWord_eq_ofNat (c : Ctrl) :
    ctrlWord c = BitVec.ofNat 32 (c.ieDone.toNat + 2 * c.ieDegr.toNat + 4 * c.ieErr.toNat) := by
  obtain ⟨a, b, c⟩ := c
  cases a <;> cases b <;> cases c <;> rfl

/-- Settles O60, from what a read at a register's offset answers. -/
theorem registerReadValues : Obligations.RegisterReadValues := by
  unfold Obligations.RegisterReadValues
  intro s reads
  have hread : ∀ (r : Reg) {v : Word}, readReg s r = v → reads r.offset v := by
    rintro r v rfl
    exact hostRead_reg s r
  have hhalf : ∀ (r : Reg) {v : Half}, readReg s r = zeroExtend32 v → reads r.offset (BitVec.ofNat 32 v.toNat) :=
    fun r v h => hread r (h.trans (zeroExtend32_eq_ofNat v))
  refine ⟨hread .id rfl, hread .ctrl (ctrlWord_eq_ofNat s.ctrl), hread .status rfl, hread .cmd rfl,
    hread .cause ?_, hread .einfo rfl, ?_, ?_, ?_⟩
  · show causeCode s.cause = _
    cases s.cause <;> rfl
  · simp only [List.forall_mem_cons]
    exact ⟨hhalf .width rfl, hhalf .height rfl, hhalf .detn rfl, hhalf .detinv rfl, hhalf .inv0 rfl, hhalf .inv1 rfl,
      hhalf .inv2 rfl, hhalf .inv3 rfl, nofun⟩
  · simp only [List.forall_mem_cons]
    exact ⟨hread .keyA rfl, hread .keyB rfl, hread .keyC rfl, hread .keyD rfl, hread .keyTx rfl,
      hread .keyTy rfl, nofun⟩
  · have hbank : ∀ ch, reads (Reg.len ch).offset (s.lane ch).len ∧ reads (Reg.sklen ch).offset (s.lane ch).sklen ∧
        reads (Reg.degraded ch).offset (s.lane ch).degraded ∧ reads (Reg.dropped ch).offset (s.lane ch).dropped :=
      fun ch => ⟨hread _ rfl, hread _ rfl, hread _ rfl, hread _ rfl⟩
    simp only [List.forall_mem_cons]
    exact ⟨hbank .l0, hbank .l1, hbank .l2, nofun⟩

/-- Settles O13: each disjunct of `statusWord` is one flag at one bit. -/
theorem statusWordLayout : Obligations.StatusWordLayout := by
  unfold Obligations.StatusWordLayout
  intro s k
  simp (disch := decide) only [readReg, statusWord, State.busy, BitVec.getLsbD_or, getLsbD_bitAt]
  split <;> simp_all

/-- Settles O14, with the flags that `clearFlags` leaves. -/
theorem statusWriteOneToClear : Obligations.StatusWriteOneToClear := by
  unfold Obligations.StatusWriteOneToClear
  intro s w
  exact ⟨clearFlags w s.flags, hostWrite_reg s (r := .status) (by decide) w, statusWord_clearFlags w s⟩

/-- Settles O17: the write is not refused, so it is `writeReg`; its own register case by case, the rest by the frame
lemmas. -/
theorem registerWriteThenRead : Obligations.RegisterWriteThenRead := by
  unfold Obligations.RegisterWriteThenRead
  intro s r w hcmd hlock
  have hfree : ¬ writeLocked s r = true := fun h => hlock (locked_of_writeLocked h)
  refine ⟨(writeReg r w s).respond .ok, ?_, ?_, fun r' hne => ?_, fun k ch i => ?_, rfl, ?_, ?_, ?_⟩
  · rw [hostWrite_reg s hcmd, if_neg hfree]
  · rw [readReg_respond]
    cases r with
    | ctrl => exact ctrlWord_ctrlOfWord w
    | status => exact statusWord_clearFlags w s
    | len ch | sklen ch => simp [readReg, writeReg]
    | _ => rfl
  · rw [readReg_respond, readReg_writeReg_ne hne]
  · simp only [State.cell, respond_lane, writeReg_lane_mem]
  · simp
  · simp
  · simp

/-- Settles O18: a read-only register stores nothing, and the stored value is a function of the implemented bits. -/
theorem readOnlyAndReservedBitsIgnoreWrites : Obligations.ReadOnlyAndReservedBitsIgnoreWrites := by
  unfold Obligations.ReadOnlyAndReservedBitsIgnoreWrites
  refine ⟨fun s r w hro => ?_, fun s w w' h => ?_, fun s w w' h => ?_, fun s r w w' hr h => ?_⟩
  · obtain ⟨hcmd, hfree, hsame⟩ := writeReg_readOnly hro w s
    rw [hostWrite_reg s hcmd, hfree, hsame]
    rfl
  · have hw : writeReg .ctrl w s = writeReg .ctrl w' s := by simp only [writeReg, ctrlOfWord_congr h]
    exact hostWrite_congr s (r := .ctrl) (by decide) hw
  · have hw : writeReg .status w s = writeReg .status w' s := by simp only [writeReg, acknowledge, clearFlags_congr h]
    exact hostWrite_congr s (r := .status) (by decide) hw
  · have hcmd : r ≠ .cmd := by rintro rfl; revert hr; decide
    exact hostWrite_congr s hcmd (writeReg_congr_lowHalf hr (lowHalf_congr h) s)

end Sys2Proof.Machine
end

section
/-! The invariant of the block, kept by every operation of the machine, and the statements O8 and O9 from them
(10_state.md R16 to R26, R39; 42_layer_pipeline.md R150 to R157; 70_reset_and_hazards.md R210 to R217). -/

namespace Sys2Proof.Machine

/-! ### How the invariant is built up again after a change -/

/-- In an idle block the clauses about a running command say nothing. -/
theorem Invariant.of_idle {s : State} (hidle : s.busy = false) (hparams : s.params.wf = true)
    (hlanes : ∀ ch, LaneInvariant s.params (s.lane ch)) (hcmdr : s.cmdr = 0#32 ∨ ∃ i, decode s.cmdr = .ok i)
    (hfailed : s.inv.detinv = 0#16 →
      s.inv.inv0 = 0#16 ∧ s.inv.inv1 = 0#16 ∧ s.inv.inv2 = 0#16 ∧ s.inv.inv3 = 0#16)
    (hcause : s.cause = .none → s.einfo = 0#32 ∧ s.flags.anyError = false) : Invariant s where
  params_wf := hparams
  lanes := hlanes
  cmdr_legal := hcmdr
  busy_selected ch h := by rw [lane_idle hidle ch] at h; cases h
  busy_geometry h := by rw [hidle] at h; cases h
  busy_lengths ch h := by rw [State.owned, hidle] at h; cases h
  busy_not_done h := by rw [hidle] at h; cases h
  busy_key h := by rw [hidle] at h; cases h
  failed_inverse := hfailed
  no_cause := hcause

/-- The invariant sees of a state neither the interrupt enables, nor the response, nor the agenda. -/
theorem Invariant.of_outside {s : State} (h : Invariant s) (c : Ctrl) (r : Option Response) (a : List Event) :
    Invariant { s with ctrl := c, response := r, agenda := a } :=
  { h with }

theorem Invariant.respond {s : State} (h : Invariant s) (r : Response) : Invariant (s.respond r) :=
  h.of_outside s.ctrl (some r) s.agenda

/-- A change of the flags keeps the invariant if it neither raises `DONE` under a running command nor an error flag
without a cause. -/
theorem Invariant.setFlags {s : State} (h : Invariant s) {f : Flags} (hdone : s.busy = true → f.done = false)
    (herr : s.cause = .none → f.anyError = false) : Invariant { s with flags := f } :=
  { h with
    busy_not_done := hdone
    no_cause := fun hc => ⟨(h.no_cause hc).1, herr hc⟩ }

theorem setErrorFlag_done (c : Cause) (f : Flags) : (setErrorFlag c f).done = f.done := by cases c <;> rfl

/-- An error event names its cause, so it keeps the invariant (60_exceptions.md R180). -/
theorem Invariant.raiseError {s : State} (h : Invariant s) {c : Cause} (hc : c ≠ .none) (info : Word) :
    Invariant (raiseError c info s) :=
  { h with
    busy_not_done := fun hb => (setErrorFlag_done c s.flags).trans (h.busy_not_done hb)
    no_cause := fun hn => absurd hn hc }

theorem Invariant.refuseLocked {s : State} (h : Invariant s) (addr : Offset) : Invariant (refuseLocked addr s) :=
  (h.raiseError (by decide) _).respond .err

/-! ### Changes of one lane -/

theorem setLane_lbusy_of_le {s : State} {ch : Lane} {l : LaneState} (hle : l.lbusy = true → (s.lane ch).lbusy = true)
    {c : Lane} (h : ((s.setLane ch l).lane c).lbusy = true) : (s.lane c).lbusy = true := by
  by_cases hc : c = ch
  · subst hc; rw [setLane_lane_same] at h; exact hle h
  · rwa [setLane_lane_other s l hc] at h

theorem busy_of_setLane {s : State} {ch : Lane} {l : LaneState} (hle : l.lbusy = true → (s.lane ch).lbusy = true)
    (h : (s.setLane ch l).busy = true) : s.busy = true := by
  obtain ⟨c, hc⟩ := (busy_iff _).1 h
  exact busy_of_lane (setLane_lbusy_of_le hle hc)

/-- A change of one lane that does not start it and keeps its `LEN` while it is owned keeps the invariant: this covers
the host's writes to an unowned lane and the completion step. -/
theorem Invariant.setLane {s : State} (h : Invariant s) {ch : Lane} {l : LaneState} (hl : LaneInvariant s.params l)
    (hle : l.lbusy = true → (s.lane ch).lbusy = true) (hlen : s.owned ch = true → l.len = (s.lane ch).len) :
    Invariant (s.setLane ch l) where
  params_wf := by rw [setLane_params]; exact h.params_wf
  lanes c := by
    rw [setLane_params, setLane_lane]
    split
    · exact hl
    · exact h.lanes c
  cmdr_legal := by rw [setLane_cmdr]; exact h.cmdr_legal
  busy_selected c hc := by
    rw [State.cmdrLanes, setLane_cmdr]
    exact h.busy_selected c (setLane_lbusy_of_le hle hc)
  busy_geometry hb := by
    simpa [State.pixels] using h.busy_geometry (busy_of_setLane hle hb)
  busy_lengths c hc := by
    rw [owned_iff, State.cmdrLanes, setLane_cmdr] at hc
    have hown : s.owned c = true := (owned_iff s c).2 ⟨busy_of_setLane hle hc.1, hc.2⟩
    have hkept : ((s.setLane ch l).lane c).len = (s.lane c).len := by
      by_cases hcc : c = ch
      · subst hcc; rw [setLane_lane_same, hlen hown]
      · rw [setLane_lane_other s l hcc]
    rw [hkept, h.busy_lengths c hown]
    simp [State.pixels]
  busy_not_done hb := by rw [setLane_flags]; exact h.busy_not_done (busy_of_setLane hle hb)
  busy_key hb hk := by
    rw [setLane_cmdr] at hk
    simpa using h.busy_key (busy_of_setLane hle hb) hk
  failed_inverse := by simpa using h.failed_inverse
  no_cause := by simpa using h.no_cause

/-! ### Host transactions other than a command -/

/-- In an idle block the dimensions and the key are free to change (10_state.md R27). -/
theorem Invariant.of_idle_geometry {s : State} (h : Invariant s) (hidle : s.busy = false) (w ht : Half) (k : Key) :
    Invariant { s with width := w, height := ht, key := k } :=
  .of_idle hidle h.params_wf h.lanes h.cmdr_legal h.failed_inverse h.no_cause

theorem clearFlags_anyError {f : Flags} (w : Word) (h : f.anyError = false) : (clearFlags w f).anyError = false := by
  simp only [Flags.anyError, Bool.or_eq_false_iff] at h
  simp [Flags.anyError, clearFlags, h]

/-- The invariant of a lane sees neither its lengths nor its `LBUSY` bit. -/
theorem LaneInvariant.setLengths {p : Params} {l : LaneState} (h : LaneInvariant p l) (n k : Word) (b : Bool) :
    LaneInvariant p { l with len := n, sklen := k, lbusy := b } :=
  { h with }

theorem Invariant.writeReg {s : State} (h : Invariant s) {r : Reg} (hfree : writeLocked s r = false) (w : Word) :
    Invariant (writeReg r w s) := by
  cases r with
  | ctrl => exact h.of_outside (ctrlOfWord w) s.response s.agenda
  | status =>
    exact h.setFlags (fun hb => by simp [clearFlags, h.busy_not_done hb])
      (fun hc => clearFlags_anyError w (h.no_cause hc).2)
  | width | height | keyA | keyB | keyC | keyD | keyTx | keyTy => exact h.of_idle_geometry hfree _ _ _
  | len ch =>
    have hnot : s.owned ch = false := hfree
    exact h.setLane ((h.lanes ch).setLengths w _ _) id (fun ho => by rw [hnot] at ho; cases ho)
  | sklen ch => exact h.setLane ((h.lanes ch).setLengths _ w _) id (fun _ => rfl)
  | _ => exact h

theorem LaneInvariant.mem_wf {p : Params} {l : LaneState} (h : LaneInvariant p l) (k : MemKind) :
    (l.mem k).wf = true ∧ (l.mem k).below p.lmax = true := by
  cases k
  · exact ⟨h.layer_wf, h.layer_below⟩
  · exact ⟨h.sk_wf, h.sk_below⟩

theorem LaneInvariant.setMem {p : Params} {l : LaneState} (h : LaneInvariant p l) (k : MemKind) {m : Memory}
    (hwf : m.wf = true) (hbelow : m.below p.lmax = true) : LaneInvariant p (l.setMem k m) := by
  cases k
  · exact { h with layer_wf := hwf, layer_below := hbelow }
  · exact { h with sk_wf := hwf, sk_below := hbelow }

/-- A store addressed by the bus lies in cells that exist (20_memory.md R57). -/
theorem Invariant.storeCells {s : State} (h : Invariant s) {addr : Offset} {n first : Nat} {k : MemKind} {ch : Lane}
    (ht : busTarget s.params addr n = some (.cells k ch first)) (v : Word) :
    Invariant (storeCells k ch first n v s) := by
  obtain ⟨_, _, hn, _, hlast⟩ := busTarget_eq_cells ht
  obtain ⟨hwf, hbelow⟩ := (h.lanes ch).mem_wf k
  have hfit : first + (bytesLE v n).length ≤ s.params.lmax := by rw [bytesLE_length]; omega
  have hl := (h.lanes ch).setMem k (Memory.wf_writeBytes _ hwf first) (Memory.below_writeBytes _ hfit hbelow)
  exact h.setLane hl (by rw [setMem_lbusy]; exact id) (fun _ => setMem_len _ _ _)

theorem Invariant.hostRead {s : State} (h : Invariant s) (addr : Offset) (n : Nat) : Invariant (hostRead addr n s) := by
  rcases hostRead_cases addr n s with ⟨_, he⟩ | ⟨r, _, he⟩ | ⟨k, ch, i, _, _, he⟩ | ⟨k, ch, i, _, _, he⟩ <;> rw [he]
  · exact h.respond _
  · exact h.respond _
  · exact h.refuseLocked addr
  · exact h.respond _

/-! ### Commands -/

/-- The key stage of an idle block keeps the invariant: a failed one leaves zeros (10_state.md R25, R26). -/
theorem Invariant.keyStage {s : State} (h : Invariant s) (hidle : s.busy = false) : Invariant (keyStage s) :=
  .of_idle hidle h.params_wf h.lanes h.cmdr_legal (keyStageResult_zero _ s.width.isLt) h.no_cause

theorem Invariant.acceptKeyInv {s : State} (h : Invariant s) (hidle : s.busy = false) : Invariant (acceptKeyInv s) :=
  have hlegal : decode (encode .keyInv) = .ok .keyInv := by decide
  .of_idle hidle h.params_wf h.lanes (.inr ⟨.keyInv, hlegal⟩) h.failed_inverse h.no_cause

/-- The lane commands whose opcode byte has a key stage are those that `exec` gives one (42_layer_pipeline.md R152). -/
theorem hasKeyStage_of_keyedCommand {i : Instr} (h : keyedCommand (encode i) = true) : hasKeyStage i = true := by
  rw [keyedCommand, opField_encode] at h
  cases i with
  | keyInv | permRev m | wmExt m => rfl
  | _ => simp [Instr.opcode, opcodeByte] at h

/-- The acceptance of a lane command on an idle block that passed the tests establishes what the invariant says of a
running command (42_layer_pipeline.md R150 to R153). -/
theorem Invariant.acceptLanes {s : State} (h : Invariant s) {i : Instr} (hidle : s.busy = false)
    (hlegal : decode (encode i) = .ok i) (hgeo : laneGeometry i.lanes s = none)
    (hkey : keyedCommand (encode i) = true →
      keyInvertible s.key.values s.width.toNat = true ∧ s.inv = keyStageResult s.key.values s.width.toNat) :
    Invariant (acceptLanes i s) := by
  obtain ⟨hdims, hlens⟩ := (laneGeometry_none i.lanes s).1 hgeo
  rw [acceptLanes_eq i s hidle]
  have hmask : (acceptedState (encode i) i.lanes s).cmdrLanes = i.lanes := laneField_encode i
  exact {
    params_wf := h.params_wf
    lanes := fun ch => by
      rw [acceptedState_lane]
      exact (h.lanes ch).setLengths _ _ _
    cmdr_legal := .inr ⟨i, hlegal⟩
    busy_selected := fun ch hc => by
      rw [acceptedState_lane] at hc
      rw [hmask]
      exact hc
    busy_geometry := fun _ => hdims
    busy_lengths := fun ch hc => by
      rw [owned_iff, hmask] at hc
      rw [acceptedState_lane]
      exact hlens ch hc.2
    busy_not_done := fun _ => rfl
    busy_key := fun _ hk => hkey hk
    failed_inverse := h.failed_inverse
    no_cause := h.no_cause }

/-- The command that `exec` accepts. -/
theorem Invariant.accepted {s : State} (h : Invariant s) {i : Instr} (hidle : s.busy = false)
    (hlegal : decode (encode i) = .ok i) (hgeo : geometryOf i s = none)
    (hkey : hasKeyStage i = true → s.keyOk = true) : Invariant (accepted i (staged i s)) := by
  cases i with
  | keyInv => exact (h.keyStage hidle).acceptKeyInv hidle
  | permFwd m | lbcEmb m | lbcExt m | wmEmb m =>
    exact h.acceptLanes hidle hlegal hgeo (fun hk => nomatch hasKeyStage_of_keyedCommand hk)
  | permRev m | wmExt m => exact (h.keyStage hidle).acceptLanes hidle hlegal hgeo (fun _ => ⟨hkey rfl, rfl⟩)

theorem Invariant.exec {s t : State} (h : Invariant s) {i : Instr} (hlegal : decode (encode i) = .ok i)
    (ht : exec i s = .next t) : Invariant t := by
  rcases exec_cases i s with ⟨_, he⟩ | ⟨_, _, he⟩ | ⟨info, _, _, _, he⟩ | ⟨hidle, _, _, _, _, he⟩ |
    ⟨hidle, _, hgeo, hkey, he⟩ <;> rw [he] at ht <;> cases ht
  · exact (h.raiseError (by decide) _).respond _
  · exact (h.raiseError (by decide) _).respond _
  · exact (h.raiseError (by decide) _).respond _
  · exact ((h.keyStage hidle).raiseError (by decide) _).respond _
  · exact h.accepted hidle hlegal hgeo hkey

/-- A word that decodes is the word of its command (30_encoding.md R89). -/
theorem encode_of_decode {w : Word} {i : Instr} (h : decode w = .ok i) : encode i = w := by
  obtain ⟨hmbz, habs, hlanes, hop, _⟩ := decode_fields h
  exact word_ext (by rw [mbzField_encode, hmbz]) (by rw [absentLaneField_encode, habs])
    (by rw [laneField_encode, hlanes]) (by rw [opField_encode, hop])

theorem Invariant.writeCmd {s t : State} (h : Invariant s) {w : Word} (ht : writeCmd w s = .next t) : Invariant t := by
  rcases writeCmd_cases w s with ⟨i, hd, he⟩ | ⟨_, _, he⟩ | ⟨_, _, he⟩ <;> rw [he] at ht
  · exact h.exec (by rw [encode_of_decode hd, hd]) ht
  · cases ht; exact (h.raiseError (by decide) _).respond _
  · cases ht; exact (h.raiseError (by decide) _).respond _

theorem Invariant.hostWrite {s t : State} (h : Invariant s) {addr : Offset} {n : Nat} {v : Word}
    (ht : hostWrite addr n v s = .next t) : Invariant t := by
  rcases hostWrite_cases addr n v s with ⟨_, he⟩ | ⟨_, he⟩ | ⟨r, _, _, _, he⟩ | ⟨r, _, _, hfree, he⟩ |
    ⟨k, ch, i, _, _, he⟩ | ⟨k, ch, i, htarget, _, he⟩ <;> rw [he] at ht
  · cases ht; exact h.respond _
  · exact h.writeCmd ht
  · cases ht; exact h.refuseLocked addr
  · cases ht; exact (h.writeReg hfree v).respond _
  · cases ht; exact h.refuseLocked addr
  · cases ht; exact (h.storeCells htarget v).respond _

/-! ### Completion steps and reset -/

/-- The lane that a completion step leaves: its memories by its transform, its counters at most `N`. -/
theorem Invariant.laneInvariant_finish {s : State} (h : Invariant s) {ch : Lane} (hpix : s.pixels ≤ s.params.lmax) :
    LaneInvariant s.params (laneTransform s ch).finish := by
  have hl := h.lanes ch
  obtain ⟨_, hdegraded, hdropped, hdroppedLe, hdegLe⟩ := laneTransform_frame s ch
  obtain ⟨hlayer, hsk, hlayerBelow, hskBelow⟩ :=
    laneTransform_wf s ch hpix hl.layer_wf hl.sk_wf hl.layer_below hl.sk_below
  have hcount : ∀ d, d ≤ s.pixels → (BitVec.ofNat 32 d).toNat ≤ s.params.lmax := fun d hd => by
    rw [BitVec.toNat_ofNat]
    exact (Nat.mod_le _ _).trans (hd.trans hpix)
  refine ⟨hlayer, hsk, hlayerBelow, hskBelow, ?_, ?_⟩
  · simp only [LaneResult.finish]
    split
    next d hd => exact hcount d (hdegLe d hd)
    next => rw [hdegraded]; exact hl.degraded_le
  · simp only [LaneResult.finish]
    split
    next d hd => exact hcount d (hdroppedLe d hd)
    next => rw [hdropped]; exact hl.dropped_le

theorem Invariant.laneComplete {s : State} (h : Invariant s) (ch : Lane) : Invariant (laneComplete ch s) := by
  cases hrun : (s.lane ch).lbusy with
  | false => rwa [laneComplete_idle hrun]
  | true =>
    have hbusy := busy_of_lane hrun
    rw [laneComplete_running hrun]
    have hset := h.setLane (ch := ch) (h.laneInvariant_finish (h.busy_geometry hbusy).2.2) (fun _ => hrun)
      (fun _ => (laneTransform_frame s ch).1)
    refine hset.setFlags (fun hb => ?_) (fun hc => ?_)
    · simp [h.busy_not_done hbusy, hb]
    · rw [setLane_cause] at hc
      exact (h.no_cause hc).2

/-- A lane after `RESET`: its counters are 0, and an abandoned command scrambles only cells that exist
(70_reset_and_hazards.md R211, R212). -/
theorem Invariant.laneInvariant_resetLane {s : State} (h : Invariant s) (ch : Lane) :
    LaneInvariant s.params (resetLane s ch) := by
  have hl := h.lanes ch
  have hpix : s.owned ch = true → s.pixels ≤ s.params.lmax := fun ho => (h.busy_geometry ((owned_iff s ch).1 ho).1).2.2
  refine ⟨?_, ?_, ?_, ?_, Nat.zero_le _, Nat.zero_le _⟩ <;> simp only [resetLane] <;> split
  · exact scramble_wf _ _ _ hl.layer_wf
  · exact hl.layer_wf
  · exact scramble_wf _ _ _ hl.sk_wf
  · exact hl.sk_wf
  · exact scramble_below _ _ _ (hpix ‹_›) hl.layer_below
  · exact hl.layer_below
  next ho => exact scramble_below _ _ _ (hpix (Bool.and_eq_true_iff.1 ho).1) hl.sk_below
  · exact hl.sk_below

theorem Invariant.resetBlock {s : State} (h : Invariant s) : Invariant (resetBlock s) :=
  .of_idle rfl h.params_wf (fun ch => by cases ch <;> exact h.laneInvariant_resetLane _) (.inl rfl)
    (fun _ => ⟨rfl, rfl, rfl, rfl⟩) (fun _ => ⟨rfl, rfl⟩)

/-! ### The step -/

theorem Invariant.runEvent {s t : State} (h : Invariant s) {e : Event} (ht : runEvent e s = .next t) : Invariant t := by
  cases e with
  | read addr n => cases ht; exact h.hostRead addr n
  | write addr n v => exact h.hostWrite ht
  | reset => cases ht; exact h.resetBlock
  | lane ch => cases ht; exact h.laneComplete ch

theorem Invariant.autonomous {s : State} (h : Invariant s) : Invariant (autonomous s) := by
  rcases autonomous_cases s with ⟨_, he⟩ | ⟨ch, _, he⟩ <;> rw [he]
  · exact h
  · exact h.laneComplete ch

/-- Settles O8: the reset block is idle, so only the clauses that hold at rest are left. -/
theorem resetSatisfiesInvariant : Obligations.ResetSatisfiesInvariant :=
  .of_idle rfl (by decide) (fun ch => by cases ch <;> constructor <;> decide) (.inl rfl)
    (fun _ => ⟨rfl, rfl, rfl, rfl⟩) (fun _ => ⟨rfl, rfl⟩)

/-- Settles O9: a step is an event of the agenda or the block's own next step, and each operation keeps the invariant. -/
theorem stepKeepsBlockInvariant : Obligations.StepKeepsBlockInvariant := by
  unfold Obligations.StepKeepsBlockInvariant
  intro s t h ht
  cases ha : s.agenda with
  | nil =>
    rw [step_nil ha] at ht
    cases ht
    exact h.autonomous
  | cons e rest =>
    rw [step_cons ha] at ht
    exact (h.of_outside s.ctrl s.response rest).runEvent ht

end Sys2Proof.Machine
end

section
/-! What a running command reads stays as it is (42_layer_pipeline.md R156, R160; 70_reset_and_hazards.md R217, R218),
and the statement O25. -/

namespace Sys2Proof.Machine

/-- What every step but `RESET` leaves from a busy state `s` to `t`: the shared inputs of the lanes, the `LEN` of an owned
lane, no lane started, and all of an owned lane that still runs. -/
structure KeepsRunning (s t : State) : Prop where
  width : t.width = s.width
  height : t.height = s.height
  key : t.key = s.key
  inv : t.inv = s.inv
  cmdr : t.cmdr = s.cmdr
  params : t.params = s.params
  len : ∀ ch, s.owned ch = true → (t.lane ch).len = (s.lane ch).len
  runs : ∀ ch, (t.lane ch).lbusy = true → (s.lane ch).lbusy = true
  lane : ∀ ch, s.owned ch = true → (t.lane ch).lbusy = true → t.lane ch = s.lane ch

theorem KeepsRunning.refl (s : State) : KeepsRunning s s :=
  ⟨rfl, rfl, rfl, rfl, rfl, rfl, fun _ _ => rfl, fun _ => id, fun _ _ _ => rfl⟩

/-- The response is outside of what a command reads. -/
theorem KeepsRunning.respond {s t : State} (h : KeepsRunning s t) (r : Response) : KeepsRunning s (t.respond r) :=
  { h with }

theorem keepsRunning_raiseError (c : Cause) (info : Word) (s : State) : KeepsRunning s (raiseError c info s) :=
  { KeepsRunning.refl s with }

theorem keepsRunning_refuseLocked (addr : Offset) (s : State) : KeepsRunning s (refuseLocked addr s) :=
  (keepsRunning_raiseError _ _ s).respond .err

/-- A lane that is not owned may change as long as it is not started. -/
theorem keepsRunning_setLane {s : State} {ch : Lane} {l : LaneState} (hfree : s.owned ch = false)
    (hbusy : l.lbusy = (s.lane ch).lbusy) : KeepsRunning s (s.setLane ch l) := by
  have hother : ∀ c, s.owned c = true → (s.setLane ch l).lane c = s.lane c := fun c hc =>
    setLane_lane_other s l (by rintro rfl; rw [hfree] at hc; cases hc)
  exact {
    width := setLane_width s ch l
    height := setLane_height s ch l
    key := setLane_key s ch l
    inv := setLane_inv s ch l
    cmdr := setLane_cmdr s ch l
    params := setLane_params s ch l
    len := fun c hc => by rw [hother c hc]
    runs := fun _ hc => setLane_lbusy_of_le (by rw [hbusy]; exact id) hc
    lane := fun c hc _ => hother c hc }

/-- The busy lock protects the dimensions, the key and the lengths of owned lanes from a register write. -/
theorem keepsRunning_writeReg {s : State} (hbusy : s.busy = true) {r : Reg} (hfree : writeLocked s r = false) (w : Word) :
    KeepsRunning s (writeReg r w s) := by
  cases r with
  | ctrl | status => exact { KeepsRunning.refl s with }
  | width | height | keyA | keyB | keyC | keyD | keyTx | keyTy =>
    rw [show s.busy = false from hfree] at hbusy
    cases hbusy
  | len ch | sklen ch => exact keepsRunning_setLane hfree rfl
  | _ => exact KeepsRunning.refl s

/-- A busy block refuses every word written to `CMD` (70_reset_and_hazards.md R219). -/
theorem writeCmd_busy {s : State} (hbusy : s.busy = true) (w : Word) :
    writeCmd w s = .next ((raiseError .cmdWhileBusy w s).respond .err) := by
  rcases writeCmd_cases w s with ⟨i, hd, he⟩ | ⟨_, _, he⟩ | ⟨_, hidle, _⟩
  · rcases exec_cases i s with ⟨_, hx⟩ | ⟨hidle, _⟩ | ⟨_, hidle, _⟩ | ⟨hidle, _⟩ | ⟨hidle, _⟩
    · rw [he, hx, encode_of_decode hd]
    all_goals rw [hidle] at hbusy; cases hbusy
  · exact he
  · rw [hidle] at hbusy; cases hbusy

theorem keepsRunning_hostWrite {s t : State} (hbusy : s.busy = true) {addr : Offset} {n : Nat} {v : Word}
    (ht : hostWrite addr n v s = .next t) : KeepsRunning s t := by
  rcases hostWrite_cases addr n v s with ⟨_, he⟩ | ⟨_, he⟩ | ⟨r, _, _, _, he⟩ | ⟨r, _, _, hfree, he⟩ |
    ⟨k, ch, i, _, _, he⟩ | ⟨k, ch, i, _, hfree, he⟩ <;> rw [he] at ht
  · cases ht; exact (KeepsRunning.refl s).respond _
  · rw [writeCmd_busy hbusy] at ht
    cases ht; exact (keepsRunning_raiseError _ _ s).respond _
  · cases ht; exact keepsRunning_refuseLocked addr s
  · cases ht; exact (keepsRunning_writeReg hbusy hfree v).respond _
  · cases ht; exact keepsRunning_refuseLocked addr s
  · cases ht; exact (keepsRunning_setLane hfree (setMem_lbusy _ _ _)).respond _

theorem keepsRunning_hostRead (addr : Offset) (n : Nat) (s : State) : KeepsRunning s (hostRead addr n s) := by
  rcases hostRead_cases addr n s with ⟨_, he⟩ | ⟨r, _, he⟩ | ⟨k, ch, i, _, _, he⟩ | ⟨k, ch, i, _, _, he⟩ <;> rw [he]
  · exact (KeepsRunning.refl s).respond _
  · exact (KeepsRunning.refl s).respond _
  · exact keepsRunning_refuseLocked addr s
  · exact (KeepsRunning.refl s).respond _

theorem laneComplete_len (ch c : Lane) (s : State) : ((laneComplete ch s).lane c).len = (s.lane c).len := by
  by_cases hc : c = ch
  · subst hc
    cases hrun : (s.lane c).lbusy with
    | false => rw [laneComplete_idle hrun]
    | true => rw [laneComplete_lane_same hrun]; exact (laneTransform_frame s c).1
  · rw [laneComplete_lane_other s hc]

/-- A completion step writes its own lane, which runs no more, and no other (42_layer_pipeline.md R156, R160). -/
theorem keepsRunning_laneComplete (ch : Lane) (s : State) : KeepsRunning s (laneComplete ch s) :=
  have hshared := laneComplete_shared ch s
  { width := hshared.width
    height := hshared.height
    key := hshared.key
    inv := hshared.inv
    cmdr := hshared.cmdr
    params := hshared.params
    len := fun c _ => laneComplete_len ch c s
    runs := fun c hc => ((laneComplete_lbusy_iff ch c s).1 hc).2
    lane := fun c _ hc => laneComplete_lane_other s ((laneComplete_lbusy_iff ch c s).1 hc).1 }

theorem keepsRunning_runEvent {s t : State} (hbusy : s.busy = true) {e : Event} (he : e ≠ .reset)
    (ht : runEvent e s = .next t) : KeepsRunning s t := by
  cases e with
  | read addr n => cases ht; exact keepsRunning_hostRead addr n s
  | write addr n v => exact keepsRunning_hostWrite hbusy ht
  | reset => exact absurd rfl he
  | lane ch => cases ht; exact keepsRunning_laneComplete ch s

theorem keepsRunning_step {s t : State} (ht : step s = .next t) (hbusy : s.busy = true)
    (hreset : s.agenda.head? ≠ some .reset) : KeepsRunning s t := by
  cases ha : s.agenda with
  | nil =>
    rw [step_nil ha] at ht
    cases ht
    rcases autonomous_cases s with ⟨_, he⟩ | ⟨ch, _, he⟩ <;> rw [he]
    · exact KeepsRunning.refl s
    · exact keepsRunning_laneComplete ch s
  | cons e rest =>
    rw [step_cons ha] at ht
    have he : e ≠ .reset := fun h => hreset (by rw [ha, h]; rfl)
    exact { keepsRunning_runEvent (s := { s with agenda := rest }) hbusy he ht with }

/-- Bit `8 + ch` of `CMDR` selects lane `ch` (30_encoding.md R80, R94). -/
theorem selects_cmdrLanes (s : State) (ch : Lane) : selects s.cmdrLanes ch = s.cmdr.getLsbD (8 + ch.toNat) := by
  cases ch <;> simp [selects, State.cmdrLanes, laneField, Lane.toNat]

/-- Settles O25: the owned bits are those of `CMDR`, and a running lane is an owned one under the invariant. -/
theorem runningCommandReadsConstants : Obligations.RunningCommandReadsConstants := by
  unfold Obligations.RunningCommandReadsConstants
  refine ⟨fun s => ?_, fun s t ht hbusy hreset => ?_⟩
  · have howned : ∀ ch, s.owned ch = (s.busy && s.cmdr.getLsbD (8 + ch.toNat)) := fun ch => by
      rw [State.owned, selects_cmdrLanes]
    exact ⟨howned .l0, howned .l1, howned .l2⟩
  · have hkeep := keepsRunning_step ht hbusy hreset
    refine ⟨hkeep.width, hkeep.height, hkeep.key, hkeep.inv, hkeep.cmdr, hkeep.params, hkeep.len, ?_⟩
    intro hinv ch hrun
    have hselected := hinv.busy_selected ch (hkeep.runs ch hrun)
    exact hkeep.lane ch ((owned_iff s ch).2 ⟨hbusy, hselected⟩) hrun

end Sys2Proof.Machine
end

section
/-! The host port (20_memory.md R50 to R58, R66, R72): a write to `CMD` is its command, what every event leaves on the
agenda, and the statements O4, O5 and O20 from them. -/

namespace Sys2Proof.Machine

/-! ### Writes to `CMD` -/

theorem hostWrite_cmd (w : Word) (s : State) : hostWrite cmdOffset 4 w s = writeCmd w s := by
  have htarget : busTarget s.params cmdOffset 4 = some (.reg .cmd) := busTarget_reg s.params .cmd
  simp only [hostWrite, htarget]

/-- `CMD` is written only by a 32-bit write at its offset (20_memory.md R55). -/
theorem eq_cmdOffset_of_busTarget {p : Params} {addr : Offset} {n : Nat} (h : busTarget p addr n = some (.reg .cmd)) :
    addr = cmdOffset ∧ n = 4 := by
  obtain ⟨hn, haddr⟩ := busTarget_eq_reg h
  exact ⟨BitVec.eq_of_toNat_eq haddr, hn⟩

theorem writeCmd_of_decode {w : Word} {i : Instr} (h : decode w = .ok i) (s : State) : writeCmd w s = exec i s := by
  simp only [writeCmd, h]

theorem decode_of_decodeTableWord {nbits w : Nat} {i : Instr} (h : decodeTableWord nbits w = some i) :
    decode (BitVec.ofNat 32 (w % 2 ^ nbits)) = .ok i := by
  unfold decodeTableWord at h
  split at h
  · split at h
    next j hj => rw [hj, Option.some.inj h]
    next => cases h
  · cases h

/-- Settles O4: a write at the offset of `CMD` is `writeCmd`, which runs the decoded command. -/
theorem stepRunsDecodedCommand : Obligations.StepRunsDecodedCommand := by
  unfold Obligations.StepRunsDecodedCommand
  have hstep : ∀ (s : State) (w : Word) (i : Instr) (rest : List Event), s.agenda = .write cmdOffset 4 w :: rest →
      decode w = .ok i → step s = exec i { s with agenda := rest } := by
    intro s w i rest ha hd
    rw [step_cons ha, runEvent, hostWrite_cmd, writeCmd_of_decode hd]
  exact ⟨hstep, fun s nbits w i h => hstep (s.withFetchWord nbits w) _ i s.agenda rfl (decode_of_decodeTableWord h)⟩

/-! ### The agenda -/

@[simp] theorem staged_agenda (i : Instr) (s : State) : (staged i s).agenda = s.agenda := by
  unfold staged
  split <;> rfl

@[simp] theorem accepted_agenda (i : Instr) (s : State) : (accepted i s).agenda = s.agenda := by cases i <;> rfl

theorem exec_agenda {i : Instr} {s t : State} (ht : exec i s = .next t) : t.agenda = s.agenda := by
  rcases exec_cases i s with ⟨_, he⟩ | ⟨_, _, he⟩ | ⟨info, _, _, _, he⟩ | ⟨_, _, _, _, _, he⟩ | ⟨_, _, _, _, he⟩ <;>
    rw [he] at ht <;> cases ht
  · rfl
  · rfl
  · rfl
  · rfl
  · simp

theorem writeCmd_agenda {w : Word} {s t : State} (ht : writeCmd w s = .next t) : t.agenda = s.agenda := by
  rcases writeCmd_cases w s with ⟨i, _, he⟩ | ⟨_, _, he⟩ | ⟨_, _, he⟩ <;> rw [he] at ht
  · exact exec_agenda ht
  · cases ht; rfl
  · cases ht; rfl

@[simp] theorem storeCells_agenda (k : MemKind) (ch : Lane) (first n : Nat) (v : Word) (s : State) :
    (storeCells k ch first n v s).agenda = s.agenda := setLane_agenda _ _ _

theorem hostWrite_agenda {addr : Offset} {n : Nat} {v : Word} {s t : State} (ht : hostWrite addr n v s = .next t) :
    t.agenda = s.agenda := by
  rcases hostWrite_cases addr n v s with ⟨_, he⟩ | ⟨_, he⟩ | ⟨r, _, _, _, he⟩ | ⟨r, _, _, _, he⟩ |
    ⟨k, ch, i, _, _, he⟩ | ⟨k, ch, i, _, _, he⟩ <;> rw [he] at ht
  · cases ht; rfl
  · exact writeCmd_agenda ht
  · cases ht; rfl
  · cases ht; simp
  · cases ht; rfl
  · cases ht; simp

theorem hostRead_agenda (addr : Offset) (n : Nat) (s : State) : (hostRead addr n s).agenda = s.agenda := by
  rcases hostRead_cases addr n s with ⟨_, he⟩ | ⟨r, _, he⟩ | ⟨k, ch, i, _, _, he⟩ | ⟨k, ch, i, _, _, he⟩ <;>
    rw [he] <;> rfl

theorem hostWrite_next (addr : Offset) (n : Nat) (v : Word) (s : State) : ∃ t, hostWrite addr n v s = .next t := by
  rcases hostWrite_cases addr n v s with ⟨_, he⟩ | ⟨_, he⟩ | ⟨r, _, _, _, he⟩ | ⟨r, _, _, _, he⟩ |
    ⟨k, ch, i, _, _, he⟩ | ⟨k, ch, i, _, _, he⟩ <;> rw [he]
  · exact ⟨_, rfl⟩
  · exact writeCmd_next v s
  · exact ⟨_, rfl⟩
  · exact ⟨_, rfl⟩
  · exact ⟨_, rfl⟩
  · exact ⟨_, rfl⟩

/-- No event faults, is refused, or touches what is still asked of the block. -/
theorem runEvent_next (e : Event) (s : State) : ∃ t, runEvent e s = .next t ∧ t.agenda = s.agenda := by
  cases e with
  | read addr n => exact ⟨_, rfl, hostRead_agenda addr n s⟩
  | write addr n v =>
    obtain ⟨t, ht⟩ := hostWrite_next addr n v s
    exact ⟨t, ht, hostWrite_agenda ht⟩
  | reset => exact ⟨_, rfl, rfl⟩
  | lane ch => exact ⟨_, rfl, (laneComplete_shared ch s).agenda⟩

theorem autonomous_agenda (s : State) : (autonomous s).agenda = s.agenda := by
  rcases autonomous_cases s with ⟨_, he⟩ | ⟨ch, _, he⟩ <;> rw [he]
  exact (laneComplete_shared ch s).agenda

/-- Settles O5, for an empty agenda and for one with a head. -/
theorem stepAlwaysAnswersNext : Obligations.StepAlwaysAnswersNext := by
  unfold Obligations.StepAlwaysAnswersNext
  intro s
  cases ha : s.agenda with
  | nil => exact ⟨_, step_nil ha, by rw [autonomous_agenda, ha]; rfl⟩
  | cons e rest =>
    rw [step_cons ha]
    exact runEvent_next e { s with agenda := rest }

/-- No register shows the agenda. -/
theorem readReg_agenda (s : State) (a : List Event) (r : Reg) : readReg { s with agenda := a } r = readReg s r := by
  cases r <;> rfl

/-- Settles O20. -/
theorem registerReadHasNoSideEffect : Obligations.RegisterReadHasNoSideEffect := by
  unfold Obligations.RegisterReadHasNoSideEffect
  intro s r rest ha
  rw [step_cons ha, runEvent, hostRead_reg, readReg_agenda]
  rfl

end Sys2Proof.Machine
end

section
/-! Bus errors and refused accesses (20_memory.md R51 to R57, 60_exceptions.md R185), and the statement O19. -/

namespace Sys2Proof.Machine

/-! ### Bus errors -/

/-- The aperture slots of the address map are the 16 MiB from each base (20_memory.md R54). -/
theorem inAperture_iff {a : Nat} :
    inAperture a ↔ ∃ (k : MemKind) (ch : Lane) (i : Nat), i < 0x1000000 ∧ a = apertureBase k ch + i := by
  constructor
  · intro h
    have hslot : ∃ k ch, apertureBase k ch ≤ a ∧ a < apertureBase k ch + 0x1000000 := by
      have hcases : a / 0x1000000 ∈ [1, 2, 3, 5, 6, 7] := by
        simp only [inAperture, List.mem_cons, List.not_mem_nil, or_false] at h ⊢
        omega
      have hslots : ∀ q ∈ [1, 2, 3, 5, 6, 7], (apertureSlot q).isSome = true := by decide
      obtain ⟨⟨k, ch⟩, he⟩ := Option.isSome_iff_exists.1 (hslots _ hcases)
      have hbase := apertureSlot_some he
      exact ⟨k, ch, by omega, by omega⟩
    obtain ⟨k, ch, hle, hlt⟩ := hslot
    exact ⟨k, ch, a - apertureBase k ch, by omega, by omega⟩
  · rintro ⟨k, ch, i, hi, rfl⟩
    cases k <;> cases ch <;> simp only [inAperture, apertureBase, Lane.toNat] <;> omega

theorem apertureBase_add_mod (k : MemKind) (ch : Lane) {i : Nat} (hi : i < 0x1000000) :
    (apertureBase k ch + i) % 0x1000000 = i := by
  have hbase : apertureBase k ch % 0x1000000 = 0 := by cases k <;> exact Nat.mul_mod_right _ _
  omega

/-- A transaction that addresses something meets none of the four conditions of a bus error (20_memory.md R57). -/
theorem not_busError_of_busTarget {p : Params} {addr : Offset} {n : Nat} {target : Target}
    (h : busTarget p addr n = some target) : ¬ BusError p addr n := by
  cases target with
  | reg r =>
    obtain ⟨rfl, haddr⟩ := busTarget_eq_reg h
    have hlt := Reg.offset_lt r
    have haligned := Reg.offset_aligned r
    rintro ((hsize | hmis) | (hhole | hhole | ⟨_, hno⟩) | ⟨_, hsize⟩ | ⟨hap, _⟩)
    · omega
    · omega
    · omega
    · omega
    · exact hno r haddr.symm
    · exact hsize rfl
    · simp only [inAperture] at hap; omega
  | cells k ch i =>
    obtain ⟨haddr, hi, hn, haligned, hlast⟩ := busTarget_eq_cells h
    have hap : inAperture addr.toNat := inAperture_iff.2 ⟨k, ch, i, hi, haddr⟩
    have hmod := apertureBase_add_mod k ch hi
    rw [← haddr] at hmod
    simp only [BusError, inAperture] at hap ⊢
    omega

/-- A transaction that meets none of the four conditions addresses a register or cells. -/
theorem busTarget_of_not_busError {p : Params} {addr : Offset} {n : Nat} (h : ¬ BusError p addr n) :
    ∃ target, busTarget p addr n = some target := by
  simp only [BusError, not_or, not_not, not_and] at h
  obtain ⟨⟨hsize, haligned⟩, ⟨hlow, hgap, hreg⟩, hword, hlast⟩ := h
  have hn : n = 1 ∨ n = 2 ∨ n = 4 := by omega
  by_cases hlt : addr.toNat < 0x1000
  · obtain ⟨r, hr⟩ := not_forall_not.1 (hreg hlt)
    have haddr : addr = BitVec.ofNat 27 r.offset := by rw [hr, BitVec.ofNat_toNat, BitVec.setWidth_eq]
    rw [hword hlt, haddr]
    exact ⟨_, busTarget_reg p r⟩
  · have hap : inAperture addr.toNat := by
      have hbound := addr.isLt
      simp only [inAperture]
      omega
    obtain ⟨k, ch, i, hi, heq⟩ := inAperture_iff.1 hap
    have hmod := apertureBase_add_mod k ch hi
    have hin := hlast hap
    have haddr : addr = BitVec.ofNat 27 (apertureBase k ch + i) := by
      rw [← heq, BitVec.ofNat_toNat, BitVec.setWidth_eq]
    rw [← heq] at hmod
    have hcell : i % n = 0 := by rcases hn with rfl | rfl | rfl <;> omega
    rw [haddr]
    exact ⟨_, busTarget_cells p k ch hn hcell hi (by omega)⟩

/-- The machine's bus errors are those of the rule's four conditions (20_memory.md R57). -/
theorem busTarget_eq_none_iff {p : Params} {addr : Offset} {n : Nat} :
    busTarget p addr n = none ↔ BusError p addr n := by
  constructor
  · intro h
    by_contra hno
    obtain ⟨target, ht⟩ := busTarget_of_not_busError hno
    rw [h] at ht
    cases ht
  · intro h
    cases ht : busTarget p addr n with
    | none => rfl
    | some target => exact absurd h (not_busError_of_busTarget ht)

/-! ### Which accesses are answered `ERR` -/

/-- A command is answered `OK` by an idle block, accepted or rejected (42_layer_pipeline.md R150). -/
theorem exec_idle_response {i : Instr} {s t : State} (hidle : s.busy = false) (ht : exec i s = .next t) :
    t.response = some .ok := by
  rcases exec_cases i s with ⟨hbusy, _⟩ | ⟨_, _, he⟩ | ⟨info, _, _, _, he⟩ | ⟨_, _, _, _, _, he⟩ | ⟨_, _, _, _, he⟩
  · rw [hidle] at hbusy; cases hbusy
  · rw [he] at ht; cases ht; rfl
  · rw [he] at ht; cases ht; rfl
  · rw [he] at ht; cases ht; rfl
  · rw [he] at ht; cases ht; cases i <;> rfl

theorem writeCmd_idle_response {w : Word} {s t : State} (hidle : s.busy = false) (ht : writeCmd w s = .next t) :
    t.response = some .ok := by
  rcases writeCmd_cases w s with ⟨i, _, he⟩ | ⟨_, hbusy, _⟩ | ⟨_, _, he⟩
  · rw [he] at ht; exact exec_idle_response hidle ht
  · rw [hidle] at hbusy; cases hbusy
  · rw [he] at ht; cases ht; rfl

theorem busy_of_owned {s : State} {ch : Lane} (h : s.owned ch = true) : s.busy = true := ((owned_iff s ch).1 h).1

/-- A read that is no bus error is answered `ERR` only as a refused access (60_exceptions.md R185). -/
theorem busy_of_hostRead_err {addr : Offset} {n : Nat} {s : State} (hbus : ¬ BusError s.params addr n)
    (herr : (hostRead addr n s).response = some .err) :
    s.busy = true ∧ (hostRead addr n s).flags.errBusy = true := by
  rcases hostRead_cases addr n s with ⟨ht, _⟩ | ⟨r, _, he⟩ | ⟨k, ch, i, _, howned, he⟩ | ⟨k, ch, i, _, _, he⟩
  · exact absurd (busTarget_eq_none_iff.1 ht) hbus
  · rw [he] at herr; cases herr
  · rw [he]; exact ⟨busy_of_owned howned, rfl⟩
  · rw [he] at herr; cases herr

/-- A write that is no bus error is answered `ERR` only as a refused access or a command written while busy
(60_exceptions.md R184, R185). -/
theorem busy_of_hostWrite_err {addr : Offset} {n : Nat} {v : Word} {s t : State} (hbus : ¬ BusError s.params addr n)
    (ht : hostWrite addr n v s = .next t) (herr : t.response = some .err) : s.busy = true ∧ t.flags.errBusy = true := by
  rcases hostWrite_cases addr n v s with ⟨hnone, _⟩ | ⟨_, he⟩ | ⟨r, _, _, hlock, he⟩ | ⟨r, _, _, _, he⟩ |
    ⟨k, ch, i, _, howned, he⟩ | ⟨k, ch, i, _, _, he⟩
  · exact absurd (busTarget_eq_none_iff.1 hnone) hbus
  · rw [he] at ht
    cases hbusy : s.busy with
    | false => rw [writeCmd_idle_response hbusy ht] at herr; cases herr
    | true => rw [writeCmd_busy hbusy] at ht; cases ht; exact ⟨rfl, rfl⟩
  · rw [he] at ht; cases ht; exact ⟨(locked_of_writeLocked hlock).1, rfl⟩
  · rw [he] at ht; cases ht; cases herr
  · rw [he] at ht; cases ht; exact ⟨busy_of_owned howned, rfl⟩
  · rw [he] at ht; cases ht; cases herr

/-- Settles O19: the four conditions are exactly those under which nothing is addressed. -/
theorem busErrorsChangeNothing : Obligations.BusErrorsChangeNothing := by
  unfold Obligations.BusErrorsChangeNothing
  refine ⟨fun s addr n v h => ?_, fun s addr n h => ⟨busy_of_hostRead_err h, fun v t => busy_of_hostWrite_err h⟩⟩
  have hnone := busTarget_eq_none_iff.2 h
  simp only [hostWrite, hostRead, hnone]
  exact ⟨rfl, rfl⟩

end Sys2Proof.Machine
end

section
/-! Reads and writes of lane memories through their apertures (20_memory.md R52 to R56, 70_reset_and_hazards.md R220),
and the statements O21 and O22. -/

namespace Sys2Proof.Machine

/-! ### Little-endian values -/

theorem Memory.readLE_lt (m : Memory) (i n : Nat) : m.readLE i n < 256 ^ n := by
  induction n generalizing i with
  | zero => simp [Memory.readLE]
  | succ n ih =>
    have hcell := (m.read i).isLt
    have hrest := ih (i + 1)
    simp only [Memory.readLE, Nat.pow_succ]
    omega

/-- Byte `j` of the stored bytes is digit `j` of the value in base 256 (20_memory.md R52). -/
theorem bytesLE_getD_toNat {n j : Nat} (v : Word) (hj : j < n) :
    ((bytesLE v n).getD j 0#8).toNat = v.toNat / 256 ^ j % 256 := by
  induction n generalizing v j with
  | zero => omega
  | succ n ih =>
    cases j with
    | zero => simp [bytesLE]
    | succ j =>
      rw [bytesLE, List.getD_cons_succ, ih (v >>> 8) (by omega), BitVec.toNat_ushiftRight,
        Nat.shiftRight_eq_div_pow, Nat.div_div_eq_div_mul, ← Nat.pow_succ']

/-! ### Cells on the bus -/

/-- A read of cells of a lane that is not owned is answered with their value (20_memory.md R56). -/
theorem hostRead_cells {s : State} {k : MemKind} {ch : Lane} {i n : Nat} (hn : n = 1 ∨ n = 2 ∨ n = 4) (ha : i % n = 0)
    (hi : i < 0x1000000) (hl : i + n ≤ s.params.lmax) (hfree : s.owned ch = false) :
    hostRead (BitVec.ofNat 27 (apertureBase k ch + i)) n s =
      s.respond (.value (BitVec.ofNat 32 (((s.lane ch).mem k).readLE i n))) := by
  simp only [hostRead, busTarget_cells s.params k ch hn ha hi hl, hfree]
  rfl

theorem hostWrite_cells {s : State} {k : MemKind} {ch : Lane} {i n : Nat} (hn : n = 1 ∨ n = 2 ∨ n = 4) (ha : i % n = 0)
    (hi : i < 0x1000000) (hl : i + n ≤ s.params.lmax) (hfree : s.owned ch = false) (v : Word) :
    hostWrite (BitVec.ofNat 27 (apertureBase k ch + i)) n v s = .next ((storeCells k ch i n v s).respond .ok) := by
  simp only [hostWrite, busTarget_cells s.params k ch hn ha hi hl, hfree]
  rfl

/-- Settles O21, size by size. -/
theorem apertureReadIsLittleEndian : Obligations.ApertureReadIsLittleEndian := by
  unfold Obligations.ApertureReadIsLittleEndian
  intro s k ch i n hn ha hl hi hfree
  refine ⟨_, hostRead_cells hn ha hi hl hfree, ?_⟩
  have hlt := ((s.lane ch).mem k).readLE_lt i n
  have hword : 256 ^ n ≤ 2 ^ 32 := by rcases hn with rfl | rfl | rfl <;> decide
  rw [BitVec.toNat_ofNat, Nat.mod_eq_of_lt (by omega)]
  rcases hn with rfl | rfl | rfl
  · simp [Memory.readLE, State.cell]
  · simp [Memory.readLE, State.cell]
  · simp only [Memory.readLE, State.cell, Nat.add_assoc, Nat.reduceAdd, Nat.reduceLeDiff, if_true]
    omega

/-! ### What a store leaves -/

@[simp] theorem respond_cell (r : Response) (s : State) (k : MemKind) (ch : Lane) (i : Nat) :
    (s.respond r).cell k ch i = s.cell k ch i := by simp only [State.cell, respond_lane]

/-- Inside the stored cells, the byte stored there. -/
theorem storeCells_cell_same (k : MemKind) (ch : Lane) (first n : Nat) (v : Word) (s : State) {j : Nat} (hj : j < n) :
    (storeCells k ch first n v s).cell k ch (first + j) = (bytesLE v n).getD j 0#8 := by
  have hin : first ≤ first + j ∧ first + j < first + (bytesLE v n).length := by rw [bytesLE_length]; omega
  simp only [State.cell, storeCells, setLane_lane_same, setMem_mem_same, Memory.read_writeBytes]
  rw [if_pos hin, Nat.add_sub_cancel_left]

/-- Outside the stored cells, every cell of every memory is as before. -/
theorem storeCells_cell_other {k k' : MemKind} {ch ch' : Lane} {first n i : Nat}
    (h : ¬ (k' = k ∧ ch' = ch ∧ first ≤ i ∧ i < first + n)) (v : Word) (s : State) :
    (storeCells k ch first n v s).cell k' ch' i = s.cell k' ch' i := by
  simp only [State.cell, storeCells]
  by_cases hch : ch' = ch
  · subst hch
    rw [setLane_lane_same]
    by_cases hk : k' = k
    · subst hk
      have hout : ¬ (first ≤ i ∧ i < first + (bytesLE v n).length) := by
        rw [bytesLE_length]
        exact fun hin => h ⟨rfl, rfl, hin⟩
      rw [setMem_mem_same, Memory.read_writeBytes, if_neg hout]
    · rw [setMem_mem_other _ _ hk]
  · rw [setLane_lane_other _ _ hch]

/-- A store of cells is seen in no register (70_reset_and_hazards.md R220). -/
theorem readReg_storeCells (k : MemKind) (ch : Lane) (first n : Nat) (v : Word) (s : State) (r : Reg) :
    readReg (storeCells k ch first n v s) r = readReg s r :=
  readReg_setLane s (setMem_lbusy _ _ _) (setMem_degraded _ _ _) (setMem_dropped _ _ _) (fun _ => setMem_len _ _ _)
    (fun _ => setMem_sklen _ _ _)

/-- Settles O22, from what a store leaves inside and outside its cells. -/
theorem apertureWriteStoresBytes : Obligations.ApertureWriteStoresBytes := by
  unfold Obligations.ApertureWriteStoresBytes
  intro s k ch i n v hn ha hl hi hfree
  refine ⟨_, hostWrite_cells hn ha hi hl hfree v, fun j hj => ?_, fun k' ch' i' hout => ?_, fun r => ?_,
    setLane_flags _ _ _, rfl, setLane_params _ _ _, setLane_draws _ _ _, setLane_agenda _ _ _⟩
  · rw [respond_cell, storeCells_cell_same k ch i n v s hj, bytesLE_getD_toNat v hj]
  · rw [respond_cell, storeCells_cell_other hout]
  · rw [readReg_respond, readReg_storeCells]

end Sys2Proof.Machine
end

section
/-! When lanes start and in which order they complete (20_memory.md R68, R73; 42_layer_pipeline.md R153, R156, R163),
and the statements O26 and O53. -/

namespace Sys2Proof.Machine

/-! ### Which events start a lane -/

theorem keyStage_lane (s : State) (ch : Lane) : (keyStage s).lane ch = s.lane ch := by cases ch <;> rfl

/-- A command that is not accepted leaves every lane as it was; an accepted one is latched in `CMDR`
(42_layer_pipeline.md R150, R153). -/
theorem exec_lane_or_cmdr {i : Instr} {s t : State} (ht : exec i s = .next t) :
    (∀ ch, t.lane ch = s.lane ch) ∨ (s.busy = false ∧ t.cmdr = encode i) := by
  rcases exec_cases i s with ⟨_, he⟩ | ⟨_, _, he⟩ | ⟨info, _, _, _, he⟩ | ⟨_, _, _, _, _, he⟩ |
    ⟨hidle, _, _, _, he⟩ <;> rw [he] at ht <;> cases ht
  · exact .inl fun ch => by simp
  · exact .inl fun ch => by simp
  · exact .inl fun ch => by simp
  · exact .inl fun ch => by rw [respond_lane, raiseError_lane, keyStage_lane]
  · exact .inr ⟨hidle, by cases i <;> rfl⟩

theorem writeCmd_lane_or_cmdr {w : Word} {s t : State} (ht : writeCmd w s = .next t) :
    (∀ ch, t.lane ch = s.lane ch) ∨ (s.busy = false ∧ t.cmdr = w) := by
  rcases writeCmd_cases w s with ⟨i, hd, he⟩ | ⟨_, _, he⟩ | ⟨_, _, he⟩ <;> rw [he] at ht
  · rw [← encode_of_decode hd]; exact exec_lane_or_cmdr ht
  · cases ht; exact .inl fun ch => by simp
  · cases ht; exact .inl fun ch => by simp

/-- A change of one lane that keeps its `LBUSY` bit keeps every lane's. -/
theorem setLane_lbusy {s : State} {ch : Lane} {l : LaneState} (h : l.lbusy = (s.lane ch).lbusy) (c : Lane) :
    ((s.setLane ch l).lane c).lbusy = (s.lane c).lbusy := by
  rw [setLane_lane]
  split
  next hc => rw [h, hc]
  next => rfl

theorem writeReg_lbusy (r : Reg) (w : Word) (s : State) (c : Lane) :
    ((writeReg r w s).lane c).lbusy = (s.lane c).lbusy := by
  cases r with
  | len ch | sklen ch => exact setLane_lbusy (by rfl) c
  | _ => rfl

/-- Of all host writes, only one to `CMD` can change an `LBUSY` bit. -/
theorem hostWrite_lbusy_or_cmd {addr : Offset} {n : Nat} {v : Word} {s t : State}
    (ht : hostWrite addr n v s = .next t) :
    (∀ ch, (t.lane ch).lbusy = (s.lane ch).lbusy) ∨ (addr = cmdOffset ∧ n = 4 ∧ writeCmd v s = .next t) := by
  rcases hostWrite_cases addr n v s with ⟨_, he⟩ | ⟨hcmd, he⟩ | ⟨r, _, _, _, he⟩ | ⟨r, _, _, _, he⟩ |
    ⟨k, ch, i, _, _, he⟩ | ⟨k, ch, i, _, _, he⟩ <;> rw [he] at ht
  · cases ht; exact .inl fun c => by simp
  · obtain ⟨haddr, hn⟩ := eq_cmdOffset_of_busTarget hcmd
    exact .inr ⟨haddr, hn, ht⟩
  · cases ht; exact .inl fun c => by simp [refuseLocked]
  · cases ht; exact .inl fun c => by rw [respond_lane, writeReg_lbusy]
  · cases ht; exact .inl fun c => by simp [refuseLocked]
  · cases ht; exact .inl fun c => by rw [respond_lane]; exact setLane_lbusy (setMem_lbusy _ _ _) c

/-- An event that starts a lane is the acceptance of a command on an idle block (20_memory.md R73). -/
theorem runEvent_starts_lane {e : Event} {s t : State} {ch : Lane} (ht : runEvent e s = .next t)
    (hoff : (s.lane ch).lbusy = false) (hon : (t.lane ch).lbusy = true) :
    s.busy = false ∧ ∃ w, e = .write cmdOffset 4 w ∧ t.cmdr = w ∧ t.response = some .ok := by
  have hstarted : ¬ ((t.lane ch).lbusy = true → (s.lane ch).lbusy = true) := by simp [hoff, hon]
  cases e with
  | read addr n => cases ht; exact absurd ((keepsRunning_hostRead addr n s).runs ch) hstarted
  | write addr n w =>
    rcases hostWrite_lbusy_or_cmd ht with hsame | ⟨rfl, rfl, hcmd⟩
    · exact absurd (hsame ch ▸ id) hstarted
    · rcases writeCmd_lane_or_cmdr hcmd with hsame | ⟨hidle, hlatched⟩
      · exact absurd (hsame ch ▸ id) hstarted
      · exact ⟨hidle, w, rfl, hlatched, writeCmd_idle_response hidle hcmd⟩
  | reset =>
    cases ht
    rw [lane_idle (s := resetBlock s) rfl ch] at hon
    cases hon
  | lane c => cases ht; exact absurd ((keepsRunning_laneComplete c s).runs ch) hstarted

/-- Settles O26: the block's own step completes lanes and starts none, so the step is an event. -/
theorem laneStartsOnlyByAcceptance : Obligations.LaneStartsOnlyByAcceptance := by
  unfold Obligations.LaneStartsOnlyByAcceptance
  intro s t ch ht hoff hon
  cases ha : s.agenda with
  | nil =>
    rw [step_nil ha] at ht
    cases ht
    rcases autonomous_cases s with ⟨_, he⟩ | ⟨c, _, he⟩ <;> rw [he] at hon
    · rw [hoff] at hon; cases hon
    · have hran := (keepsRunning_laneComplete c s).runs ch hon
      rw [hoff] at hran; cases hran
  | cons e rest =>
    rw [step_cons ha] at ht
    obtain ⟨hidle, w, rfl, hcmdr, hok⟩ := runEvent_starts_lane (s := { s with agenda := rest }) ht hoff hon
    exact ⟨hidle, w, rest, rfl, hcmdr, hok⟩

/-! ### The order of completion -/

theorem SharedUnchanged.trans {s t u : State} (h : SharedUnchanged s t) (h' : SharedUnchanged t u) :
    SharedUnchanged s u :=
  ⟨h'.params.trans h.params, h'.ctrl.trans h.ctrl, h'.errKey.trans h.errKey, h'.errDim.trans h.errDim,
   h'.errCmd.trans h.errCmd, h'.errBusy.trans h.errBusy, h'.cmdr.trans h.cmdr, h'.cause.trans h.cause,
   h'.einfo.trans h.einfo, h'.width.trans h.width, h'.height.trans h.height, h'.key.trans h.key,
   h'.inv.trans h.inv, h'.response.trans h.response, h'.draws.trans h.draws, h'.agenda.trans h.agenda⟩

/-- Two states that lane steps reach from one state are equal if their lanes, `DONE` and `DEGR` are. -/
theorem SharedUnchanged.eq_of {s t u : State} (h : SharedUnchanged s t) (h' : SharedUnchanged s u)
    (hlanes : ∀ ch, t.lane ch = u.lane ch) (hdone : t.flags.done = u.flags.done) (hdegr : t.flags.degr = u.flags.degr) :
    t = u := by
  have hflags : t.flags = u.flags := by
    rw [Flags.mk.injEq]
    exact ⟨hdone, hdegr, h.errKey.trans h'.errKey.symm, h.errDim.trans h'.errDim.symm,
      h.errCmd.trans h'.errCmd.symm, h.errBusy.trans h'.errBusy.symm⟩
  exact State.eq_of_fields (h.params.trans h'.params.symm) (h.ctrl.trans h'.ctrl.symm) hflags
    (h.cmdr.trans h'.cmdr.symm) (h.cause.trans h'.cause.symm) (h.einfo.trans h'.einfo.symm)
    (h.width.trans h'.width.symm) (h.height.trans h'.height.symm) (h.key.trans h'.key.symm)
    (h.inv.trans h'.inv.symm) hlanes (h.response.trans h'.response.symm) (h.draws.trans h'.draws.symm)
    (h.agenda.trans h'.agenda.symm)

/-- Another lane's completion step changes nothing that a lane transform reads (42_layer_pipeline.md R160). -/
theorem laneTransform_laneComplete {ch c : Lane} (h : c ≠ ch) (s : State) :
    laneTransform (laneComplete ch s) c = laneTransform s c :=
  have hshared := laneComplete_shared ch s
  laneTransform_congr (laneComplete_lane_other s h) hshared.cmdr (congrArg Params.rev hshared.params) hshared.width
    hshared.height hshared.key hshared.inv

/-- `DONE` rises with the step after which no lane runs (42_layer_pipeline.md R157). -/
theorem laneComplete_done {ch : Lane} {s : State} (h : (s.lane ch).lbusy = true) :
    (laneComplete ch s).flags.done = (s.flags.done || !(laneComplete ch s).busy) := by
  rw [laneComplete_running h]
  rfl

section TwoLanes

variable {ch c : Lane} {s : State}

/-- The lanes after two running lanes complete: each by its own transform. -/
theorem laneComplete_laneComplete_lane (h : c ≠ ch) (hch : (s.lane ch).lbusy = true) (hc : (s.lane c).lbusy = true)
    (x : Lane) : (laneComplete c (laneComplete ch s)).lane x =
      if x = c then (laneTransform s c).finish else if x = ch then (laneTransform s ch).finish else s.lane x := by
  have hc' : ((laneComplete ch s).lane c).lbusy = true := by rwa [laneComplete_lane_other s h]
  split
  next hx => rw [hx, laneComplete_lane_same hc', laneTransform_laneComplete h]
  next hx =>
    rw [laneComplete_lane_other _ hx]
    split
    next hx' => rw [hx', laneComplete_lane_same hch]
    next hx' => rw [laneComplete_lane_other _ hx']

theorem laneComplete_laneComplete_degr (h : c ≠ ch) (hch : (s.lane ch).lbusy = true) (hc : (s.lane c).lbusy = true) :
    (laneComplete c (laneComplete ch s)).flags.degr =
      (s.flags.degr || (laneTransform s ch).degrades || (laneTransform s c).degrades) := by
  have hc' : ((laneComplete ch s).lane c).lbusy = true := by rwa [laneComplete_lane_other s h]
  rw [laneComplete_degr hc', laneComplete_degr hch, laneTransform_laneComplete h]

/-- The first of two steps cannot set `DONE`: the other lane still runs. -/
theorem laneComplete_laneComplete_done (h : c ≠ ch) (hch : (s.lane ch).lbusy = true) (hc : (s.lane c).lbusy = true) :
    (laneComplete c (laneComplete ch s)).flags.done =
      (s.flags.done || !(laneComplete c (laneComplete ch s)).busy) := by
  have hc' : ((laneComplete ch s).lane c).lbusy = true := by rwa [laneComplete_lane_other s h]
  rw [laneComplete_done hc', laneComplete_done hch, busy_of_lane hc']
  simp

end TwoLanes

theorem busy_congr {s t : State} (h : ∀ ch, s.lane ch = t.lane ch) : s.busy = t.busy := by
  rw [Bool.eq_iff_iff, busy_iff, busy_iff]
  simp only [h]

/-- The completion steps of two lanes commute, enabled or not (42_layer_pipeline.md R163). -/
theorem laneComplete_comm (ch c : Lane) (s : State) :
    laneComplete c (laneComplete ch s) = laneComplete ch (laneComplete c s) := by
  by_cases h : c = ch
  · rw [h]
  have h' : ch ≠ c := Ne.symm h
  cases hch : (s.lane ch).lbusy with
  | false =>
    rw [laneComplete_idle hch, laneComplete_idle (s := laneComplete c s) (by rwa [laneComplete_lane_other s h'])]
  | true =>
    cases hc : (s.lane c).lbusy with
    | false =>
      rw [laneComplete_idle hc, laneComplete_idle (s := laneComplete ch s) (by rwa [laneComplete_lane_other s h])]
    | true =>
      have hlanes : ∀ x, (laneComplete c (laneComplete ch s)).lane x = (laneComplete ch (laneComplete c s)).lane x := by
        intro x
        rw [laneComplete_laneComplete_lane h hch hc, laneComplete_laneComplete_lane h' hc hch]
        by_cases hx : x = c
        · subst hx; rw [if_pos rfl, if_neg h, if_pos rfl]
        · rw [if_neg hx, if_neg hx]
      refine SharedUnchanged.eq_of (s := s) ((laneComplete_shared ch s).trans (laneComplete_shared c _))
        ((laneComplete_shared c s).trans (laneComplete_shared ch _)) hlanes ?_ ?_
      · rw [laneComplete_laneComplete_done h hch hc, laneComplete_laneComplete_done h' hc hch, busy_congr hlanes]
      · rw [laneComplete_laneComplete_degr h hch hc, laneComplete_laneComplete_degr h' hc hch, Bool.or_right_comm]

/-- Settles O53: completion steps commute, so a fold of them is the same over every permutation. -/
theorem laneOrderIsUnobservable : Obligations.LaneOrderIsUnobservable := by
  unfold Obligations.LaneOrderIsUnobservable
  intro s order order' hperm
  exact hperm.foldl_eq' (fun ch _ c _ s => laneComplete_comm ch c s) s

end Sys2Proof.Machine
end

section
/-! The encoding (30_encoding.md R80 to R91, 60_exceptions.md R183): the decoder undoes the encoder, which words are
legal by their fields, and the statements O1, O2, O3 and O32 from them. -/

namespace Sys2Proof.Machine

/-! ### Decoder and encoder -/

/-- Only a lane command can be ill-formed, and only by its mask (30_encoding.md R81, R86). -/
theorem wellFormed_iff (i : Instr) : i.wellFormed = true ↔ i.opcode = .keyInv ∨ i.lanes ≠ 0#3 := by
  cases i <;> simp [Instr.wellFormed, Instr.opcode, Instr.lanes]

@[simp] theorem opcodeByte_inj {o o' : Opcode} : opcodeByte o = opcodeByte o' ↔ o = o' := by
  refine ⟨fun h => ?_, congrArg opcodeByte⟩
  have hsome : some o = some o' := by rw [← opcodeOf_opcodeByte o, h, opcodeOf_opcodeByte]
  exact Option.some.inj hsome

/-- The decoder undoes the encoder on well-formed commands (30_encoding.md R89). -/
theorem decode_encode {i : Instr} (hw : i.wellFormed = true) : decode (encode i) = .ok i := by
  rw [wellFormed_iff] at hw
  simp only [decode, mbzField_encode, absentLaneField_encode, opField_encode, laneField_encode, opcodeOf_opcodeByte,
    ne_eq, not_true_eq_false, if_false]
  cases i with
  | keyInv => rfl
  | _ m =>
    have hm : m ≠ 0#3 := hw.resolve_left (by simp [Instr.opcode])
    exact if_neg hm

theorem decode_eq_ok_iff {w : Word} {i : Instr} : decode w = .ok i ↔ i.wellFormed = true ∧ encode i = w := by
  constructor
  · intro h
    obtain ⟨_, _, _, _, hw⟩ := decode_fields h
    exact ⟨hw, encode_of_decode h⟩
  · rintro ⟨hw, rfl⟩
    exact decode_encode hw

/-- Settles O2: what a word decodes to fixes its fields, and the decoder undoes the encoder. -/
theorem decodeEncodeAgree : Obligations.DecodeEncodeAgree := fun _ _ => decode_eq_ok_iff

/-- Settles O1: each sample word is the encoding of its well-formed command, and each illegal one is rejected for the
condition of R86 that is named. -/
theorem sampleWordsDecode : Obligations.SampleWordsDecode := by
  unfold Obligations.SampleWordsDecode
  simp only [decode_eq_ok_iff, List.forall_mem_cons]
  refine ⟨by decide, by decide, by decide, by decide, by decide, by decide, by decide, ?_⟩
  exact ⟨⟨.unknownOpcode, rfl⟩, ⟨.emptyLaneMask, rfl⟩, ⟨.keyInvWithLanes, rfl⟩, ⟨.absentLane, rfl⟩,
    ⟨.reservedBits, rfl⟩, ⟨.unknownOpcode, rfl⟩, ⟨.unknownOpcode, rfl⟩, ⟨.reservedBits, rfl⟩, by simp⟩

/-! ### Ill-formed commands -/

/-- The word of an ill-formed command is the word of no well-formed one, since it has that command's opcode and mask. -/
theorem not_decode_encode {i : Instr} (hw : i.wellFormed = false) : ¬ ∃ j, decode (encode i) = .ok j := by
  rintro ⟨j, hj⟩
  obtain ⟨_, _, hlanes, hop, hwj⟩ := decode_fields hj
  rw [laneField_encode] at hlanes
  rw [opField_encode, opcodeByte_inj] at hop
  rw [wellFormed_iff, ← hlanes, ← hop, ← wellFormed_iff, hw] at hwj
  cases hwj

/-- Settles O32: an idle block raises the error on the command's word, and that word decodes to nothing. -/
theorem emptyLaneMaskIsIllegal : Obligations.EmptyLaneMaskIsIllegal := by
  intro s i hidle hw
  refine ⟨?_, not_decode_encode hw⟩
  rcases exec_cases i s with ⟨hbusy, _⟩ | ⟨_, _, he⟩ | ⟨_, _, hw', _⟩ | ⟨_, hw', _⟩ | ⟨_, hw', _⟩
  · rw [hidle] at hbusy; cases hbusy
  · exact he
  all_goals rw [hw] at hw'; cases hw'

/-! ### Legal words -/

/-- The opcode bytes of the lane commands (30_encoding.md R82, format L). -/
def laneOpcodes : List Byte := [0x10#8, 0x11#8, 0x20#8, 0x21#8, 0x30#8, 0x31#8]

/-- Every lane opcode byte with every mask is a command's. -/
theorem exists_command_of_mem_laneOpcodes {b : Byte} (hb : b ∈ laneOpcodes) (m : LaneMask) :
    ∃ i : Instr, opcodeByte i.opcode = b ∧ i.lanes = m := by
  simp only [laneOpcodes, List.mem_cons, List.not_mem_nil, or_false] at hb
  rcases hb with rfl | rfl | rfl | rfl | rfl | rfl
  · exact ⟨.permFwd m, rfl, rfl⟩
  · exact ⟨.permRev m, rfl, rfl⟩
  · exact ⟨.lbcEmb m, rfl, rfl⟩
  · exact ⟨.lbcExt m, rfl, rfl⟩
  · exact ⟨.wmEmb m, rfl, rfl⟩
  · exact ⟨.wmExt m, rfl, rfl⟩

/-- A well-formed command is `KEY.INV`, or has a lane opcode and a non-empty mask (30_encoding.md R82). -/
theorem opcode_lanes_of_wellFormed {i : Instr} (hw : i.wellFormed = true) :
    (opcodeByte i.opcode = 0x01#8 ∧ i.lanes = 0#3) ∨ (opcodeByte i.opcode ∈ laneOpcodes ∧ i.lanes ≠ 0#3) := by
  rw [wellFormed_iff] at hw
  cases i with
  | keyInv => exact .inl ⟨rfl, rfl⟩
  | _ m => exact .inr ⟨by simp [Instr.opcode, opcodeByte, laneOpcodes], hw.resolve_left (by simp [Instr.opcode])⟩

/-- Which words are legal, by their fields (30_encoding.md R86). -/
theorem exists_decode_iff (w : Word) : (∃ i, decode w = .ok i) ↔
    mbzField w = 0#16 ∧ absentLaneField w = 0#5 ∧
      ((opField w = 0x01#8 ∧ laneField w = 0#3) ∨ (opField w ∈ laneOpcodes ∧ laneField w ≠ 0#3)) := by
  constructor
  · rintro ⟨i, hi⟩
    obtain ⟨hmbz, habs, hlanes, hop, hw⟩ := decode_fields hi
    exact ⟨hmbz, habs, by rw [hlanes, hop]; exact opcode_lanes_of_wellFormed hw⟩
  · rintro ⟨hmbz, habs, hrow⟩
    have hcommand : ∃ i : Instr, i.wellFormed = true ∧ opcodeByte i.opcode = opField w ∧ i.lanes = laneField w := by
      rcases hrow with ⟨hop, hlanes⟩ | ⟨hop, hlanes⟩
      · exact ⟨.keyInv, rfl, hop.symm, hlanes.symm⟩
      · obtain ⟨i, hi, him⟩ := exists_command_of_mem_laneOpcodes hop (laneField w)
        exact ⟨i, (wellFormed_iff i).2 (.inr (him ▸ hlanes)), hi, him⟩
    obtain ⟨i, hw, hop, hlanes⟩ := hcommand
    refine ⟨i, decode_eq_ok_iff.2 ⟨hw, word_ext ?_ ?_ ?_ ?_⟩⟩
    · rw [mbzField_encode, hmbz]
    · rw [absentLaneField_encode, habs]
    · rw [laneField_encode, hlanes]
    · rw [opField_encode, hop]

/-- The `KEY.INV` word by its fields (30_encoding.md R82). -/
theorem eq_keyInvWord_iff (w : Word) :
    w = 0x00000001#32 ↔ mbzField w = 0#16 ∧ absentLaneField w = 0#5 ∧ laneField w = 0#3 ∧ opField w = 0x01#8 := by
  constructor
  · rintro rfl; decide
  · rintro ⟨hmbz, habs, hlanes, hop⟩
    exact word_ext hmbz habs hlanes hop

/-- A mask keeps every field in which all its bits are ones. -/
theorem extractLsb'_and_of_ones (w : Word) {mask : Word} {start len : Nat}
    (hmask : mask.extractLsb' start len = BitVec.allOnes len) :
    (w &&& mask).extractLsb' start len = w.extractLsb' start len := by
  rw [BitVec.extractLsb'_and, hmask, BitVec.and_allOnes]

/-- Clearing bits 10:8 of a word clears its lane field and keeps the other three (30_encoding.md R80). -/
theorem clearLanes_eq_iff (w : Word) (b : Byte) : w &&& 0xFFFFF8FF#32 = b.setWidth 32 ↔
    mbzField w = 0#16 ∧ absentLaneField w = 0#5 ∧ opField w = b := by
  have hmbz : mbzField (w &&& 0xFFFFF8FF#32) = mbzField w := extractLsb'_and_of_ones w (by decide)
  have habs : absentLaneField (w &&& 0xFFFFF8FF#32) = absentLaneField w := extractLsb'_and_of_ones w (by decide)
  have hlanes : laneField (w &&& 0xFFFFF8FF#32) = 0#3 := by simp [laneField, BitVec.extractLsb'_and]
  have hop : opField (w &&& 0xFFFFF8FF#32) = opField w := extractLsb'_and_of_ones w (by decide)
  have hb : mbzField (b.setWidth 32) = 0#16 ∧ absentLaneField (b.setWidth 32) = 0#5 ∧
      laneField (b.setWidth 32) = 0#3 ∧ opField (b.setWidth 32) = b := by revert b; decide
  obtain ⟨hbm, hba, hbl, hbo⟩ := hb
  constructor
  · intro h
    rw [← hmbz, ← habs, ← hop, h]
    exact ⟨hbm, hba, hbo⟩
  · rintro ⟨h1, h2, h3⟩
    exact word_ext (by rw [hmbz, hbm, h1]) (by rw [habs, hba, h2]) (by rw [hlanes, hbl]) (by rw [hop, hbo, h3])

/-- The rows of format L by fields (30_encoding.md R82). -/
theorem clearLanes_mem_iff (w : Word) :
    w &&& 0xFFFFF8FF#32 ∈ [0x10#32, 0x11#32, 0x20#32, 0x21#32, 0x30#32, 0x31#32] ↔
      mbzField w = 0#16 ∧ absentLaneField w = 0#5 ∧ opField w ∈ laneOpcodes := by
  have hrows : [0x10#32, 0x11#32, 0x20#32, 0x21#32, 0x30#32, 0x31#32] = laneOpcodes.map (BitVec.setWidth 32) := by
    decide
  rw [hrows, List.mem_map]
  constructor
  · rintro ⟨b, hb, hw⟩
    obtain ⟨hmbz, habs, hop⟩ := (clearLanes_eq_iff w b).1 hw.symm
    exact ⟨hmbz, habs, hop ▸ hb⟩
  · rintro ⟨hmbz, habs, hop⟩
    exact ⟨opField w, hop, ((clearLanes_eq_iff w _).2 ⟨hmbz, habs, rfl⟩).symm⟩

/-- The legal words as rows of the opcode table (30_encoding.md R82, R86). -/
theorem exists_decode_iff_row (w : Word) : (∃ i, decode w = .ok i) ↔
    w = 0x00000001#32 ∨
      (w &&& 0xFFFFF8FF#32 ∈ [0x10#32, 0x11#32, 0x20#32, 0x21#32, 0x30#32, 0x31#32] ∧ laneField w ≠ 0#3) := by
  rw [exists_decode_iff, eq_keyInvWord_iff, clearLanes_mem_iff]
  tauto

/-- The illegal words by the five conditions (30_encoding.md R86). -/
theorem not_exists_decode_iff (w : Word) : (¬ ∃ i, decode w = .ok i) ↔
    mbzField w ≠ 0#16 ∨ absentLaneField w ≠ 0#5 ∨ opField w ∉ 0x01#8 :: laneOpcodes ∨
      (opField w = 0x01#8 ∧ laneField w ≠ 0#3) ∨ (opField w ∈ laneOpcodes ∧ laneField w = 0#3) := by
  have hdisjoint : opField w = 0x01#8 → opField w ∉ laneOpcodes := fun h => by rw [h]; decide
  rw [exists_decode_iff, List.mem_cons]
  tauto

/-- What writing an illegal word to `CMD` of an idle block does (60_exceptions.md R183). -/
theorem writeCmd_illegal_idle {w : Word} {s : State} (hw : ¬ ∃ i, decode w = .ok i) (hidle : s.busy = false) :
    writeCmd w s = .next ((raiseError .illegalCmd w s).respond .ok) := by
  rcases writeCmd_cases w s with ⟨i, hi, _⟩ | ⟨_, hbusy, _⟩ | ⟨_, _, he⟩
  · exact absurd ⟨i, hi⟩ hw
  · rw [hidle] at hbusy; cases hbusy
  · exact he

/-- Settles O3: both forms of R86 from the fields of a word, and the error event of R183. -/
theorem illegalWordRaisesIllegalCmd : Obligations.IllegalWordRaisesIllegalCmd := by
  refine ⟨exists_decode_iff_row, not_exists_decode_iff, ?_, fun w s hw hidle => ?_⟩
  · exact (not_exists_decode_iff _).2 (.inr (.inr (.inl (by decide))))
  · rw [hostWrite_cmd]
    exact writeCmd_illegal_idle hw hidle

end Sys2Proof.Machine
end

section
/-! The tables of the Low-Bit Codec (40_lowbit_codec.md R101 to R104): their values and ranges, the guard cases of the
reverse lookup, and the statements O38 and O39 from them. -/

namespace Sys2Proof.Machine

/-! ### The embed tables -/

theorem classOf_toNat (n : Nibble) : (classOf n).toNat = classTable.getD n.toNat 0 := by revert n; decide

theorem substOf_toNat (n : Nibble) : (substOf n).toNat = substTable.getD n.toNat 0 := by revert n; decide

/-- The class of a nibble is its number of 1 bits (40_lowbit_codec.md R101). -/
theorem classOf_toNat_eq_popcount (n : Nibble) : (classOf n).toNat = ((List.range 4).filter n.getLsbD).length := by
  revert n; decide

theorem classOf_le (n : Nibble) : (classOf n).toNat ≤ 4 := by revert n; decide

theorem substOf_le (n : Nibble) : (substOf n).toNat ≤ 5 := by revert n; decide

/-! ### The reverse lookup -/

@[simp] theorem revf_absent (v : RevVariant) (c : Nibble) : revf v none c = (0#4, true) := rfl

/-- Neither table has a row for a class above 4 (40_lowbit_codec.md R103, R104). -/
theorem revRow_of_five_le (v : RevVariant) {k : Nat} (hk : 5 ≤ k) : revRow v k = [] := by
  obtain ⟨j, rfl⟩ := Nat.exists_eq_add_of_le' hk
  cases v <;> rfl

/-- A side-key byte that is no class is a guard case (40_lowbit_codec.md R103, R104). -/
theorem revf_of_five_le (v : RevVariant) {k : Byte} (hk : 5 ≤ k.toNat) (c : Nibble) :
    revf v (some k) c = (0#4, true) := by
  simp [revf, revRow_of_five_le v hk]

/-- A guard case recovers the nibble 0 (40_lowbit_codec.md R103, R104). -/
theorem revf_fst_of_guard {v : RevVariant} {k : Option Byte} {c : Nibble} (h : (revf v k c).2 = true) :
    (revf v k c).1 = 0#4 := by
  cases k with
  | none => rfl
  | some k =>
    cases hcell : (revRow v k.toNat).getD c.toNat none with
    | none => simp only [revf, hcell]
    | some n =>
      have hfilled : revf v (some k) c = (BitVec.ofNat 4 n, false) := by simp only [revf, hcell]
      rw [hfilled] at h
      cases h

/-- `LAWFUL` undoes the two embed tables (40_lowbit_codec.md R104). -/
theorem revf_lawful_embedded (n : Nibble) : revf .lawful (some (classOf n)) (substOf n) = (n, false) := by
  revert n; decide

/-- A filled cell of `LAWFUL` lies at the pair that its nibble embeds to (40_lowbit_codec.md R104). -/
theorem embedded_of_revf_lawful {k : Byte} {c : Nibble} (h : (revf .lawful (some k) c).2 = false) :
    k = classOf (revf .lawful (some k) c).1 ∧ c = substOf (revf .lawful (some k) c).1 := by
  have filled : ∀ k : Byte, k.toNat < 5 → ∀ c : Nibble, (revf .lawful (some k) c).2 = false →
      k = classOf (revf .lawful (some k) c).1 ∧ c = substOf (revf .lawful (some k) c).1 := by decide
  by_cases hk : k.toNat < 5
  · exact filled k hk c h
  · rw [revf_of_five_le .lawful (not_lt.1 hk) c] at h
    cases h

/-- `LAWFUL` holds `n` exactly in the cell of the pair that `n` embeds to (40_lowbit_codec.md R104). -/
theorem revf_lawful_eq_iff (k : Byte) (c n : Nibble) :
    revf .lawful (some k) c = (n, false) ↔ k = classOf n ∧ c = substOf n := by
  constructor
  · intro h
    have hpair := embedded_of_revf_lawful (congrArg Prod.snd h)
    rwa [h] at hpair
  · rintro ⟨rfl, rfl⟩
    exact revf_lawful_embedded n

/-- The two embed tables together lose nothing: the lookup of `LAWFUL` recovers the nibble (40_lowbit_codec.md R104). -/
theorem nibble_eq_of_embedded_eq {n n' : Nibble} (hclass : classOf n = classOf n') (hsubst : substOf n = substOf n') :
    n = n' := by
  have h := revf_lawful_embedded n
  rw [hclass, hsubst, revf_lawful_embedded n'] at h
  exact (congrArg Prod.fst h).symm

/-- Settles O38: the embed tables, their joint injectivity, and the guard cases are lemmas above; the five rows of `DOC`
are compared cell by cell. -/
theorem codecTables : Obligations.CodecTables := by
  refine ⟨fun n => ⟨classOf_toNat n, classOf_toNat_eq_popcount n, substOf_toNat n⟩,
    fun _ _ => nibble_eq_of_embedded_eq, revf_absent .doc, fun k c hk => revf_of_five_le .doc hk c, ?_⟩
  intro k c hk
  revert k c
  decide

/-- Settles O39: `LAWFUL` by the lemmas above; under `DOC` the round trip is looked up for each of the 16 nibbles. -/
theorem nibbleRoundTrip : Obligations.NibbleRoundTrip := by
  refine ⟨revf_lawful_eq_iff, fun _ _ => revf_fst_of_guard, fun c => by rw [revf_absent], ?_, ?_, revf_lawful_embedded⟩
  · decide
  · decide

end Sys2Proof.Machine
end

section
/-! An accepted lane command and the completion step of a running lane, whatever it runs: the frame of the step, the
cells and the counters of the lane in terms of its transform (42_layer_pipeline.md R153, R156, R157, R160). -/

namespace Sys2Proof.Machine

/-! ### Acceptance -/

/-- An admissible command without a key stage is accepted (42_layer_pipeline.md R150, R153). -/
theorem exec_of_admissible {i : Instr} {s : State} (hkey : hasKeyStage i = false) (h : Admissible i.lanes s) :
    exec i s = .next (acceptedState (encode i) i.lanes s) := by
  have hw : i.wellFormed = true := (wellFormed_iff i).2 (.inr h.2.1)
  cases i with
  | permFwd | lbcEmb | lbcExt | wmEmb => exact congrArg Host.Outcome.next (admitLanes_of_admissible hw h)
  | keyInv | permRev | wmExt => cases hkey

@[simp] theorem acceptedState_cell (w : Word) (m : LaneMask) (s : State) (k : MemKind) (ch : Lane) (i : Nat) :
    (acceptedState w m s).cell k ch i = s.cell k ch i := by
  simp only [State.cell, acceptedState_lane]
  cases k <;> rfl

/-- The opcode that a lane runs, from the low byte of `CMDR` (30_encoding.md R80, R82). -/
theorem opcodeOf_cmdr {s : State} {b : Byte} {o : Opcode} (h : s.cmdr.extractLsb 7 0 = b) (ho : opcodeOf b = some o) :
    opcodeOf (opField s.cmdr) = some o := by
  have hfield : opField s.cmdr = b := h
  rw [hfield, ho]

/-! ### The completion step of a running lane -/

section Running

variable {s : State} {ch : Lane}

theorem laneComplete_frame (hrun : (s.lane ch).lbusy = true) : LaneStepFrame ch s (laneComplete ch s) where
  shared := laneComplete_shared ch s
  others _ hc := laneComplete_lane_other s hc
  len := laneComplete_len ch ch s
  lbusy := laneComplete_lbusy ch s
  done := laneComplete_done hrun
  degr hdegr := by rw [laneComplete_degr hrun, hdegr, Bool.true_or]

theorem laneComplete_cell (hrun : (s.lane ch).lbusy = true) (k : MemKind) (i : Nat) :
    (laneComplete ch s).cell k ch i = ((laneTransform s ch).lane.mem k).read i := by
  rw [State.cell, laneComplete_lane_same hrun]
  cases k <;> rfl

theorem laneComplete_sklen (hrun : (s.lane ch).lbusy = true) :
    ((laneComplete ch s).lane ch).sklen = (laneTransform s ch).lane.sklen := by
  rw [laneComplete_lane_same hrun]
  rfl

/-- A transform that returns no drop count keeps `DROPPED` (10_state.md R38). -/
theorem laneComplete_dropped_of_none (hrun : (s.lane ch).lbusy = true) (hd : (laneTransform s ch).dropped = none) :
    ((laneComplete ch s).lane ch).dropped = (s.lane ch).dropped := by
  obtain ⟨_, _, hkeep, _, _⟩ := laneTransform_frame s ch
  rw [laneComplete_lane_same hrun]
  simp only [LaneResult.finish, hd, hkeep]

/-- A transform that returns no degraded count keeps `DEGRADED` and `DEGR` (10_state.md R37). -/
theorem laneComplete_degraded_of_none (hrun : (s.lane ch).lbusy = true) (hd : (laneTransform s ch).deg = none) :
    ((laneComplete ch s).lane ch).degraded = (s.lane ch).degraded ∧
    (laneComplete ch s).flags.degr = s.flags.degr := by
  obtain ⟨_, hkeep, _⟩ := laneTransform_frame s ch
  rw [laneComplete_lane_same hrun, laneComplete_degr hrun]
  simp only [LaneResult.finish, LaneResult.degrades, hd, hkeep, Bool.or_false, and_self]

/-- A returned degraded count is written to `DEGRADED`, and sets `DEGR` if positive (42_layer_pipeline.md R156). -/
theorem laneComplete_degraded_of_some {d : Nat} (hrun : (s.lane ch).lbusy = true)
    (hd : (laneTransform s ch).deg = some d) :
    ((laneComplete ch s).lane ch).degraded = BitVec.ofNat 32 d ∧
    (laneComplete ch s).flags.degr = (s.flags.degr || decide (0 < d)) := by
  rw [laneComplete_lane_same hrun, laneComplete_degr hrun]
  simp only [LaneResult.finish, LaneResult.degrades, hd, and_self]

end Running

end Sys2Proof.Machine
end

section
/-! The completion steps of `LBC.EMB` and `LBC.EXT`, cell by cell (40_lowbit_codec.md R105 to R109), and the statements
O40, O41, O46, O47 and O48 from them. -/

namespace Sys2Proof.Machine

/-! ### The completion step of `LBC.EMB` -/

section Embedding

variable {s : State} {ch : Lane} (hrun : (s.lane ch).lbusy = true) (hop : opcodeOf (opField s.cmdr) = some .lbcEmb)
include hrun hop

theorem lbcEmb_layer (i : Nat) :
    (laneComplete ch s).cell .layer ch i =
      if i < s.pixels then pixel (highNibble (s.cell .layer ch i)) (substOf (lowNibble (s.cell .layer ch i)))
      else s.cell .layer ch i := by
  rw [laneComplete_cell hrun, laneTransform_lbcEmb ch hop]
  exact embLayer_layer s.pixels (s.lane ch) i

theorem lbcEmb_sk (i : Nat) :
    (laneComplete ch s).cell .sk ch i =
      if i < s.pixels then classOf (lowNibble (s.cell .layer ch i)) else s.cell .sk ch i := by
  rw [laneComplete_cell hrun, laneTransform_lbcEmb ch hop]
  exact embLayer_sk s.pixels (s.lane ch) i

/-- `LBC.EMB` sets `SKLEN` and keeps both counters and `DEGR` (40_lowbit_codec.md R105, 10_state.md R37, R38). -/
theorem lbcEmb_counters :
    ((laneComplete ch s).lane ch).sklen = BitVec.ofNat 32 s.pixels ∧
    ((laneComplete ch s).lane ch).degraded = (s.lane ch).degraded ∧
    ((laneComplete ch s).lane ch).dropped = (s.lane ch).dropped ∧
    (laneComplete ch s).flags.degr = s.flags.degr := by
  have ht := laneTransform_lbcEmb ch hop
  have hdeg := laneComplete_degraded_of_none hrun (by rw [ht]; rfl)
  refine ⟨?_, hdeg.1, laneComplete_dropped_of_none hrun (by rw [ht]; rfl), hdeg.2⟩
  rw [laneComplete_sklen hrun, ht]
  rfl

end Embedding

/-- Settles O40: acceptance is `exec_of_admissible`; the step is read off cell by cell on the accepted state, whose cells
are those of `s`. -/
theorem lbcEmbCompletes : Obligations.LbcEmbCompletes := by
  intro s m hadm t
  have hexec := exec_of_admissible (i := .lbcEmb m) rfl hadm
  rw [encode_lbcEmb] at hexec
  refine ⟨hexec, fun ch hsel => ?_⟩
  have hrun : (t.lane ch).lbusy = true := acceptedState_running hsel
  have hop : opcodeOf (opField t.cmdr) = some .lbcEmb := opcodeOf_laneWord (encode_lbcEmb m)
  have hpix : t.pixels = s.pixels := rfl
  have hcell : ∀ k i, t.cell k ch i = s.cell k ch i := fun k i => acceptedState_cell _ m s k ch i
  have hlane : t.lane ch = { s.lane ch with lbusy := selects m ch } := acceptedState_lane _ m s ch
  obtain ⟨hsklen, hdegraded, hdropped, hdegr⟩ := lbcEmb_counters hrun hop
  refine ⟨laneComplete_frame hrun, hdegr, fun i hi => ⟨?_, ?_⟩, fun k i hi => ?_, hsklen, ?_, ?_⟩
  · rw [lbcEmb_layer hrun hop, hpix, if_pos hi, hcell, pixel_toNat, highNibble_toNat, substOf_toNat, lowNibble_toNat]
    rfl
  · rw [lbcEmb_sk hrun hop, hpix, if_pos hi, hcell, classOf_toNat, lowNibble_toNat]
    rfl
  · cases k with
    | layer => rw [lbcEmb_layer hrun hop, hpix, if_neg (not_lt.2 hi), hcell]
    | sk => rw [lbcEmb_sk hrun hop, hpix, if_neg (not_lt.2 hi), hcell]
  · rw [hdegraded, hlane]
  · rw [hdropped, hlane]

/-! ### The completion step of `LBC.EXT` -/

section Extracting

variable {s : State} {ch : Lane} (hrun : (s.lane ch).lbusy = true) (hop : opcodeOf (opField s.cmdr) = some .lbcExt)
include hrun hop

theorem lbcExt_layer (i : Nat) :
    (laneComplete ch s).cell .layer ch i =
      if i < s.pixels then pixel (highNibble (s.cell .layer ch i)) (recovered s.params.rev (s.lane ch) i).1
      else s.cell .layer ch i := by
  rw [laneComplete_cell hrun, laneTransform_lbcExt ch hop]
  exact extLayer_layer s.params.rev s.pixels (s.lane ch) i

/-- `LBC.EXT` writes neither the side key nor `SKLEN` nor `DROPPED` (40_lowbit_codec.md R106, 10_state.md R38). -/
theorem lbcExt_keeps :
    (∀ i, (laneComplete ch s).cell .sk ch i = s.cell .sk ch i) ∧
    ((laneComplete ch s).lane ch).sklen = (s.lane ch).sklen ∧
    ((laneComplete ch s).lane ch).dropped = (s.lane ch).dropped := by
  have ht := laneTransform_lbcExt ch hop
  have hlane : (laneTransform s ch).lane = { s.lane ch with layer := (laneTransform s ch).lane.layer } := by
    rw [ht]
    exact extLayer_frame s.params.rev s.pixels (s.lane ch)
  refine ⟨fun i => ?_, ?_, laneComplete_dropped_of_none hrun (by rw [ht]; rfl)⟩
  · rw [laneComplete_cell hrun, hlane]
    rfl
  · rw [laneComplete_sklen hrun, hlane]

/-- `DEGRADED` counts the guard cases, and `DEGR` rises if there is one (40_lowbit_codec.md R107). -/
theorem lbcExt_degraded :
    let guards := ((List.range s.pixels).filter (fun i => (recovered s.params.rev (s.lane ch) i).2)).length
    ((laneComplete ch s).lane ch).degraded = BitVec.ofNat 32 guards ∧
    (laneComplete ch s).flags.degr = (s.flags.degr || decide (0 < guards)) := by
  refine laneComplete_degraded_of_some hrun ?_
  rw [laneTransform_lbcExt ch hop, ← extLayer_count]
  rfl

end Extracting

/-- Settles O41: acceptance is `exec_of_admissible`; the step is read off cell by cell on the accepted state, in which
`EXT` recovers the same nibbles as in `s`. -/
theorem lbcExtCompletes : Obligations.LbcExtCompletes := by
  intro s m hadm t
  have hexec := exec_of_admissible (i := .lbcExt m) rfl hadm
  rw [encode_lbcExt] at hexec
  refine ⟨hexec, fun ch hsel => ?_⟩
  intro u r deg
  have hrun : (t.lane ch).lbusy = true := acceptedState_running hsel
  have hop : opcodeOf (opField t.cmdr) = some .lbcExt := opcodeOf_laneWord (encode_lbcExt m)
  have hpix : t.pixels = s.pixels := rfl
  have hcell : ∀ k i, t.cell k ch i = s.cell k ch i := fun k i => acceptedState_cell _ m s k ch i
  have hlane : t.lane ch = { s.lane ch with lbusy := selects m ch } := acceptedState_lane _ m s ch
  have hrec : recovered t.params.rev (t.lane ch) = r := by rw [hlane]; rfl
  obtain ⟨hsk, hsklen, hdropped⟩ := lbcExt_keeps hrun hop
  obtain ⟨hdegraded, hdegr⟩ := lbcExt_degraded hrun hop
  rw [hrec] at hdegraded hdegr
  refine ⟨laneComplete_frame hrun, hdegr, fun i hi => ?_, fun i hi => ?_, fun i => ?_, hdegraded, ?_, ?_⟩
  · rw [lbcExt_layer hrun hop, hpix, if_pos hi, hcell, pixel_toNat, highNibble_toNat, hrec]
  · rw [lbcExt_layer hrun hop, hpix, if_neg (not_lt.2 hi), hcell]
  · rw [hsk, hcell]
  · rw [hsklen, hlane]
  · rw [hdropped, hlane]

/-! ### The high nibble and the place of a pixel -/

theorem highNibble_recode (c : Prop) [Decidable c] (p : Byte) (x : Nibble) :
    highNibble (if c then pixel (highNibble p) x else p) = highNibble p := by
  split
  · exact highNibble_pixel _ _
  · rfl

/-- Settles O46: by the opcode, both steps leave `pixel (highNibble p) x` or `p` of the cell's byte `p`, where `x` comes
from `p` alone under `LBC.EMB` and from `p` and the side-key entry under `LBC.EXT`. -/
theorem codecKeepsHighNibbleAndPlace : Obligations.CodecKeepsHighNibbleAndPlace := by
  intro s ch hrun hcmd
  rcases hcmd with hcmd | hcmd
  · have hop := opcodeOf_cmdr hcmd (o := .lbcEmb) rfl
    refine ⟨fun i => ?_, fun s' i hrun' hcmdr _ hw hh hcell _ => ?_⟩
    · rw [lbcEmb_layer hrun hop]
      exact highNibble_recode _ _ _
    · have hpix : s'.pixels = s.pixels := by rw [State.pixels, hw, hh]; rfl
      rw [lbcEmb_layer hrun' (by rwa [hcmdr]), lbcEmb_layer hrun hop, hpix, hcell]
  · have hop := opcodeOf_cmdr hcmd (o := .lbcExt) rfl
    refine ⟨fun i => ?_, fun s' i hrun' hcmdr hparams hw hh hcell hentry => ?_⟩
    · rw [lbcExt_layer hrun hop]
      exact highNibble_recode _ _ _
    · have hpix : s'.pixels = s.pixels := by rw [State.pixels, hw, hh]; rfl
      have hread : (s'.lane ch).layer.read i = (s.lane ch).layer.read i := hcell
      have hrec : recovered s'.params.rev (s'.lane ch) i = recovered s.params.rev (s.lane ch) i := by
        rw [recovered, hparams, hentry hcmd, hread, recovered]
      rw [lbcExt_layer hrun' (by rwa [hcmdr]), lbcExt_layer hrun hop, hpix, hcell, hrec]

/-! ### The ranges after an embed -/

/-- Both embed commands end with the transform `EMB` (42_layer_pipeline.md R154, R155). -/
theorem laneTransform_embeds {s : State} (ch : Lane)
    (h : s.cmdr.extractLsb 7 0 = 0x20#8 ∨ s.cmdr.extractLsb 7 0 = 0x30#8) :
    ∃ l, (laneTransform s ch).lane = embLayer s.pixels l := by
  rcases h with h | h
  · rw [laneTransform_lbcEmb ch (opcodeOf_cmdr h rfl)]
    exact ⟨_, rfl⟩
  · rw [laneTransform_wmEmb ch (opcodeOf_cmdr h rfl)]
    exact ⟨_, rfl⟩

/-- Settles O47: whatever `EMB` finds in a cell, it leaves a value of each embed table. -/
theorem embedResultRanges : Obligations.EmbedResultRanges := by
  intro s ch i hrun hcmd hi
  obtain ⟨l, hl⟩ := laneTransform_embeds ch hcmd
  constructor
  · rw [laneComplete_cell hrun, hl]
    simp only [LaneState.mem, embLayer_layer, if_pos hi]
    rw [← lowNibble_toNat, lowNibble_pixel]
    exact substOf_le _
  · rw [laneComplete_cell hrun, hl]
    simp only [LaneState.mem, embLayer_sk, if_pos hi]
    exact classOf_le _

/-! ### Extract without a side key -/

/-- With `SKLEN = 0` every entry is absent, so every pixel is a guard case (10_state.md R36, 40_lowbit_codec.md R106). -/
theorem recovered_of_sklen_zero {l : LaneState} (h : l.sklen = 0#32) (v : RevVariant) (i : Nat) :
    recovered v l i = (0#4, true) := by
  have hentry : l.entry i = none := by simp [LaneState.entry, h]
  rw [recovered, hentry, revf_absent]

theorem pixel_zero_low (p : Byte) : pixel (highNibble p) 0#4 = p &&& 0xF0#8 := by revert p; decide

/-- Settles O48: all `N` pixels are guard cases, each recovered as the nibble 0. -/
theorem extractWithoutSideKey : Obligations.ExtractWithoutSideKey := by
  intro s ch hrun hcmd hsklen hpix t
  have hop := opcodeOf_cmdr hcmd (o := .lbcExt) rfl
  have hrec := recovered_of_sklen_zero hsklen s.params.rev
  have hall : ((List.range s.pixels).filter (fun i => (recovered s.params.rev (s.lane ch) i).2)).length = s.pixels := by
    simp [hrec]
  obtain ⟨hdegraded, hdegr⟩ := lbcExt_degraded hrun hop
  rw [hall] at hdegraded hdegr
  refine ⟨hdegraded, ?_, fun i hi => ?_⟩
  · have hpos : 0 < s.pixels := hpix
    rw [hdegr, decide_eq_true hpos, Bool.or_true]
  · rw [lbcExt_layer hrun hop, if_pos hi, hrec, pixel_zero_low]

end Sys2Proof.Machine
end

section
/-! The two index maps of the permutation engine (41_affine_permutation.md R122, R123, R130): their value by Euclidean
remainders, their ranges, and the statements O36 and O37 from them. -/

namespace Sys2Proof.Machine

/-- The index of column `x` and row `y` is below `w * h` when the coordinates are in range (R120). -/
theorem index_lt {x y w h : Int} (hw : 0 ≤ w) (hx : x < w) (hy : y < h) : x + y * w < w * h := by
  have hrow : (y + 1) * w ≤ h * w := Int.mul_le_mul_of_nonneg_right hy hw
  rw [Int.add_mul, Int.one_mul, Int.mul_comm h w] at hrow
  omega

/-! ### The forward map -/

/-- The six key values are at least 0, the condition of R122 and R133 under which no pixel is dropped. -/
structure AffineKey.Nonneg (k : AffineKey) : Prop where
  a : 0 ≤ k.a
  b : 0 ≤ k.b
  c : 0 ≤ k.c
  d : 0 ≤ k.d
  tx : 0 ≤ k.tx
  ty : 0 ≤ k.ty

section Forward

variable (k : AffineKey) {w h : Nat} (i : Nat)

/-- A target never lies at or above `N`. -/
theorem forwardIndex_lt (hw : 0 < w) (hh : 0 < h) : forwardIndex k w h i < ((w * h : Nat) : Int) := by
  rw [Int.natCast_mul]
  exact index_lt (Int.natCast_nonneg w) (tmod_lt _ hw) (tmod_lt _ hh)

theorem neg_lt_forwardIndex (hw : 0 < w) (hh : 0 < h) : -((w * h : Nat) : Int) < forwardIndex k w h i := by
  have hx := neg_lt_tmod (k.a * (i % w : Nat) + k.b * (i / w : Nat) + k.tx) hw
  have hy := neg_lt_tmod (k.c * (i % w : Nat) + k.d * (i / w : Nat) + k.ty) hh
  have hneg := index_lt (Int.natCast_nonneg w) (Int.neg_lt_of_neg_lt hx) (Int.neg_lt_of_neg_lt hy)
  rw [Int.neg_mul, ← Int.neg_add] at hneg
  rw [Int.natCast_mul]
  exact Int.neg_lt_of_neg_lt hneg

/-- The drop rule's test comes down to the sign (R123). -/
theorem forwardIndex_dropped_iff (hw : 0 < w) (hh : 0 < h) :
    ¬ (0 ≤ forwardIndex k w h i ∧ forwardIndex k w h i < ((w * h : Nat) : Int)) ↔ forwardIndex k w h i < 0 := by
  have := forwardIndex_lt k i hw hh
  omega

variable {k}

theorem AffineKey.Nonneg.column (hk : k.Nonneg) (x y : Nat) : 0 ≤ k.a * x + k.b * y + k.tx :=
  Int.add_nonneg (Int.add_nonneg (Int.mul_nonneg hk.a (Int.natCast_nonneg x))
    (Int.mul_nonneg hk.b (Int.natCast_nonneg y))) hk.tx

theorem AffineKey.Nonneg.row (hk : k.Nonneg) (x y : Nat) : 0 ≤ k.c * x + k.d * y + k.ty :=
  Int.add_nonneg (Int.add_nonneg (Int.mul_nonneg hk.c (Int.natCast_nonneg x))
    (Int.mul_nonneg hk.d (Int.natCast_nonneg y))) hk.ty

theorem forwardIndex_nonneg (hk : k.Nonneg) : 0 ≤ forwardIndex k w h i :=
  Int.add_nonneg (tmod_nonneg w (hk.column _ _))
    (Int.mul_nonneg (tmod_nonneg h (hk.row _ _)) (Int.natCast_nonneg w))

end Forward

/-- Settles O36: the formula is the definition; the range and the sign are the lemmas above. -/
theorem forwardMapRange : Obligations.ForwardMapRange := by
  intro k w h i hw hh _
  exact ⟨rfl, neg_lt_forwardIndex k i hw hh, forwardIndex_lt k i hw hh,
    fun ha hb htx hc hd hty => forwardIndex_nonneg i ⟨ha, hb, hc, hd, htx, hty⟩⟩

/-! ### The reverse map -/

section Reverse

variable (v : InverseMatrix) (tx ty : Int) {w h : Nat} (j : Nat)

/-- `adjusted_x` of R130: its sign is the one `tmod` gives it. -/
def adjustedX (tx : Int) (w j : Nat) : Int := tmod (((j % w : Nat) : Int) - tx) w

/-- `adjusted_y` of R130. -/
def adjustedY (ty : Int) (w h j : Nat) : Int := tmod (((j / w : Nat) : Int) - ty) h

/-- R130's equivalent form: the conditional additions make Euclidean remainders of the two rows. -/
theorem reverseIndex_eq (hw : 0 < w) (hh : 0 < h) :
    reverseIndex v tx ty w h j =
      emod (v.i0 * adjustedX tx w j + v.i1 * adjustedY ty w h j) w +
      emod (v.i2 * adjustedX tx w j + v.i3 * adjustedY ty w h j) h * w := by
  unfold reverseIndex
  simp only [← emod_eq_normalize_tmod _ hw, ← emod_eq_normalize_tmod _ hh, ← Int.natCast_mul, ← Int.natCast_add,
    Int.toNat_natCast]
  rfl

theorem reverseIndex_lt (hw : 0 < w) (hh : 0 < h) : reverseIndex v tx ty w h j < w * h := by
  have hlt := index_lt (Int.natCast_nonneg w)
    (Int.ofNat_lt.2 (emod_lt (v.i0 * adjustedX tx w j + v.i1 * adjustedY ty w h j) hw))
    (Int.ofNat_lt.2 (emod_lt (v.i2 * adjustedX tx w j + v.i3 * adjustedY ty w h j) hh))
  rw [reverseIndex_eq v tx ty j hw hh]
  exact_mod_cast hlt

end Reverse

/-- Settles O37: `reverseIndex_eq`, read in the integers, and `reverseIndex_lt`. -/
theorem reverseMapRange : Obligations.ReverseMapRange := by
  intro v tx ty w h j hw hh _ ax ay
  refine ⟨?_, reverseIndex_lt v tx ty j hw hh⟩
  rw [reverseIndex_eq v tx ty j hw hh, Int.natCast_add, Int.natCast_mul, emod_coe _ hw, emod_coe _ hh]
  rfl

end Sys2Proof.Machine
end

section
/-! The key stage (41_affine_permutation.md R125 to R128, R136): when it finds an inverse, the results as the inverse
matrix, the commands that it admits or rejects, and the statements O29, O33 and O34 from them. -/

namespace Sys2Proof.Machine

/-! ### The inverse search -/

/-- R126: the search succeeds exactly on the units modulo `w`, and for no `w` below 2. -/
theorem inverseSearch_isSome_iff (d w : Nat) : (inverseSearch d w).isSome = true ↔ 2 ≤ w ∧ Nat.Coprime d w := by
  constructor
  · intro h
    obtain ⟨v, hv⟩ := Option.isSome_iff_exists.1 h
    obtain ⟨hpos, hlt, hinv⟩ := inverseSearch_some hv
    have hw : 2 ≤ w := by omega
    refine ⟨hw, Nat.coprime_of_mul_modEq_one v ?_⟩
    rw [Nat.ModEq, hinv, Nat.mod_eq_of_lt hw]
  · rintro ⟨hw, hcop⟩
    obtain ⟨v, hlt, hinv⟩ := Nat.exists_mul_mod_eq_one_of_coprime hcop hw
    have hpos : 1 ≤ v := by
      rcases Nat.eq_zero_or_pos v with rfl | hpos
      · rw [Nat.mul_zero, Nat.zero_mod] at hinv
        cases hinv
      · exact hpos
    cases hs : inverseSearch d w with
    | some _ => rfl
    | none => exact absurd hinv (inverseSearch_none hs v hpos hlt)

/-- R126: the key is invertible exactly when `w >= 2` and `gcd(a*d - b*c, w) = 1`. -/
theorem keyInvertible_iff (k : AffineKey) (w : Nat) :
    keyInvertible k w = true ↔ 2 ≤ w ∧ Int.gcd (k.a * k.d - k.b * k.c) w = 1 := by
  rw [keyInvertible, inverseSearch_isSome_iff]
  refine and_congr_right fun hw => ?_
  rw [Nat.coprime_iff_gcd_eq_one, ← Int.gcd_natCast_natCast, determinant, emod_coe _ (by omega), Int.gcd_emod]

/-- The key registers hold an invertible key, in the words of the statements. -/
theorem keyOk_iff (s : State) : s.keyOk = true ↔ KeyCoprime s := keyInvertible_iff s.key.values s.width.toNat

/-! ### The results -/

/-- The results of the key stage on an invertible key (R126, R127). -/
theorem keyStageResult_of_invertible {k : AffineKey} {w : Nat} (h : keyInvertible k w = true) :
    ∃ v, 1 ≤ v ∧ v < w ∧ determinant k w * v % w = 1 ∧
      keyStageResult k w =
        { detn := BitVec.ofNat 16 (determinant k w)
          detinv := BitVec.ofNat 16 v
          inv0 := BitVec.ofNat 16 (inverseEntries k v w).i0
          inv1 := BitVec.ofNat 16 (inverseEntries k v w).i1
          inv2 := BitVec.ofNat 16 (inverseEntries k v w).i2
          inv3 := BitVec.ofNat 16 (inverseEntries k v w).i3 } := by
  obtain ⟨v, hv⟩ := Option.isSome_iff_exists.1 h
  obtain ⟨hpos, hlt, hinv⟩ := inverseSearch_some hv
  refine ⟨v, hpos, hlt, hinv, ?_⟩
  simp only [keyStageResult, hv]

/-- A remainder by a width fits a result register. -/
theorem toNat_ofNat_emod (n : Int) {w : Nat} (h0 : 0 < w) (hw : w < 65536) :
    (BitVec.ofNat 16 (emod n w)).toNat = emod n w := by
  rw [BitVec.toNat_ofNat]
  exact Nat.mod_eq_of_lt ((emod_lt n h0).trans hw)

/-- The registers hold the inverse matrix without loss. -/
theorem keyStageResult_toNat {k : AffineKey} {w : Nat} (hw : w < 65536) (h : keyInvertible k w = true) :
    ∃ v, 1 ≤ v ∧ v < w ∧ determinant k w * v % w = 1 ∧
      (keyStageResult k w).detn.toNat = determinant k w ∧ (keyStageResult k w).detinv.toNat = v ∧
      (keyStageResult k w).matrix = inverseEntries k v w := by
  obtain ⟨v, hpos, hlt, hinv, hres⟩ := keyStageResult_of_invertible h
  have h0 : 0 < w := by omega
  refine ⟨v, hpos, hlt, hinv, ?_⟩
  rw [hres]
  refine ⟨toNat_ofNat_emod _ h0 hw, ?_, ?_⟩
  · rw [BitVec.toNat_ofNat]
    exact Nat.mod_eq_of_lt (hlt.trans hw)
  · simp only [Inverse.matrix, inverseEntries, toNat_ofNat_emod _ h0 hw]

/-! ### The inverse matrix -/

/-- `v` is the inverse of the matrix of the key modulo `w`, on both sides (R127), with entries in `[0, w)`. -/
structure InverseMatrix.Inverts (v : InverseMatrix) (k : AffineKey) (w : Nat) : Prop where
  right00 : k.a * v.i0 + k.b * v.i2 ≡ 1 [ZMOD w]
  right01 : k.a * v.i1 + k.b * v.i3 ≡ 0 [ZMOD w]
  right10 : k.c * v.i0 + k.d * v.i2 ≡ 0 [ZMOD w]
  right11 : k.c * v.i1 + k.d * v.i3 ≡ 1 [ZMOD w]
  left00 : v.i0 * k.a + v.i1 * k.c ≡ 1 [ZMOD w]
  left01 : v.i0 * k.b + v.i1 * k.d ≡ 0 [ZMOD w]
  left10 : v.i2 * k.a + v.i3 * k.c ≡ 0 [ZMOD w]
  left11 : v.i2 * k.b + v.i3 * k.d ≡ 1 [ZMOD w]
  lt0 : v.i0 < w
  lt1 : v.i1 < w
  lt2 : v.i2 < w
  lt3 : v.i3 < w

theorem emod_modEq (n : Int) {w : Nat} (h : 0 < w) : (emod n w : Int) ≡ n [ZMOD w] := by
  rw [emod_coe n h]
  exact Int.mod_modEq n w

/-- `DETN * v mod w = 1` says that `v` inverts the determinant itself, whichever residue is taken (R125). -/
theorem det_mul_modEq_one {k : AffineKey} {v w : Nat} (hw : 2 ≤ w) (h : determinant k w * v % w = 1) :
    (k.a * k.d - k.b * k.c) * v ≡ 1 [ZMOD w] := by
  have hdet : (determinant k w : Int) ≡ k.a * k.d - k.b * k.c [ZMOD w] := emod_modEq _ (by omega)
  have hone : ((determinant k w * v : Nat) : Int) ≡ (1 : Nat) [ZMOD w] :=
    Int.natCast_modEq_iff.2 (by rw [Nat.ModEq, h, Nat.mod_eq_of_lt hw])
  rw [Int.natCast_mul] at hone
  exact (hdet.symm.mul_right v).trans hone

/-- The adjugate formula of R127 (log entry 19) gives the inverse: each product is `v` times the determinant, or 0. -/
theorem inverseEntries_inverts {k : AffineKey} {v w : Nat} (hw : 2 ≤ w) (h : determinant k w * v % w = 1) :
    (inverseEntries k v w).Inverts k w := by
  have h0 : 0 < w := by omega
  have hone := det_mul_modEq_one hw h
  have e0 : ((inverseEntries k v w).i0 : Int) ≡ v * k.d [ZMOD w] := emod_modEq _ h0
  have e1 : ((inverseEntries k v w).i1 : Int) ≡ -v * k.b [ZMOD w] := emod_modEq _ h0
  have e2 : ((inverseEntries k v w).i2 : Int) ≡ -v * k.c [ZMOD w] := emod_modEq _ h0
  have e3 : ((inverseEntries k v w).i3 : Int) ≡ v * k.a [ZMOD w] := emod_modEq _ h0
  have diag {x : Int} (hx : x = (k.a * k.d - k.b * k.c) * v) : x ≡ 1 [ZMOD w] := hx ▸ hone
  have off {x : Int} (hx : x = 0) : x ≡ 0 [ZMOD w] := hx ▸ Int.ModEq.rfl
  exact {
    right00 := ((e0.mul_left _).add (e2.mul_left _)).trans (diag (by ring))
    right01 := ((e1.mul_left _).add (e3.mul_left _)).trans (off (by ring))
    right10 := ((e0.mul_left _).add (e2.mul_left _)).trans (off (by ring))
    right11 := ((e1.mul_left _).add (e3.mul_left _)).trans (diag (by ring))
    left00 := ((e0.mul_right _).add (e1.mul_right _)).trans (diag (by ring))
    left01 := ((e0.mul_right _).add (e1.mul_right _)).trans (off (by ring))
    left10 := ((e2.mul_right _).add (e3.mul_right _)).trans (off (by ring))
    left11 := ((e2.mul_right _).add (e3.mul_right _)).trans (diag (by ring))
    lt0 := emod_lt _ h0
    lt1 := emod_lt _ h0
    lt2 := emod_lt _ h0
    lt3 := emod_lt _ h0 }

theorem keyStageResult_inverts {k : AffineKey} {w : Nat} (hw : w < 65536) (h : keyInvertible k w = true) :
    (keyStageResult k w).matrix.Inverts k w := by
  obtain ⟨v, hpos, hlt, hinv, _, _, hmatrix⟩ := keyStageResult_toNat hw h
  rw [hmatrix]
  exact inverseEntries_inverts (by omega) hinv

/-- Settles O34: the right inverse of `keyStageResult_inverts`, its congruences read as remainders. -/
theorem keyStageInvertsMatrix : Obligations.KeyStageInvertsMatrix := by
  intro s hcop v w a b c d
  have hkey : keyInvertible s.key.values s.width.toNat = true := (keyOk_iff s).2 hcop
  have hw : 1 < w := Int.ofNat_lt.2 hcop.1
  have one {x : Int} (hx : x ≡ 1 [ZMOD w]) : x % w = 1 := hx.eq.trans (Int.emod_eq_of_lt (by decide) hw)
  have zero {x : Int} (hx : x ≡ 0 [ZMOD w]) : x % w = 0 := hx.eq.trans (Int.zero_emod w)
  have hinv := keyStageResult_inverts s.width.isLt hkey
  obtain ⟨r, hpos, hlt, hmul, hdetn, hdetinv, _⟩ := keyStageResult_toNat s.width.isLt hkey
  refine ⟨one hinv.right00, zero hinv.right01, zero hinv.right10, one hinv.right11, hinv.lt0, hinv.lt1, hinv.lt2,
    hinv.lt3, ?_, ?_, ?_, ?_⟩
  · rw [hdetinv]
    exact hpos
  · rw [hdetinv]
    exact hlt
  · rw [hdetn]
    exact emod_coe _ (by omega)
  · rw [hdetn, hdetinv]
    exact hmul

/-! ### Commands with a key stage -/

/-- The geometry check of an admissible lane command passes (42_layer_pipeline.md R151). -/
theorem geometryOf_of_admissible {i : Instr} {s : State} (h : Admissible i.lanes s) : geometryOf i s = none := by
  obtain ⟨_, hmask, hgeo, hlen⟩ := h
  cases i with
  | keyInv => exact absurd rfl hmask
  | permFwd | permRev | lbcEmb | lbcExt | wmEmb | wmExt => exact (laneGeometry_none _ s).2 ⟨hgeo, hlen⟩

/-- A command past the busy, legality and geometry tests is accepted if its key stage, when it has one, succeeds
(42_layer_pipeline.md R150). -/
theorem exec_of_passed {i : Instr} {s : State} (hidle : s.busy = false) (hw : i.wellFormed = true)
    (hgeo : geometryOf i s = none) (hkey : hasKeyStage i = true → s.keyOk = true) :
    exec i s = .next (accepted i (staged i s)) := by
  rcases exec_cases i s with ⟨hb, _⟩ | ⟨_, hw', _⟩ | ⟨_, _, _, hgeo', _⟩ | ⟨_, _, _, hstage, hbad, _⟩ | ⟨_, _, _, _, he⟩
  · rw [hidle] at hb; cases hb
  · rw [hw] at hw'; cases hw'
  · rw [hgeo] at hgeo'; cases hgeo'
  · rw [hkey hstage] at hbad; cases hbad
  · exact he

/-- Past the same tests, a failed key stage rejects the command with `KEY_INVALID` (60_exceptions.md R181). -/
theorem exec_of_not_keyOk {i : Instr} {s : State} (hidle : s.busy = false) (hw : i.wellFormed = true)
    (hgeo : geometryOf i s = none) (hstage : hasKeyStage i = true) (hbad : s.keyOk = false) :
    exec i s = .next ((raiseError .keyInvalid (zeroExtend32 (keyStage s).inv.detn) (keyStage s)).respond .ok) := by
  rcases exec_cases i s with ⟨hb, _⟩ | ⟨_, hw', _⟩ | ⟨_, _, _, hgeo', _⟩ | ⟨_, _, _, _, _, he⟩ | ⟨_, _, _, hkey, _⟩
  · rw [hidle] at hb; cases hb
  · rw [hw] at hw'; cases hw'
  · rw [hgeo] at hgeo'; cases hgeo'
  · exact he
  · rw [hkey hstage] at hbad; cases hbad

/-- An admissible lane command with a key stage is accepted on an invertible key, with the results written
(42_layer_pipeline.md R152, R153). -/
theorem exec_of_admissible_of_keyOk {i : Instr} {s : State} (hstage : hasKeyStage i = true)
    (h : Admissible i.lanes s) (hkey : s.keyOk = true) :
    exec i s = .next (acceptedState (encode i) i.lanes (keyStage s)) := by
  rw [exec_of_passed h.1 ((wellFormed_iff i).2 (.inr h.2.1)) (geometryOf_of_admissible h) (fun _ => hkey),
    staged, if_pos hstage, ← acceptLanes_eq i (keyStage s) h.1]
  cases i with
  | keyInv => exact absurd rfl h.2.1
  | permFwd | permRev | lbcEmb | lbcExt | wmEmb | wmExt => rfl

theorem geometryOf_keyInv {s : State} (h : 1 ≤ s.width.toNat) : geometryOf .keyInv s = none :=
  if_neg (by omega)

/-- The statements write a remainder into a register as an integer, the model as a natural number. -/
theorem ofInt_emod (n : Int) {w : Nat} (h : 0 < w) : BitVec.ofInt 16 (n % (w : Int)) = BitVec.ofNat 16 (emod n w) := by
  rw [← emod_coe n h, BitVec.ofInt_natCast]

/-- Settles O33: `KEY.INV` passes every test, so it answers the state of `acceptKeyInv` with the key-stage results. -/
theorem keyInvCompletes : Obligations.KeyInvCompletes := by
  intro s hidle hcop w a b c d
  have h0 : 0 < s.width.toNat := by have := hcop.1; omega
  have hkey : s.keyOk = true := (keyOk_iff s).2 hcop
  obtain ⟨v, hpos, hlt, hmul, hres⟩ := keyStageResult_of_invertible (k := s.key.values) hkey
  refine ⟨v, hpos, hlt, ?_, ?_⟩
  · have hdet : (determinant s.key.values s.width.toNat : Int) = (a * d - b * c) % w := emod_coe _ h0
    rw [← hdet]
    exact congrArg (Nat.cast : Nat → Int) hmul
  · rw [exec_of_passed hidle rfl (geometryOf_keyInv h0) (fun _ => hkey)]
    simp only [w, ofInt_emod _ h0, accepted, staged, hasKeyStage, if_true, acceptKeyInv, keyStage, hres]
    rfl

/-! ### Width 1 -/

theorem keyOk_of_width_one {s : State} (h : s.width.toNat = 1) : s.keyOk = false := by
  rw [Bool.eq_false_iff, Ne, keyOk_iff, KeyCoprime, h]
  omega

theorem detn_of_width_one (k : AffineKey) : (keyStageResult k 1).detn = 0#16 := by
  have hdet : determinant k 1 = 0 := by simp [determinant, emod]
  simp only [keyStageResult, hdet]
  rfl

/-- A command with a key stage that is past the other tests, in the words of the statements. -/
theorem passed_of_keyed {i : Instr} {s : State} (hw : 1 ≤ s.width.toNat)
    (h : (i = .keyInv ∧ s.busy = false) ∨ ∃ m, Admissible m s ∧ (i = .permRev m ∨ i = .wmExt m)) :
    s.busy = false ∧ i.wellFormed = true ∧ geometryOf i s = none ∧ hasKeyStage i = true := by
  rcases h with ⟨rfl, hidle⟩ | ⟨m, hadm, rfl | rfl⟩
  · exact ⟨hidle, rfl, geometryOf_keyInv hw, rfl⟩
  · exact ⟨hadm.1, (wellFormed_iff _).2 (.inr hadm.2.1), geometryOf_of_admissible hadm, rfl⟩
  · exact ⟨hadm.1, (wellFormed_iff _).2 (.inr hadm.2.1), geometryOf_of_admissible hadm, rfl⟩

/-- Settles O29: with one column the search range is empty and `DETN` is 0; the column of every pixel is 0, its row its
index. -/
theorem widthOneIsNeverInvertible : Obligations.WidthOneIsNeverInvertible := by
  refine ⟨fun s i hw h => ?_, fun k h i => ?_⟩
  · obtain ⟨hidle, hwf, hgeo, hstage⟩ := passed_of_keyed hw.ge h
    have hdetn : (keyStage s).inv.detn = 0#16 := by
      rw [keyStage, hw]
      exact detn_of_width_one _
    refine ⟨_, exec_of_not_keyOk hidle hwf hgeo hstage (keyOk_of_width_one hw), rfl, ?_, rfl, hdetn, hidle⟩
    rw [respond_einfo, raiseError_einfo, hdetn]
    rfl
  · have hcolumn (n : Int) : tmod n 1 = 0 := Int.tmod_one n
    simp only [forwardIndex, hcolumn, Nat.mod_one, Nat.div_one, Nat.cast_zero, Nat.cast_one, mul_zero, mul_one, zero_add]

end Sys2Proof.Machine
end

section
/-! The completion steps of `PERM.FWD` and `PERM.REV`, cell by cell (41_affine_permutation.md R122 to R124, R129 to R131,
R134), and the statements O42, O43 and O49 from them. -/

namespace Sys2Proof.Machine

/-! ### The completion step of `PERM.FWD` -/

section Permuting

variable {s : State} {ch : Lane} (hrun : (s.lane ch).lbusy = true) (hop : opcodeOf (opField s.cmdr) = some .permFwd)
include hrun hop

theorem permFwd_layer (j : Nat) :
    (laneComplete ch s).cell .layer ch j = (s.pfwdOf (s.lane ch)).1.layer.read j := by
  rw [laneComplete_cell hrun, laneTransform_permFwd ch hop]
  rfl

theorem permFwd_dropped : ((laneComplete ch s).lane ch).dropped = BitVec.ofNat 32 (s.pfwdOf (s.lane ch)).2 := by
  rw [laneComplete_lane_same hrun, laneTransform_permFwd ch hop]
  rfl

/-- `PERM.FWD` writes neither the side key nor `SKLEN` nor `DEGRADED` nor `DEGR` (R129). -/
theorem permFwd_keeps :
    (∀ i, (laneComplete ch s).cell .sk ch i = s.cell .sk ch i) ∧
    ((laneComplete ch s).lane ch).sklen = (s.lane ch).sklen ∧
    ((laneComplete ch s).lane ch).degraded = (s.lane ch).degraded ∧
    (laneComplete ch s).flags.degr = s.flags.degr := by
  have ht := laneTransform_permFwd ch hop
  refine ⟨fun i => ?_, ?_, laneComplete_degraded_of_none hrun (by rw [ht]; rfl)⟩
  · rw [laneComplete_cell hrun, ht]
    rfl
  · rw [laneComplete_sklen hrun, ht]
    rfl

end Permuting

/-- The drop count is the number of sources with a negative target (R123). -/
theorem pfwdLayer_count_eq (k : AffineKey) {w h : Nat} (hw : 0 < w) (hh : 0 < h) (l : LaneState) :
    (pfwdLayer k w h l).2 = ((List.range (w * h)).filter (fun i => decide (forwardIndex k w h i < 0))).length := by
  simp only [pfwdLayer_count, forwardIndex_dropped_iff k _ hw hh]

/-- Settles O42: acceptance is `exec_of_admissible`; the layer is `PFWD`'s, where the last source of a target wins
(`landed_last`) and a target without a source is filled (`landed_none`). -/
theorem permFwdCompletes : Obligations.PermFwdCompletes := by
  intro s m hadm t fwd
  have hexec := exec_of_admissible (i := .permFwd m) rfl hadm
  rw [encode_permFwd] at hexec
  refine ⟨hexec, fun ch hsel => ?_⟩
  intro u
  obtain ⟨_, _, ⟨hw, hh, _⟩, _⟩ := hadm
  have hrun : (t.lane ch).lbusy = true := acceptedState_running hsel
  have hop : opcodeOf (opField t.cmdr) = some .permFwd := opcodeOf_laneWord (encode_permFwd m)
  have hcell : ∀ k i, t.cell k ch i = s.cell k ch i := fun k i => acceptedState_cell _ m s k ch i
  have hlane : t.lane ch = { s.lane ch with lbusy := selects m ch } := acceptedState_lane _ m s ch
  have hlayer (j : Nat) : u.cell .layer ch j =
      if j < s.pixels then landed (fun i => decide (fwd i = (j : Int))) (t.lane ch).layer s.pixels
      else t.cell .layer ch j :=
    (permFwd_layer hrun hop j).trans (pfwdLayer_layer _ _ _ _ _)
  obtain ⟨hsk, hsklen, hdegraded, hdegr⟩ := permFwd_keeps hrun hop
  refine ⟨laneComplete_frame hrun, hdegr, fun i j hi hj hfwd hlast => ?_, fun j hj hnone => ?_, fun i hi => ?_,
    fun i => ?_, ?_, ?_, ?_⟩
  · rw [hlayer, if_pos hj, landed_last hi (decide_eq_true hfwd) (fun i' h h' => decide_eq_false (hlast i' h h'))]
    exact hcell .layer i
  · rw [hlayer, if_pos hj, landed_none (fun i hi => decide_eq_false (hnone i hi))]
  · rw [hlayer, if_neg (not_lt.2 hi), hcell]
  · rw [hsk, hcell]
  · rw [permFwd_dropped hrun hop]
    exact congrArg _ (pfwdLayer_count_eq _ hw hh _)
  · rw [hsklen, hlane]
  · rw [hdegraded, hlane]

/-! ### The completion step of `PERM.REV` -/

section Restoring

variable {s : State} {ch : Lane} (hrun : (s.lane ch).lbusy = true) (hop : opcodeOf (opField s.cmdr) = some .permRev)
include hrun hop

theorem permRev_layer (i : Nat) :
    (laneComplete ch s).cell .layer ch i = (s.prevOf (s.lane ch)).layer.read i := by
  rw [laneComplete_cell hrun, laneTransform_permRev ch hop]
  rfl

/-- `PERM.REV` writes nothing of its lane but the layer, and no flag but `DONE` (R131). -/
theorem permRev_keeps :
    (∀ i, (laneComplete ch s).cell .sk ch i = s.cell .sk ch i) ∧
    ((laneComplete ch s).lane ch).sklen = (s.lane ch).sklen ∧
    ((laneComplete ch s).lane ch).dropped = (s.lane ch).dropped ∧
    ((laneComplete ch s).lane ch).degraded = (s.lane ch).degraded ∧
    (laneComplete ch s).flags.degr = s.flags.degr := by
  have ht := laneTransform_permRev ch hop
  refine ⟨fun i => ?_, ?_, laneComplete_dropped_of_none hrun (by rw [ht]; rfl),
    laneComplete_degraded_of_none hrun (by rw [ht]; rfl)⟩
  · rw [laneComplete_cell hrun, ht]
    rfl
  · rw [laneComplete_sklen hrun, ht]
    rfl

end Restoring

/-- Settles O43: acceptance is `exec_of_admissible_of_keyOk`; the layer is `PREV`'s, with `landed_last` and
`landed_none` as in `permFwdCompletes`. -/
theorem permRevCompletes : Obligations.PermRevCompletes := by
  intro s m hadm hcop v t rev
  have hexec := exec_of_admissible_of_keyOk (i := .permRev m) rfl hadm ((keyOk_iff s).2 hcop)
  rw [encode_permRev] at hexec
  refine ⟨hexec, fun ch hsel => ?_⟩
  intro u
  have hrun : (t.lane ch).lbusy = true := acceptedState_running hsel
  have hop : opcodeOf (opField t.cmdr) = some .permRev := opcodeOf_laneWord (encode_permRev m)
  have hkeyed : ({ s with inv := v } : State).lane ch = s.lane ch := keyStage_lane s ch
  have hlane : t.lane ch = { s.lane ch with lbusy := selects m ch } := by
    rw [← hkeyed]
    exact acceptedState_lane _ m _ ch
  have hcell (k : MemKind) (i : Nat) : t.cell k ch i = s.cell k ch i := by
    rw [State.cell, hlane]
    cases k <;> rfl
  have hlayer (i : Nat) : u.cell .layer ch i =
      if i < s.pixels then landed (fun j => decide (rev j = i)) (t.lane ch).layer s.pixels else t.cell .layer ch i :=
    (permRev_layer hrun hop i).trans (prevLayer_layer _ _ _ _ _ _ _)
  obtain ⟨hsk, hsklen, hdropped, hdegraded, hdegr⟩ := permRev_keeps hrun hop
  refine ⟨laneComplete_frame hrun, hdegr, fun i j hj hi hrev hlast => ?_, fun i hi hnone => ?_, fun i hi => ?_,
    fun i => ?_, ?_, ?_, ?_⟩
  · rw [hlayer, if_pos hi, landed_last hj (decide_eq_true hrev) (fun j' h h' => decide_eq_false (hlast j' h h'))]
    exact hcell .layer j
  · rw [hlayer, if_pos hi, landed_none (fun j hj => decide_eq_false (hnone j hj))]
  · rw [hlayer, if_neg (not_lt.2 hi), hcell]
  · rw [hsk, hcell]
  · rw [hsklen, hlane]
  · rw [hdegraded, hlane]
  · rw [hdropped, hlane]

/-! ### Moving bytes -/

/-- Whatever the map, a target holds the fill byte or a byte of the source (R124, R134). -/
theorem landed_eq_fill_or_source (hit : Nat → Bool) (src : Memory) (n : Nat) :
    landed hit src n = 0#8 ∨ ∃ i < n, landed hit src n = src.read i := by
  unfold landed
  cases h : lastBelow hit n with
  | none => exact .inl rfl
  | some i => exact .inr ⟨i, (lastBelow_some h).1, rfl⟩

/-- Settles O49: below `N` both transforms leave what `landed` says. -/
theorem permutationOnlyMovesBytes : Obligations.PermutationOnlyMovesBytes := by
  intro k v tx ty w h l j hj
  rw [pfwdLayer_layer, prevLayer_layer, if_pos hj, if_pos hj]
  exact ⟨landed_eq_fill_or_source _ _ _, landed_eq_fill_or_source _ _ _⟩

end Sys2Proof.Machine
end

section
/-! The round trip of the square case (41_affine_permutation.md R133): the index maps undo each other, so do the layer
transforms, and the statement O57 from them. -/

namespace Sys2Proof.Machine

/-! ### The index maps undo each other -/

theorem index_mod {x w : Nat} (y : Nat) (hx : x < w) : (x + y * w) % w = x := by
  rw [Nat.add_mul_mod_self_right, Nat.mod_eq_of_lt hx]

theorem index_div {x w : Nat} (y : Nat) (hx : x < w) : (x + y * w) / w = y := by
  rw [Nat.add_mul_div_right _ _ (by omega), Nat.div_eq_of_lt hx, Nat.zero_add]

theorem pos_of_lt_mul_self {i n : Nat} (h : i < n * n) : 0 < n :=
  Nat.pos_of_ne_zero fun h0 => by simp [h0] at h

theorem tmod_modEq (n : Int) (m : Nat) : tmod n m ≡ n [ZMOD m] :=
  Int.modEq_iff_dvd.2 (dvd_sub_tmod n m)

theorem emod_eq_of_modEq {n : Int} {r m : Nat} (hr : r < m) (h : n ≡ r [ZMOD m]) : emod n m = r :=
  Int.natCast_inj.1 (emod_unique (Int.natCast_nonneg r) (Int.ofNat_lt.2 hr) (Int.modEq_iff_dvd.1 h.symm))

/-- With a non-negative key the forward map is the affine map on Euclidean remainders (R122). -/
theorem forwardIndex_eq_of_nonneg {k : AffineKey} (hk : k.Nonneg) {w h : Nat} (hw : 0 < w) (hh : 0 < h) (i : Nat) :
    forwardIndex k w h i =
      ((emod (k.a * (i % w : Nat) + k.b * (i / w : Nat) + k.tx) w +
        emod (k.c * (i % w : Nat) + k.d * (i / w : Nat) + k.ty) h * w : Nat) : Int) := by
  rw [Int.natCast_add, Int.natCast_mul, emod_coe _ hw, emod_coe _ hh]
  simp only [forwardIndex, tmod, Int.tmod_eq_emod_of_nonneg (hk.column _ _), Int.tmod_eq_emod_of_nonneg (hk.row _ _)]

/-- A row `(r, s)` of one matrix times another matrix, applied to `(x, y)`. -/
theorem row_mul_modEq {m r s a b c d e f x y p q : Int} (he : r * a + s * c ≡ e [ZMOD m])
    (hf : r * b + s * d ≡ f [ZMOD m]) (hp : p ≡ a * x + b * y [ZMOD m]) (hq : q ≡ c * x + d * y [ZMOD m]) :
    r * p + s * q ≡ e * x + f * y [ZMOD m] :=
  calc r * p + s * q
      ≡ r * (a * x + b * y) + s * (c * x + d * y) [ZMOD m] := (hp.mul_left r).add (hq.mul_left s)
    _ = (r * a + s * c) * x + (r * b + s * d) * y := by ring
    _ ≡ e * x + f * y [ZMOD m] := (he.mul_right x).add (hf.mul_right y)

section Apply

variable {v : InverseMatrix} {k : AffineKey} {w : Nat} {x y p q : Int}

theorem InverseMatrix.Inverts.left_apply (h : v.Inverts k w) (hp : p ≡ k.a * x + k.b * y [ZMOD w])
    (hq : q ≡ k.c * x + k.d * y [ZMOD w]) : v.i0 * p + v.i1 * q ≡ x [ZMOD w] ∧ v.i2 * p + v.i3 * q ≡ y [ZMOD w] := by
  have hx := row_mul_modEq h.left00 h.left01 hp hq
  have hy := row_mul_modEq h.left10 h.left11 hp hq
  rw [one_mul, zero_mul, add_zero] at hx
  rw [one_mul, zero_mul, zero_add] at hy
  exact ⟨hx, hy⟩

theorem InverseMatrix.Inverts.right_apply (h : v.Inverts k w) (hx : x ≡ v.i0 * p + v.i1 * q [ZMOD w])
    (hy : y ≡ v.i2 * p + v.i3 * q [ZMOD w]) : k.a * x + k.b * y ≡ p [ZMOD w] ∧ k.c * x + k.d * y ≡ q [ZMOD w] := by
  have hp := row_mul_modEq h.right00 h.right01 hx hy
  have hq := row_mul_modEq h.right10 h.right11 hx hy
  rw [one_mul, zero_mul, add_zero] at hp
  rw [one_mul, zero_mul, zero_add] at hq
  exact ⟨hp, hq⟩

end Apply

/-- Taking the translation off again, by truncated remainders of whatever sign (R130). -/
theorem tmod_emod_sub_modEq (n t : Int) {m : Nat} (hm : 0 < m) : tmod ((emod (n + t) m : Nat) - t) m ≡ n [ZMOD m] := by
  refine (tmod_modEq _ m).trans ?_
  have h := (emod_modEq (n + t) hm).sub_right t
  rwa [add_sub_cancel_right] at h

/-- Putting the translation on again. -/
theorem add_modEq_of_modEq_tmod_sub {n r t : Int} {m : Nat} (h : n ≡ tmod (r - t) m [ZMOD m]) : n + t ≡ r [ZMOD m] := by
  have h' := (h.trans (tmod_modEq (r - t) m)).add_right t
  rwa [sub_add_cancel] at h'

section Square

variable {k : AffineKey} {v : InverseMatrix} {n : Nat}

/-- `REV(FWD(i)) = i`: the adjusted coordinates are `M * (x, y)` modulo `n`, and `v` is a left inverse of `M`. -/
theorem reverseIndex_forwardIndex (hk : k.Nonneg) (hv : v.Inverts k n) {i : Nat} (hi : i < n * n) :
    reverseIndex v k.tx k.ty n n (forwardIndex k n n i).toNat = i := by
  have h0 := pos_of_lt_mul_self hi
  obtain ⟨hx, hy⟩ := hv.left_apply
    (tmod_emod_sub_modEq (k.a * (i % n : Nat) + k.b * (i / n : Nat)) k.tx h0)
    (tmod_emod_sub_modEq (k.c * (i % n : Nat) + k.d * (i / n : Nat)) k.ty h0)
  rw [forwardIndex_eq_of_nonneg hk h0 h0, Int.toNat_natCast, reverseIndex_eq v k.tx k.ty _ h0 h0, adjustedX, adjustedY,
    index_mod _ (emod_lt _ h0), index_div _ (emod_lt _ h0), emod_eq_of_modEq (Nat.mod_lt i h0) hx,
    emod_eq_of_modEq (Nat.div_lt_of_lt_mul hi) hy, Nat.mod_add_div']

/-- `FWD(REV(j)) = j`, because `v` is a right inverse too. -/
theorem forwardIndex_reverseIndex (hk : k.Nonneg) (hv : v.Inverts k n) {j : Nat} (hj : j < n * n) :
    forwardIndex k n n (reverseIndex v k.tx k.ty n n j) = (j : Int) := by
  have h0 := pos_of_lt_mul_self hj
  obtain ⟨hp, hq⟩ := hv.right_apply
    (emod_modEq (v.i0 * adjustedX k.tx n j + v.i1 * adjustedY k.ty n n j) h0)
    (emod_modEq (v.i2 * adjustedX k.tx n j + v.i3 * adjustedY k.ty n n j) h0)
  rw [forwardIndex_eq_of_nonneg hk h0 h0, reverseIndex_eq v k.tx k.ty j h0 h0,
    index_mod _ (emod_lt _ h0), index_div _ (emod_lt _ h0),
    emod_eq_of_modEq (Nat.mod_lt j h0) (add_modEq_of_modEq_tmod_sub hp),
    emod_eq_of_modEq (Nat.div_lt_of_lt_mul hj) (add_modEq_of_modEq_tmod_sub hq), Nat.mod_add_div']

/-! ### The layer transforms undo each other -/

theorem landed_of_unique {hit : Nat → Bool} {src : Memory} {n i : Nat} (hi : i < n) (hp : hit i = true)
    (huniq : ∀ j < n, hit j = true → j = i) : landed hit src n = src.read i :=
  landed_last hi hp fun j hij hj => Bool.eq_false_iff.2 fun hj' => by
    have := huniq j hj hj'
    omega

/-- A target's byte is that of its one source, the pixel that the reverse map finds. -/
theorem pfwdLayer_read_of_inverts (hk : k.Nonneg) (hv : v.Inverts k n) (l : LaneState) {j : Nat} (hj : j < n * n) :
    (pfwdLayer k n n l).1.layer.read j = l.layer.read (reverseIndex v k.tx k.ty n n j) := by
  have h0 := pos_of_lt_mul_self hj
  rw [pfwdLayer_layer, if_pos hj]
  refine landed_of_unique (reverseIndex_lt v k.tx k.ty j h0 h0)
    (decide_eq_true (forwardIndex_reverseIndex hk hv hj)) fun i hi hhit => ?_
  have hback := reverseIndex_forwardIndex hk hv hi
  rwa [of_decide_eq_true hhit, Int.toNat_natCast, eq_comm] at hback

/-- The reverse transform fetches a cell's byte from its forward target. -/
theorem prevLayer_read_of_inverts (hk : k.Nonneg) (hv : v.Inverts k n) (l : LaneState) {i : Nat} (hi : i < n * n) :
    (prevLayer v k.tx k.ty n n l).layer.read i = l.layer.read (forwardIndex k n n i).toNat := by
  have h0 := pos_of_lt_mul_self hi
  have hlt := forwardIndex_lt k i h0 h0
  have hpos := forwardIndex_nonneg (w := n) (h := n) i hk
  rw [prevLayer_layer, if_pos hi]
  refine landed_of_unique (by omega) (decide_eq_true (reverseIndex_forwardIndex hk hv hi)) fun j hj hhit => ?_
  have hback := forwardIndex_reverseIndex hk hv hj
  rw [of_decide_eq_true hhit] at hback
  rw [hback, Int.toNat_natCast]

/-- R133: the reverse transform restores every cell of the layer. -/
theorem prevLayer_pfwdLayer (hk : k.Nonneg) (hv : v.Inverts k n) {l l' : LaneState}
    (hl' : ∀ j, l'.layer.read j = (pfwdLayer k n n l).1.layer.read j) (i : Nat) :
    (prevLayer v k.tx k.ty n n l').layer.read i = l.layer.read i := by
  by_cases hi : i < n * n
  · have h0 := pos_of_lt_mul_self hi
    have hlt := forwardIndex_lt k i h0 h0
    have hpos := forwardIndex_nonneg (w := n) (h := n) i hk
    rw [prevLayer_read_of_inverts hk hv _ hi, hl', pfwdLayer_read_of_inverts hk hv l (by omega),
      reverseIndex_forwardIndex hk hv hi]
  · rw [prevLayer_layer, if_neg hi, hl', pfwdLayer_layer, if_neg hi]

/-- A non-negative key drops no pixel (R133). -/
theorem pfwdLayer_count_of_nonneg (hk : k.Nonneg) {w h : Nat} (hw : 0 < w) (hh : 0 < h) (l : LaneState) :
    (pfwdLayer k w h l).2 = 0 := by
  rw [pfwdLayer_count_eq k hw hh]
  simp [forwardIndex_nonneg _ hk]

end Square

/-! ### A whole command -/

theorem completeAll_shared (order : List Lane) (s : State) : SharedUnchanged s (completeAll order s) := by
  induction order generalizing s with
  | nil => exact ⟨rfl, rfl, rfl, rfl, rfl, rfl, rfl, rfl, rfl, rfl, rfl, rfl, rfl, rfl, rfl, rfl⟩
  | cons ch order ih => exact (laneComplete_shared ch s).trans (ih _)

/-- A lane's step leaves the same in its lane before and after another lane's (42_layer_pipeline.md R163). -/
theorem laneComplete_laneComplete_lane_same {ch c : Lane} (h : c ≠ ch) (s : State) :
    (laneComplete c (laneComplete ch s)).lane c = (laneComplete c s).lane c := by
  rw [laneComplete_comm, laneComplete_lane_other _ h]

/-- After a whole command each lane is as its own step leaves it. -/
theorem completeAll_lane (s : State) (ch : Lane) : (completeAll Lane.all s).lane ch = (laneComplete ch s).lane ch := by
  show (laneComplete .l2 (laneComplete .l1 (laneComplete .l0 s))).lane ch = _
  cases ch with
  | l0 => rw [laneComplete_lane_other _ (by decide), laneComplete_lane_other _ (by decide)]
  | l1 => rw [laneComplete_lane_other _ (by decide), laneComplete_laneComplete_lane_same (by decide)]
  | l2 => rw [laneComplete_laneComplete_lane_same (by decide), laneComplete_laneComplete_lane_same (by decide)]

theorem completeAll_cell (s : State) (k : MemKind) (ch : Lane) (i : Nat) :
    (completeAll Lane.all s).cell k ch i = (laneComplete ch s).cell k ch i := by
  rw [State.cell, completeAll_lane, State.cell]

theorem completeAll_idle (s : State) : (completeAll Lane.all s).busy = false := by
  rw [Bool.eq_false_iff, Ne, busy_iff]
  rintro ⟨ch, hch⟩
  rw [completeAll_lane, laneComplete_lbusy] at hch
  cases hch

/-- After a whole command the next one with the same mask is admissible: the dimensions and lengths stand. -/
theorem Admissible.completeAll {m : LaneMask} {s : State} (h : Admissible m s) (w : Word) :
    Admissible m (completeAll Lane.all (acceptedState w m s)) := by
  obtain ⟨_, hmask, hgeo, hlen⟩ := h
  have hshared := completeAll_shared Lane.all (acceptedState w m s)
  have hwidth : (Machine.completeAll Lane.all (acceptedState w m s)).width = s.width := hshared.width
  have hheight : (Machine.completeAll Lane.all (acceptedState w m s)).height = s.height := hshared.height
  have hparams : (Machine.completeAll Lane.all (acceptedState w m s)).params = s.params := hshared.params
  refine ⟨completeAll_idle _, hmask, ?_, fun ch hsel => ?_⟩
  · rw [GeometryLegal, hwidth, hheight, hparams]
    exact hgeo
  · rw [completeAll_lane, laneComplete_len, acceptedState_lane, hwidth, hheight]
    exact hlen ch hsel

/-! ### The round trip of the commands -/

section Commands

variable {m : LaneMask} {ch : Lane} (hsel : selects m ch = true) (s : State)
include hsel

/-- A selected lane after the whole of `PERM.FWD`. -/
theorem permFwd_completed_lane :
    let t := acceptedState (laneWord 0x10 m) m s
    let r := pfwdLayer s.key.values s.width.toNat s.height.toNat (s.lane ch)
    (∀ j, (completeAll Lane.all t).cell .layer ch j = r.1.layer.read j) ∧
    ((completeAll Lane.all t).lane ch).dropped = BitVec.ofNat 32 r.2 := by
  intro t r
  have hrun : (t.lane ch).lbusy = true := acceptedState_running hsel
  have hop : opcodeOf (opField t.cmdr) = some .permFwd := opcodeOf_laneWord (encode_permFwd m)
  have hlane : t.lane ch = { s.lane ch with lbusy := selects m ch } := acceptedState_lane _ m s ch
  refine ⟨fun j => ?_, ?_⟩
  · rw [completeAll_cell, permFwd_layer hrun hop, hlane]
    rfl
  · rw [completeAll_lane, permFwd_dropped hrun hop, hlane]
    rfl

/-- A cell of a selected lane after the whole of `PERM.REV`. -/
theorem permRev_completed_layer (i : Nat) :
    (completeAll Lane.all (acceptedState (laneWord 0x11 m) m (keyStage s))).cell .layer ch i =
      (prevLayer (keyStageResult s.key.values s.width.toNat).matrix s.key.values.tx s.key.values.ty s.width.toNat
        s.height.toNat (s.lane ch)).layer.read i := by
  have hrun : ((acceptedState (laneWord 0x11 m) m (keyStage s)).lane ch).lbusy = true := acceptedState_running hsel
  rw [completeAll_cell, permRev_layer hrun (opcodeOf_laneWord (encode_permRev m)), acceptedState_lane, keyStage_lane]
  rfl

end Commands

/-- Settles O57: `PERM.FWD` leaves the key and the dimensions, so `PERM.REV` is admissible and inverts the same key;
lane by lane it undoes the permutation by `prevLayer_pfwdLayer`. -/
theorem permutationRoundTrip : Obligations.PermutationRoundTrip := by
  intro s m hadm hcop hsquare ha hb hc hd htx hty
  have hnonneg : s.key.values.Nonneg := ⟨ha, hb, hc, hd, htx, hty⟩
  have hinvertible : keyInvertible s.key.values s.width.toNat = true := (keyOk_iff s).2 hcop
  have hpos : 0 < s.width.toNat := Nat.lt_of_lt_of_le Nat.two_pos hcop.1
  let t := acceptedState (laneWord 0x10 m) m s
  let u := completeAll Lane.all t
  have hfwd : exec (.permFwd m) s = .next t := by
    rw [exec_of_admissible (i := .permFwd m) rfl hadm, encode_permFwd]
    rfl
  have hshared : SharedUnchanged t u := completeAll_shared Lane.all t
  have hkey : u.key = s.key := hshared.key
  have hwidth : u.width = s.width := hshared.width
  have hheight : u.height = s.width := hshared.height.trans hsquare
  have hrev : exec (.permRev m) u = .next (acceptedState (laneWord 0x11 m) m (keyStage u)) := by
    rw [exec_of_admissible_of_keyOk (i := .permRev m) rfl (hadm.completeAll _)
      (by rwa [State.keyOk, hkey, hwidth]), encode_permRev]
    rfl
  refine ⟨t, _, hfwd, hrev, fun ch hsel => ?_⟩
  obtain ⟨hlayer, hdropped⟩ := permFwd_completed_lane hsel s
  rw [hsquare] at hlayer hdropped
  refine ⟨?_, fun i => ?_⟩
  · rw [hdropped, pfwdLayer_count_of_nonneg hnonneg hpos hpos]
  · rw [permRev_completed_layer hsel, hkey, hwidth, hheight]
    exact prevLayer_pfwdLayer hnonneg (keyStageResult_inverts s.width.isLt hinvertible) hlayer i

end Sys2Proof.Machine
end

section
/-! The completion step and the barrier, whatever the command (42_layer_pipeline.md R156 to R160), and the statements
O7, O50, O51 and O52 from them. -/

namespace Sys2Proof.Machine

/-! ### What a lane step reads -/

/-- Settles O52: an enabled step leaves what its transform leaves, which `laneTransform_congr` reads off those inputs;
a step that is not enabled leaves the lane. -/
theorem laneStepReadsOnlyItsOwnLane : Obligations.LaneStepReadsOnlyItsOwnLane := by
  intro s s' ch hlane hcmdr hrev hwidth hheight hkey hinv
  cases hrun : (s.lane ch).lbusy with
  | false => rw [laneComplete_idle hrun, laneComplete_idle (by rwa [hlane]), hlane]
  | true =>
    rw [laneComplete_lane_same hrun, laneComplete_lane_same (by rwa [hlane]),
      laneTransform_congr hlane hcmdr hrev hwidth hheight hkey hinv]

/-! ### The frame of a lane step -/

/-- Two 16-bit dimensions make a pixel count that a counter register holds without loss (10_state.md R21, R37). -/
theorem toNat_ofNat_of_le_pixels {s : State} {d : Nat} (h : d ≤ s.pixels) : (BitVec.ofNat 32 d).toNat = d := by
  have hpix : s.pixels ≤ 65535 * 65535 :=
    Nat.mul_le_mul (Nat.le_of_lt_succ s.width.isLt) (Nat.le_of_lt_succ s.height.isLt)
  rw [BitVec.toNat_ofNat]
  omega

/-- The transform degrades a pixel exactly when it is an extract's and the count it leaves in `DEGRADED` is not 0: the
count is at most `N`, so the register does not wrap. -/
theorem laneTransform_degrades_eq {s : State} {ch : Lane} (hrun : (s.lane ch).lbusy = true) :
    (laneTransform s ch).degrades = (decide (opField s.cmdr = 0x21#8 ∨ opField s.cmdr = 0x31#8) &&
      decide (((laneComplete ch s).lane ch).degraded ≠ 0#32)) := by
  have hext := laneTransform_deg_iff s ch
  cases hdeg : (laneTransform s ch).deg with
  | none =>
    have hnot : ¬ (opField s.cmdr = 0x21#8 ∨ opField s.cmdr = 0x31#8) := fun h => by
      obtain ⟨d, hd⟩ := hext.2 h
      rw [hdeg] at hd
      cases hd
    simp only [LaneResult.degrades, hdeg, decide_eq_false hnot, Bool.false_and]
  | some d =>
    obtain ⟨_, _, _, _, hle⟩ := laneTransform_frame s ch
    have hfit := toNat_ofNat_of_le_pixels (hle d hdeg)
    have hzero : 0 < d ↔ BitVec.ofNat 32 d ≠ 0#32 := by
      rw [Ne, ← BitVec.toNat_inj, hfit]
      exact Nat.pos_iff_ne_zero
    rw [(laneComplete_degraded_of_some hrun hdeg).1, decide_eq_true (hext.1 ⟨d, hdeg⟩), Bool.true_and]
    simp only [LaneResult.degrades, hdeg, hzero]

/-- Settles O51: the frame is `laneComplete_frame`, `DEGR` by `laneTransform_degrades_eq`. -/
theorem laneStepFrameHolds : Obligations.LaneStepFrameHolds := by
  intro s ch
  refine ⟨fun hrun => ⟨laneComplete_frame hrun, ?_⟩, laneComplete_idle⟩
  rw [laneComplete_degr hrun, laneTransform_degrades_eq hrun]
  rfl

/-! ### The barrier -/

theorem busy_eq_false_iff (s : State) : s.busy = false ↔ ∀ ch, (s.lane ch).lbusy = false := by
  rw [← Bool.not_eq_true, busy_iff]
  simp only [not_exists, Bool.not_eq_true]

/-- A lane step leaves the block idle exactly when no other lane runs (10_state.md R16). -/
theorem laneComplete_busy_eq_false_iff (ch : Lane) (s : State) :
    (laneComplete ch s).busy = false ↔ ∀ c, c ≠ ch → (s.lane c).lbusy = false := by
  rw [busy_eq_false_iff]
  simp only [← Bool.not_eq_true, laneComplete_lbusy_iff, not_and]

/-- No lane step changes the mask in `CMDR`, so a lane stays owned until the block is idle (10_state.md R16). -/
theorem laneComplete_owned (ch c : Lane) (s : State) :
    (laneComplete ch s).owned c = ((laneComplete ch s).busy && selects s.cmdrLanes c) := by
  rw [State.owned, State.cmdrLanes, (laneComplete_shared ch s).cmdr, State.cmdrLanes]

/-- Settles O50: `DONE` was down, so it is up afterwards exactly when the block is idle; ownership is `BUSY` under a
mask that stays. -/
theorem barrierReleasesLanesTogether : Obligations.BarrierReleasesLanesTogether := by
  intro s ch hrun hdone
  refine ⟨laneComplete_busy_eq_false_iff ch s, ?_, fun hbusy c => ?_, fun hidle c => ?_⟩
  · rw [laneComplete_done hrun, hdone, Bool.false_or, Bool.not_eq_true']
  · rw [laneComplete_owned, hbusy, State.owned, busy_of_lane hrun]
  · rw [laneComplete_owned, hidle, Bool.false_and]

/-! ### Progress -/

/-- How many lanes run: what the block's own step counts down (42_layer_pipeline.md R158). -/
def State.runningLanes (s : State) : Nat := Lane.all.countP (fun ch => (s.lane ch).lbusy)

theorem Lane.mem_all (ch : Lane) : ch ∈ Lane.all := by cases ch <;> decide

theorem runningLanes_le (s : State) : s.runningLanes ≤ 3 := List.countP_le_length

theorem runningLanes_eq_zero_iff (s : State) : s.runningLanes = 0 ↔ s.busy = false := by
  rw [State.runningLanes, List.countP_eq_zero, busy_eq_false_iff]
  simp only [Lane.mem_all, forall_const, Bool.not_eq_true]

theorem runningLanes_laneComplete {ch : Lane} {s : State} (hrun : (s.lane ch).lbusy = true) :
    (laneComplete ch s).runningLanes + 1 = s.runningLanes := by
  have hoff := laneComplete_lbusy ch s
  have hsame : ∀ c, c ≠ ch → (laneComplete ch s).lane c = s.lane c := fun c hc => laneComplete_lane_other s hc
  cases ch <;> simp [State.runningLanes, Lane.all, List.countP_cons, hrun, hoff, hsame] <;> omega

/-- The block's own step completes one running lane, if there is one. -/
theorem runningLanes_autonomous (s : State) : (autonomous s).runningLanes = s.runningLanes - 1 := by
  rcases autonomous_cases s with ⟨hidle, he⟩ | ⟨ch, hrun, he⟩ <;> rw [he]
  · rw [(runningLanes_eq_zero_iff s).2 hidle]
  · have := runningLanes_laneComplete hrun
    omega

/-- A state in which the block is running, or is idle with `DONE` up. -/
def State.DoneIfIdle (s : State) : Prop := s.busy = false → s.flags.done = true

/-- A lane step that leaves the block idle sets `DONE` (42_layer_pipeline.md R157). -/
theorem State.DoneIfIdle.laneComplete {s : State} (h : s.DoneIfIdle) (ch : Lane) :
    (Machine.laneComplete ch s).DoneIfIdle := by
  cases hrun : (s.lane ch).lbusy with
  | false => rwa [laneComplete_idle hrun]
  | true =>
    intro hidle
    rw [laneComplete_done hrun, hidle, Bool.not_false, Bool.or_true]

theorem State.DoneIfIdle.autonomous {s : State} (h : s.DoneIfIdle) : (Machine.autonomous s).DoneIfIdle := by
  rcases autonomous_cases s with ⟨_, he⟩ | ⟨ch, _, he⟩ <;> rw [he]
  · exact h
  · exact h.laneComplete ch

theorem doneIfIdle_of_busy {s : State} (h : s.busy = true) : s.DoneIfIdle := fun hidle => by
  rw [h] at hidle
  cases hidle

/-- Settles O7: each of the three steps is the block's own, and takes a running lane off the at most three. -/
theorem runningCommandCompletes : Obligations.RunningCommandCompletes := by
  intro s ha
  have ha1 : (autonomous s).agenda = [] := by rw [autonomous_agenda, ha]
  have ha2 : (autonomous (autonomous s)).agenda = [] := by rw [autonomous_agenda, ha1]
  have hidle : (autonomous (autonomous (autonomous s))).busy = false := by
    have hle := runningLanes_le s
    rw [← runningLanes_eq_zero_iff]
    simp only [runningLanes_autonomous]
    omega
  refine ⟨_, _, _, step_nil ha, step_nil ha1, step_nil ha2, hidle,
    fun hbusy => ?_⟩
  exact (doneIfIdle_of_busy hbusy).autonomous.autonomous.autonomous hidle

end Sys2Proof.Machine
end

section
/-! What a write to `CMD` leaves of the host's data, accepted or rejected (42_layer_pipeline.md R150 to R153,
60_exceptions.md R191), and the statement O30. -/

namespace Sys2Proof.Machine

/-- Everything that no command writes when it is written to `CMD`: of a lane, all but its `LBUSY` bit. -/
structure CommandFrame (s t : State) : Prop where
  ctrl : t.ctrl = s.ctrl
  width : t.width = s.width
  height : t.height = s.height
  key : t.key = s.key
  params : t.params = s.params
  draws : t.draws = s.draws
  agenda : t.agenda = s.agenda
  lane : ∀ ch, { t.lane ch with lbusy := false } = { s.lane ch with lbusy := false }

/-! ### Rejection -/

theorem setErrorFlag_degr (c : Cause) (f : Flags) : (setErrorFlag c f).degr = f.degr := by cases c <;> rfl

/-- Every error event sets an error flag (60_exceptions.md R180). -/
theorem setErrorFlag_anyError {c : Cause} (hc : c ≠ .none) (f : Flags) : (setErrorFlag c f).anyError = true := by
  cases c with
  | none => exact absurd rfl hc
  | _ => simp [setErrorFlag, Flags.anyError]

/-- What a rejected command leaves (60_exceptions.md R191). -/
structure Rejection (s t : State) : Prop where
  frame : CommandFrame s t
  cmdr : t.cmdr = s.cmdr
  cause : t.cause ≠ .none
  done : t.flags.done = s.flags.done
  degr : t.flags.degr = s.flags.degr
  anyError : t.flags.anyError = true
  inv : t.cause ≠ .keyInvalid → t.inv = s.inv
  lane : ∀ ch, t.lane ch = s.lane ch

/-- An error event on a state that differs from `s` at most in the key-stage results, and there only for
`KEY_INVALID`. -/
theorem rejection_of_raiseError {s u : State} {c : Cause} (hc : c ≠ .none)
    (hu : u = s ∨ c = .keyInvalid ∧ u = keyStage s) (info : Word) (r : Response) :
    Rejection s ((raiseError c info u).respond r) := by
  rcases hu with rfl | ⟨rfl, rfl⟩
  · exact {
      frame := ⟨rfl, rfl, rfl, rfl, rfl, rfl, rfl, fun ch => by simp⟩
      cmdr := rfl
      cause := hc
      done := setErrorFlag_done c u.flags
      degr := setErrorFlag_degr c u.flags
      anyError := setErrorFlag_anyError hc u.flags
      inv := fun _ => rfl
      lane := fun ch => by simp }
  · have hlane : ∀ ch, ((raiseError .keyInvalid info (keyStage s)).respond r).lane ch = s.lane ch := fun ch => by
      rw [respond_lane, raiseError_lane, keyStage_lane]
    exact {
      frame := ⟨rfl, rfl, rfl, rfl, rfl, rfl, rfl, fun ch => by rw [hlane]⟩
      cmdr := rfl
      cause := hc
      done := rfl
      degr := rfl
      anyError := setErrorFlag_anyError hc s.flags
      inv := fun h => absurd rfl h
      lane := hlane }

/-! ### Acceptance -/

/-- What an accepted command leaves (42_layer_pipeline.md R153). -/
structure Acceptance (i : Instr) (s t : State) : Prop where
  frame : CommandFrame s t
  cmdr : t.cmdr = encode i
  cause : t.cause = s.cause
  einfo : t.einfo = s.einfo
  response : t.response = some .ok
  flags : t.flags = { s.flags with done := t.flags.done, degr := false }

/-- The key stage, if there is one, writes only the inverse registers, and the acceptance starts lanes. -/
theorem acceptance_accepted (i : Instr) (s : State) : Acceptance i s (accepted i (staged i s)) := by
  have hstaged : staged i s = s ∨ staged i s = keyStage s := by
    unfold staged
    split
    · exact .inr rfl
    · exact .inl rfl
  have hlane : ∀ ch, { (accepted i (staged i s)).lane ch with lbusy := false } = { s.lane ch with lbusy := false } := by
    intro ch
    rcases hstaged with h | h <;> rw [h] <;> cases i <;> cases ch <;> rfl
  rcases hstaged with h | h <;> rw [h] at hlane ⊢ <;> cases i <;>
    exact ⟨⟨rfl, rfl, rfl, rfl, rfl, rfl, rfl, hlane⟩, rfl, rfl, rfl, rfl, rfl⟩

/-- A command is rejected, or an idle block accepts it. -/
theorem exec_rejection_or_acceptance {i : Instr} {s t : State} (ht : exec i s = .next t) :
    Rejection s t ∨ (s.busy = false ∧ Acceptance i s t) := by
  rcases exec_cases i s with ⟨_, he⟩ | ⟨_, _, he⟩ | ⟨info, _, _, _, he⟩ | ⟨_, _, _, _, _, he⟩ |
    ⟨hidle, _, _, _, he⟩ <;> rw [he] at ht <;> cases ht
  · exact .inl (rejection_of_raiseError (by decide) (.inl rfl) _ _)
  · exact .inl (rejection_of_raiseError (by decide) (.inl rfl) _ _)
  · exact .inl (rejection_of_raiseError (by decide) (.inl rfl) _ _)
  · exact .inl (rejection_of_raiseError (by decide) (.inr ⟨rfl, rfl⟩) _ _)
  · exact .inr ⟨hidle, acceptance_accepted i s⟩

/-- Settles O30: the clauses of the statement are the fields of `Rejection` and of `Acceptance`. -/
theorem rejectedCommandChangesNoData : Obligations.RejectedCommandChangesNoData := by
  intro s t i ht
  have hout := exec_rejection_or_acceptance ht
  have hframe : CommandFrame s t := hout.elim Rejection.frame (fun h => h.2.frame)
  refine ⟨hframe.ctrl, hframe.width, hframe.height, hframe.key, hframe.params, hframe.draws, hframe.agenda,
    hframe.lane, ?_⟩
  rcases hout with h | ⟨hidle, h⟩
  · exact .inr ⟨h.cmdr, h.cause, h.done, h.degr, h.anyError, h.inv, h.lane⟩
  · exact .inl ⟨hidle, h.cmdr, h.cause, h.einfo, h.response, h.flags⟩

end Sys2Proof.Machine
end

section
/-! A host write outside of the owned lanes commutes with another lane's completion step (42_layer_pipeline.md R163,
70_reset_and_hazards.md R220), and the statement O54. -/

namespace Sys2Proof.Machine

/-! ### Changes that a lane step does not see -/

/-- A completion step commutes with a change of the interrupt enables and of the response. -/
theorem laneComplete_outside (ch : Lane) (s : State) (c : Ctrl) (r : Option Response) :
    laneComplete ch { s with ctrl := c, response := r } = { laneComplete ch s with ctrl := c, response := r } := by
  cases hrun : (s.lane ch).lbusy with
  | false => rw [laneComplete_idle hrun, laneComplete_idle (by cases ch <;> exact hrun)]
  | true =>
    rw [laneComplete_running hrun, laneComplete_running (by cases ch <;> exact hrun)]
    cases ch <;> rfl

theorem laneComplete_respond (ch : Lane) (r : Response) (s : State) :
    laneComplete ch (s.respond r) = (laneComplete ch s).respond r :=
  calc laneComplete ch (s.respond r)
      = { laneComplete ch s with ctrl := s.ctrl, response := some r } := laneComplete_outside ch s s.ctrl (some r)
    _ = (laneComplete ch s).respond r := by rw [← (laneComplete_shared ch s).ctrl]; rfl

theorem laneComplete_ctrl (ch : Lane) (c : Ctrl) (s : State) :
    laneComplete ch { s with ctrl := c } = { laneComplete ch s with ctrl := c } :=
  calc laneComplete ch { s with ctrl := c }
      = { laneComplete ch s with ctrl := c, response := s.response } := laneComplete_outside ch s c s.response
    _ = { laneComplete ch s with ctrl := c } := by rw [← (laneComplete_shared ch s).response]

theorem setLane_comm {ch c : Lane} (h : c ≠ ch) (s : State) (l x : LaneState) :
    (s.setLane c l).setLane ch x = (s.setLane ch x).setLane c l := by
  cases ch <;> cases c <;> simp_all [State.setLane]

theorem setLane_setFlags (s : State) (c : Lane) (l : LaneState) (f : Flags) :
    ({ s with flags := f } : State).setLane c l = { s.setLane c l with flags := f } := by cases c <;> rfl

theorem busy_setLane {s : State} {c : Lane} {l : LaneState} (h : l.lbusy = (s.lane c).lbusy) :
    (s.setLane c l).busy = s.busy := by
  rw [Bool.eq_iff_iff, busy_iff, busy_iff]
  simp only [setLane_lbusy h]

/-- A completion step commutes with a change of another lane that does not start or stop it. -/
theorem laneComplete_setLane {ch c : Lane} (h : c ≠ ch) {s : State} {l : LaneState}
    (hl : l.lbusy = (s.lane c).lbusy) : laneComplete ch (s.setLane c l) = (laneComplete ch s).setLane c l := by
  have hlane : (s.setLane c l).lane ch = s.lane ch := setLane_lane_other s l h.symm
  cases hrun : (s.lane ch).lbusy with
  | false => rw [laneComplete_idle hrun, laneComplete_idle (by rwa [hlane])]
  | true =>
    have htransform : laneTransform (s.setLane c l) ch = laneTransform s ch :=
      laneTransform_congr hlane (setLane_cmdr s c l) (by rw [setLane_params]) (setLane_width s c l)
        (setLane_height s c l) (setLane_key s c l) (setLane_inv s c l)
    have hl' : l.lbusy = ((s.setLane ch (laneTransform s ch).finish).lane c).lbusy := by
      rw [setLane_lane_other s _ h, hl]
    rw [laneComplete_running hrun, laneComplete_running (by rwa [hlane]), htransform, setLane_comm h, busy_setLane hl',
      setLane_flags]
    exact (setLane_setFlags (s.setLane ch _) c l _).symm

/-- A lane that is not owned while another runs is not in the mask, so that lane's step does not make it owned. -/
theorem laneComplete_owned_of_not_owned {s : State} {ch c : Lane} (hrun : (s.lane ch).lbusy = true)
    (hfree : s.owned c = false) : (laneComplete ch s).owned c = false := by
  rw [State.owned, busy_of_lane hrun, Bool.true_and] at hfree
  rw [laneComplete_owned, hfree, Bool.and_false]

/-! ### Writes to cells -/

/-- An offset in the aperture of a memory addresses that memory or nothing (20_memory.md R54). -/
theorem busTarget_aperture {p : Params} {k : MemKind} {c : Lane} {i n : Nat} (hi : i < 0x1000000) {target : Target}
    (h : busTarget p (BitVec.ofNat 27 (apertureBase k c + i)) n = some target) : target = .cells k c i := by
  have hbase : 0x1000000 ≤ apertureBase k c ∧ apertureBase k c ≤ 0x7000000 := by cases k <;> cases c <;> decide
  have haddr : (BitVec.ofNat 27 (apertureBase k c + i)).toNat = apertureBase k c + i := by
    rw [BitVec.toNat_ofNat]; omega
  cases target with
  | reg r =>
    obtain ⟨_, hr⟩ := busTarget_eq_reg h
    have := Reg.offset_lt r
    omega
  | cells k' c' i' =>
    obtain ⟨heq, hi', _⟩ := busTarget_eq_cells h
    rw [haddr] at heq
    have hslot := apertureSlot_base k c hi
    rw [heq, apertureSlot_base k' c' hi', Option.some.injEq, Prod.mk.injEq] at hslot
    obtain ⟨rfl, rfl⟩ := hslot
    rw [Nat.add_left_cancel heq]

/-- A write in an aperture of a lane that is not owned: a bus error or a store (20_memory.md R56, R57). -/
theorem hostWrite_aperture {s : State} {k : MemKind} {c : Lane} {i n : Nat} (hi : i < 0x1000000)
    (hfree : s.owned c = false) (v : Word) :
    hostWrite (BitVec.ofNat 27 (apertureBase k c + i)) n v s =
      if (busTarget s.params (BitVec.ofNat 27 (apertureBase k c + i)) n).isSome then
        .next ((storeCells k c i n v s).respond .ok)
      else .next (s.respond .err) := by
  cases h : busTarget s.params (BitVec.ofNat 27 (apertureBase k c + i)) n with
  | none => simp [hostWrite, h]
  | some target => simp [hostWrite, h, busTarget_aperture hi h, hfree]

theorem laneComplete_storeCells {ch c : Lane} (h : c ≠ ch) (k : MemKind) (first n : Nat) (v : Word) (s : State) :
    laneComplete ch (storeCells k c first n v s) = storeCells k c first n v (laneComplete ch s) := by
  rw [storeCells, laneComplete_setLane h (setMem_lbusy _ _ _), storeCells, laneComplete_lane_other s h]

/-! ### Writes to registers -/

/-- The registers whose writes commute with the step of a lane other than `c`. -/
def outsideRegs (c : Lane) : List Reg := [.ctrl, .len c, .sklen c]

theorem writeLocked_outsideRegs {c : Lane} {r : Reg} (hr : r ∈ outsideRegs c) {s : State} (hfree : s.owned c = false) :
    r ≠ .cmd ∧ writeLocked s r = false := by
  simp only [outsideRegs, List.mem_cons, List.not_mem_nil, or_false] at hr
  rcases hr with rfl | rfl | rfl
  · exact ⟨nofun, rfl⟩
  · exact ⟨nofun, hfree⟩
  · exact ⟨nofun, hfree⟩

theorem laneComplete_writeReg {ch c : Lane} (h : c ≠ ch) {r : Reg} (hr : r ∈ outsideRegs c) (w : Word) (s : State) :
    laneComplete ch (writeReg r w s) = writeReg r w (laneComplete ch s) := by
  have hlane := laneComplete_lane_other s h
  simp only [outsideRegs, List.mem_cons, List.not_mem_nil, or_false] at hr
  rcases hr with rfl | rfl | rfl
  · exact laneComplete_ctrl ch (ctrlOfWord w) s
  · simp only [writeReg, hlane]
    exact laneComplete_setLane h rfl
  · simp only [writeReg, hlane]
    exact laneComplete_setLane h rfl

theorem hostWrite_outsideRegs {ch c : Lane} (h : c ≠ ch) {s t : State} (hfree : s.owned c = false)
    (hrun : (s.lane ch).lbusy = true) {r : Reg} (hr : r ∈ outsideRegs c) {w : Word}
    (ht : hostWrite (BitVec.ofNat 27 r.offset) 4 w s = .next t) :
    hostWrite (BitVec.ofNat 27 r.offset) 4 w (laneComplete ch s) = .next (laneComplete ch t) := by
  obtain ⟨hcmd, hopen⟩ := writeLocked_outsideRegs hr hfree
  obtain ⟨_, hopen'⟩ := writeLocked_outsideRegs hr (laneComplete_owned_of_not_owned hrun hfree)
  rw [hostWrite_reg s hcmd, hopen] at ht
  cases ht
  rw [hostWrite_reg _ hcmd, hopen', laneComplete_respond, laneComplete_writeReg h hr]
  rfl

/-- Settles O54: before and after the lane step the same write is answered in the same way, and what it stores commutes
with the step. -/
theorem unownedWriteCommutesWithLaneStep : Obligations.UnownedWriteCommutesWithLaneStep := by
  intro s t ch c h hfree hrun
  refine ⟨fun k i n v hi ht => ?_, ?_⟩
  · rw [hostWrite_aperture hi hfree] at ht
    rw [hostWrite_aperture hi (laneComplete_owned_of_not_owned hrun hfree), (laneComplete_shared ch s).params]
    split at ht <;> cases ht
    next hbus => rw [if_pos hbus, laneComplete_respond, laneComplete_storeCells h]
    next hbus => rw [if_neg hbus, laneComplete_respond]
  · have hregs : [0x004, 0x100 + 0x20 * c.toNat, 0x104 + 0x20 * c.toNat] = (outsideRegs c).map Reg.offset := by
      cases c <;> rfl
    intro a ha w ht
    rw [hregs] at ha
    obtain ⟨r, hr, rfl⟩ := List.mem_map.1 ha
    exact hostWrite_outsideRegs h hfree hrun hr ht

end Sys2Proof.Machine
end

section
/-! The completion steps of the pipeline commands `WM.EMB` and `WM.EXT`, cell by cell (42_layer_pipeline.md R155, R159),
and the statements O44 and O45 from them. -/

namespace Sys2Proof.Machine

/-! ### Acceptance, by the number of the command word -/

theorem exec_accepted {i : Instr} {b : Nat} {s : State} (hword : encode i = laneWord b i.lanes)
    (hkey : hasKeyStage i = false) (h : Admissible i.lanes s) :
    exec i s = .next (acceptedState (laneWord b i.lanes) i.lanes s) := by
  rw [← hword]
  exact exec_of_admissible hkey h

theorem exec_accepted_of_keyOk {i : Instr} {b : Nat} {s : State} (hword : encode i = laneWord b i.lanes)
    (hstage : hasKeyStage i = true) (h : Admissible i.lanes s) (hkey : s.keyOk = true) :
    exec i s = .next (acceptedState (laneWord b i.lanes) i.lanes (keyStage s)) := by
  rw [← hword]
  exact exec_of_admissible_of_keyOk hstage h hkey

/-! ### The completion step of `WM.EMB` -/

section PipelineEmbed

variable {s : State} {ch : Lane} (hrun : (s.lane ch).lbusy = true) (hop : opcodeOf (opField s.cmdr) = some .wmEmb)
include hrun hop

/-- The byte that the permutation leaves in a cell is re-coded in place (R155). -/
theorem wmEmb_layer (j : Nat) :
    (laneComplete ch s).cell .layer ch j =
      let q := (s.pfwdOf (s.lane ch)).1.layer.read j
      if j < s.pixels then pixel (highNibble q) (substOf (lowNibble q)) else q := by
  rw [laneComplete_cell hrun, laneTransform_wmEmb ch hop]
  exact embLayer_layer s.pixels (s.pfwdOf (s.lane ch)).1 j

theorem wmEmb_sk (j : Nat) :
    (laneComplete ch s).cell .sk ch j =
      if j < s.pixels then classOf (lowNibble ((s.pfwdOf (s.lane ch)).1.layer.read j)) else s.cell .sk ch j := by
  rw [laneComplete_cell hrun, laneTransform_wmEmb ch hop]
  exact embLayer_sk s.pixels (s.pfwdOf (s.lane ch)).1 j

/-- `WM.EMB` sets `SKLEN` and `DROPPED` and keeps `DEGRADED` and `DEGR` (42_layer_pipeline.md R154, R155). -/
theorem wmEmb_counters :
    ((laneComplete ch s).lane ch).sklen = BitVec.ofNat 32 s.pixels ∧
    ((laneComplete ch s).lane ch).dropped = BitVec.ofNat 32 (s.pfwdOf (s.lane ch)).2 ∧
    ((laneComplete ch s).lane ch).degraded = (s.lane ch).degraded ∧
    (laneComplete ch s).flags.degr = s.flags.degr := by
  have ht := laneTransform_wmEmb ch hop
  refine ⟨?_, ?_, laneComplete_degraded_of_none hrun (by rw [ht]; rfl)⟩
  · rw [laneComplete_sklen hrun, ht]
    rfl
  · rw [laneComplete_lane_same hrun, ht]
    rfl

end PipelineEmbed

/-- Settles O44: acceptance is `exec_accepted`; the byte `q` is what the permutation leaves in the cell, by
`landed_last` or `landed_none`, and the step re-codes it. -/
theorem wmEmbCompletes : Obligations.WmEmbCompletes := by
  intro s m hadm t fwd
  refine ⟨exec_accepted (i := .wmEmb m) (encode_wmEmb m) rfl hadm, fun ch hsel => ?_⟩
  intro u
  obtain ⟨_, _, ⟨hw, hh, _⟩, _⟩ := hadm
  have hrun : (t.lane ch).lbusy = true := acceptedState_running hsel
  have hop : opcodeOf (opField t.cmdr) = some .wmEmb := opcodeOf_laneWord (encode_wmEmb m)
  have hpix : t.pixels = s.pixels := rfl
  have hcell : ∀ k i, t.cell k ch i = s.cell k ch i := fun k i => acceptedState_cell _ m s k ch i
  have hlane : t.lane ch = { s.lane ch with lbusy := selects m ch } := acceptedState_lane _ m s ch
  have hmoved (j : Nat) : (t.pfwdOf (t.lane ch)).1.layer.read j =
      if j < s.pixels then landed (fun i => decide (fwd i = (j : Int))) (t.lane ch).layer s.pixels
      else t.cell .layer ch j :=
    pfwdLayer_layer _ _ _ _ _
  obtain ⟨hsklen, hdropped, hdegraded, hdegr⟩ := wmEmb_counters hrun hop
  refine ⟨laneComplete_frame hrun, hdegr, fun j q hj hq => ?_, fun k i hi => ?_, hsklen, ?_, ?_⟩
  · have hbyte : (t.pfwdOf (t.lane ch)).1.layer.read j = q := by
      rw [hmoved, if_pos hj]
      rcases hq with ⟨i, hi, hfwd, hlast, rfl⟩ | ⟨hnone, rfl⟩
      · rw [landed_last hi (decide_eq_true hfwd) (fun i' h h' => decide_eq_false (hlast i' h h'))]
        exact hcell .layer i
      · exact landed_none fun i hi => decide_eq_false (hnone i hi)
    constructor
    · rw [wmEmb_layer hrun hop, hbyte, hpix, if_pos hj, pixel_toNat, highNibble_toNat, substOf_toNat, lowNibble_toNat]
      rfl
    · rw [wmEmb_sk hrun hop, hbyte, hpix, if_pos hj, classOf_toNat, lowNibble_toNat]
      rfl
  · cases k with
    | layer => rw [wmEmb_layer hrun hop, hmoved, hpix, if_neg (not_lt.2 hi), if_neg (not_lt.2 hi), hcell]
    | sk => rw [wmEmb_sk hrun hop, hpix, if_neg (not_lt.2 hi), hcell]
  · rw [hdropped]
    exact congrArg (BitVec.ofNat 32) (pfwdLayer_count_eq _ hw hh _)
  · rw [hdegraded, hlane]

/-! ### The completion step of `WM.EXT` -/

section PipelineExtract

variable {s : State} {ch : Lane} (hrun : (s.lane ch).lbusy = true) (hop : opcodeOf (opField s.cmdr) = some .wmExt)
include hrun hop

/-- The layer is recovered in place first and moved back then (R159). -/
theorem wmExt_layer (i : Nat) :
    (laneComplete ch s).cell .layer ch i =
      (s.prevOf (extLayer s.params.rev s.pixels (s.lane ch)).1).layer.read i := by
  rw [laneComplete_cell hrun, laneTransform_wmExt ch hop]
  rfl

/-- `WM.EXT` writes neither the side key nor `SKLEN` nor `DROPPED` (R159). -/
theorem wmExt_keeps :
    (∀ i, (laneComplete ch s).cell .sk ch i = s.cell .sk ch i) ∧
    ((laneComplete ch s).lane ch).sklen = (s.lane ch).sklen ∧
    ((laneComplete ch s).lane ch).dropped = (s.lane ch).dropped := by
  have ht := laneTransform_wmExt ch hop
  have hlane : (laneTransform s ch).lane = { s.lane ch with layer := (laneTransform s ch).lane.layer } := by
    rw [ht]
    simp only [laneWmExt, State.prevOf, prevLayer]
    rw [extLayer_frame]
  refine ⟨fun i => ?_, ?_, laneComplete_dropped_of_none hrun (by rw [ht]; rfl)⟩
  · rw [laneComplete_cell hrun, hlane]
    rfl
  · rw [laneComplete_sklen hrun, hlane]

/-- `DEGRADED` counts the guard cases of the recovery, and `DEGR` rises if there is one (40_lowbit_codec.md R107). -/
theorem wmExt_degraded :
    let guards := ((List.range s.pixels).filter (fun j => (recovered s.params.rev (s.lane ch) j).2)).length
    ((laneComplete ch s).lane ch).degraded = BitVec.ofNat 32 guards ∧
    (laneComplete ch s).flags.degr = (s.flags.degr || decide (0 < guards)) := by
  refine laneComplete_degraded_of_some hrun ?_
  rw [laneTransform_wmExt ch hop, ← extLayer_count]
  rfl

end PipelineExtract

/-- Settles O45: acceptance is `exec_accepted_of_keyOk`; `PREV` moves the bytes that `EXT` leaves, by `landed_last`
and `landed_none`. -/
theorem wmExtCompletes : Obligations.WmExtCompletes := by
  intro s m hadm hcop v t rev
  refine ⟨exec_accepted_of_keyOk (i := .wmExt m) (encode_wmExt m) rfl hadm ((keyOk_iff s).2 hcop), fun ch hsel => ?_⟩
  intro u r deg
  have hrun : (t.lane ch).lbusy = true := acceptedState_running hsel
  have hop : opcodeOf (opField t.cmdr) = some .wmExt := opcodeOf_laneWord (encode_wmExt m)
  have hlane : t.lane ch = { s.lane ch with lbusy := selects m ch } := by
    rw [← keyStage_lane s ch]
    exact acceptedState_lane _ m (keyStage s) ch
  have hcell (k : MemKind) (i : Nat) : t.cell k ch i = s.cell k ch i := by
    rw [State.cell, hlane]
    cases k <;> rfl
  have hrec : recovered t.params.rev (t.lane ch) = r := by rw [hlane]; rfl
  have hext (j : Nat) : (extLayer t.params.rev t.pixels (t.lane ch)).1.layer.read j =
      if j < s.pixels then pixel (highNibble (t.cell .layer ch j)) (recovered t.params.rev (t.lane ch) j).1
      else t.cell .layer ch j :=
    extLayer_layer _ _ _ _
  have hlayer (i : Nat) : u.cell .layer ch i =
      if i < s.pixels then
        landed (fun j => decide (rev j = i)) (extLayer t.params.rev t.pixels (t.lane ch)).1.layer s.pixels
      else (extLayer t.params.rev t.pixels (t.lane ch)).1.layer.read i :=
    (wmExt_layer hrun hop i).trans (prevLayer_layer _ _ _ _ _ _ _)
  obtain ⟨hsk, hsklen, hdropped⟩ := wmExt_keeps hrun hop
  obtain ⟨hdegraded, hdegr⟩ := wmExt_degraded hrun hop
  rw [hrec] at hdegraded hdegr
  refine ⟨laneComplete_frame hrun, hdegr, fun i j hj hi hrev hlast => ?_, fun i hi hnone => ?_, fun i hi => ?_,
    fun i => ?_, hdegraded, ?_, ?_⟩
  · rw [hlayer, if_pos hi, landed_last hj (decide_eq_true hrev) (fun j' h h' => decide_eq_false (hlast j' h h')), hext,
      if_pos hj, hcell, pixel_toNat, highNibble_toNat, hrec]
  · rw [hlayer, if_pos hi, landed_none (fun j hj => decide_eq_false (hnone j hj))]
  · rw [hlayer, if_neg (not_lt.2 hi), hext, if_neg (not_lt.2 hi), hcell]
  · rw [hsk, hcell]
  · rw [hsklen, hlane]
  · rw [hdropped, hlane]

end Sys2Proof.Machine
end

section
/-! A pipeline command leaves what its two halves leave one after the other (42_layer_pipeline.md R155, R159), and the
statements O55 and O56. -/

namespace Sys2Proof.Machine

/-! ### Shared registers along two commands -/

/-- Acceptance writes the same shared registers over states that share the others. -/
theorem SharedUnchanged.acceptedState {s u : State} (h : SharedUnchanged s u) (w : Word) (m : LaneMask) :
    SharedUnchanged (acceptedState w m s) (acceptedState w m u) :=
  { h with cmdr := rfl, response := rfl }

/-- The key stage reads the key and the width (41_affine_permutation.md R125). -/
theorem SharedUnchanged.keyStage {s u : State} (h : SharedUnchanged s u) : SharedUnchanged (keyStage s) (keyStage u) :=
  { h with inv := by simp only [Machine.keyStage, h.key, h.width] }

theorem SharedUnchanged.setCmdr {s u : State} (h : SharedUnchanged s u) (w : Word) :
    SharedUnchanged { s with cmdr := w } { u with cmdr := w } :=
  { h with cmdr := rfl }

/-! ### What a whole command leaves -/

theorem completeAll_doneIfIdle {s : State} (h : s.DoneIfIdle) (order : List Lane) :
    (completeAll order s).DoneIfIdle := by
  induction order generalizing s with
  | nil => exact h
  | cons ch order ih => exact ih (h.laneComplete ch)

/-- A whole command ends with `DONE` up (42_layer_pipeline.md R157). -/
theorem completed_done (w : Word) {m : LaneMask} (hm : m ≠ 0#3) (s : State) :
    (completeAll Lane.all (acceptedState w m s)).flags.done = true := by
  obtain ⟨ch, hsel⟩ := exists_selected hm
  have hbusy : (acceptedState w m s).busy = true := busy_of_lane (acceptedState_running (ch := ch) hsel)
  exact completeAll_doneIfIdle (doneIfIdle_of_busy hbusy) Lane.all (completeAll_idle _)

/-- The step of lane `ch` is enabled and its transform degrades a pixel (42_layer_pipeline.md R156). -/
def stepDegrades (s : State) (ch : Lane) : Bool := (s.lane ch).lbusy && (laneTransform s ch).degrades

theorem laneComplete_degr_eq (ch : Lane) (s : State) :
    (laneComplete ch s).flags.degr = (s.flags.degr || stepDegrades s ch) := by
  cases hrun : (s.lane ch).lbusy with
  | false => rw [laneComplete_idle hrun, stepDegrades, hrun, Bool.false_and, Bool.or_false]
  | true => rw [laneComplete_degr hrun, stepDegrades, hrun, Bool.true_and]

theorem stepDegrades_laneComplete {ch c : Lane} (h : c ≠ ch) (s : State) :
    stepDegrades (laneComplete ch s) c = stepDegrades s c := by
  rw [stepDegrades, laneComplete_lane_other s h, laneTransform_laneComplete h, stepDegrades]

/-- `DEGR` after the steps of different lanes: each adds what its own transform degrades, whatever the others did. -/
theorem completeAll_degr {order : List Lane} (hnodup : order.Nodup) (s : State) :
    (completeAll order s).flags.degr = (s.flags.degr || order.any (stepDegrades s)) := by
  induction order generalizing s with
  | nil => exact (Bool.or_false _).symm
  | cons ch order ih =>
    obtain ⟨hnot, hrest⟩ := List.nodup_cons.1 hnodup
    have hany : order.any (stepDegrades (laneComplete ch s)) = order.any (stepDegrades s) := by
      rw [Bool.eq_iff_iff, List.any_eq_true, List.any_eq_true]
      refine exists_congr fun c => and_congr_right fun hc => ?_
      rw [stepDegrades_laneComplete (ne_of_mem_of_not_mem hc hnot)]
    calc (completeAll (ch :: order) s).flags.degr
        = (completeAll order (laneComplete ch s)).flags.degr := rfl
      _ = ((s.flags.degr || stepDegrades s ch) || order.any (stepDegrades s)) := by
        rw [ih hrest, laneComplete_degr_eq, hany]
      _ = (s.flags.degr || (ch :: order).any (stepDegrades s)) := by rw [List.any_cons, Bool.or_assoc]

theorem Lane.nodup_all : Lane.all.Nodup := by decide

/-- A command none of whose lanes degrades ends with `DEGR` down, as its acceptance left it. -/
theorem completed_degr_eq_false {w : Word} {m : LaneMask} {s : State}
    (h : ∀ ch, (laneTransform (acceptedState w m s) ch).degrades = false) :
    (completeAll Lane.all (acceptedState w m s)).flags.degr = false := by
  rw [completeAll_degr Lane.nodup_all]
  simp only [stepDegrades, h, Bool.and_false, Lane.all, List.any]
  rfl

/-- The opcode that an accepted lane command runs (42_layer_pipeline.md R153, R154). -/
theorem opcodeOf_acceptedState {b : Nat} {m : LaneMask} {i : Instr} (h : encode i = laneWord b m) (s : State) :
    opcodeOf (opField (acceptedState (laneWord b m) m s).cmdr) = some i.opcode := opcodeOf_laneWord h

/-- A selected lane after a whole command: what its transform leaves. -/
theorem completed_lane (w : Word) {m : LaneMask} {ch : Lane} (hsel : selects m ch = true) (s : State) :
    (completeAll Lane.all (acceptedState w m s)).lane ch = (laneTransform (acceptedState w m s) ch).finish := by
  rw [completeAll_lane, laneComplete_lane_same (acceptedState_running hsel)]

/-- A lane that is not selected is as before, and idle. -/
theorem completed_lane_of_not_selected (w : Word) {m : LaneMask} {ch : Lane} (hsel : selects m ch = false) (s : State) :
    (completeAll Lane.all (acceptedState w m s)).lane ch = { s.lane ch with lbusy := false } := by
  have hlane : (acceptedState w m s).lane ch = { s.lane ch with lbusy := false } := by rw [acceptedState_lane, hsel]
  rw [completeAll_lane, laneComplete_idle (by rw [hlane]), hlane]

/-! ### The lane that each command leaves -/

/-- `EMB` neither reads nor writes `DROPPED` and the `LBUSY` bit. -/
theorem embLayer_setDropped (n : Nat) (l : LaneState) (d : Word) (b : Bool) :
    embLayer n { l with dropped := d, lbusy := b } = { embLayer n l with dropped := d, lbusy := b } := by
  have hfold : embFold n { l with dropped := d, lbusy := b } = { embFold n l with dropped := d, lbusy := b } := by
    induction n with
    | zero => rfl
    | succ n ih => rw [embFold_succ, embFold_succ, ih]; rfl
  have hemb : ∀ l, embLayer n l = { embFold n l with sklen := BitVec.ofNat 32 n } := fun _ => rfl
  rw [hemb, hemb, hfold]

/-- `EXT` neither reads nor writes the `LBUSY` bit. -/
theorem extLayer_setLbusy (v : RevVariant) (n : Nat) (l : LaneState) (b : Bool) :
    extLayer v n { l with lbusy := b } = ({ (extLayer v n l).1 with lbusy := b }, (extLayer v n l).2) := by
  show extFold v n { l with lbusy := b } = ({ (extFold v n l).1 with lbusy := b }, (extFold v n l).2)
  induction n with
  | zero => rfl
  | succ n ih => rw [extFold_succ, extFold_succ, ih]; rfl

section Completed

variable (s : State) {m : LaneMask} {ch : Lane} (hsel : selects m ch = true)
include hsel

theorem permFwd_completed :
    (completeAll Lane.all (acceptedState (laneWord 0x10 m) m s)).lane ch =
      { (s.pfwdOf (s.lane ch)).1 with dropped := BitVec.ofNat 32 (s.pfwdOf (s.lane ch)).2, lbusy := false } := by
  rw [completed_lane _ hsel, laneTransform_permFwd ch (opcodeOf_acceptedState (encode_permFwd m) _), lanePermFwd,
    acceptedState_lane]
  rfl

theorem permRev_completed :
    (completeAll Lane.all (acceptedState (laneWord 0x11 m) m s)).lane ch =
      { s.prevOf (s.lane ch) with lbusy := false } := by
  rw [completed_lane _ hsel, laneTransform_permRev ch (opcodeOf_acceptedState (encode_permRev m) _), lanePermRev,
    acceptedState_lane]
  rfl

theorem lbcEmb_completed :
    (completeAll Lane.all (acceptedState (laneWord 0x20 m) m s)).lane ch =
      { embLayer s.pixels (s.lane ch) with lbusy := false } := by
  rw [completed_lane _ hsel, laneTransform_lbcEmb ch (opcodeOf_acceptedState (encode_lbcEmb m) _), laneLbcEmb,
    acceptedState_lane, embLayer_setDropped _ _ (s.lane ch).dropped, ← embLayer_dropped s.pixels (s.lane ch)]
  rfl

theorem lbcExt_completed :
    (completeAll Lane.all (acceptedState (laneWord 0x21 m) m s)).lane ch =
      let r := extLayer s.params.rev s.pixels (s.lane ch)
      { r.1 with degraded := BitVec.ofNat 32 r.2, lbusy := false } := by
  rw [completed_lane _ hsel, laneTransform_lbcExt ch (opcodeOf_acceptedState (encode_lbcExt m) _), laneLbcExt,
    acceptedState_lane, extLayer_setLbusy]
  rfl

theorem wmEmb_completed :
    (completeAll Lane.all (acceptedState (laneWord 0x30 m) m s)).lane ch =
      let r := s.pfwdOf (s.lane ch)
      { embLayer s.pixels r.1 with dropped := BitVec.ofNat 32 r.2, lbusy := false } := by
  have hmove : (acceptedState (laneWord 0x30 m) m s).pfwdOf ((acceptedState (laneWord 0x30 m) m s).lane ch) =
      ({ (s.pfwdOf (s.lane ch)).1 with lbusy := true }, (s.pfwdOf (s.lane ch)).2) := by
    rw [acceptedState_lane, hsel]
    rfl
  rw [completed_lane _ hsel, laneTransform_wmEmb ch (opcodeOf_acceptedState (encode_wmEmb m) _), laneWmEmb, hmove,
    embLayer_setDropped _ _ (s.pfwdOf (s.lane ch)).1.dropped]
  rfl

theorem wmExt_completed :
    (completeAll Lane.all (acceptedState (laneWord 0x31 m) m s)).lane ch =
      let r := extLayer s.params.rev s.pixels (s.lane ch)
      { s.prevOf r.1 with degraded := BitVec.ofNat 32 r.2, lbusy := false } := by
  rw [completed_lane _ hsel, laneTransform_wmExt ch (opcodeOf_acceptedState (encode_wmExt m) _), laneWmExt,
    acceptedState_lane, extLayer_setLbusy]
  rfl

end Completed

/-! ### `WM.EMB` -/

/-- Lane by lane, `WM.EMB` is `PERM.FWD` and then `LBC.EMB`. -/
theorem wmEmb_completed_eq (s : State) (m : LaneMask) (ch : Lane) :
    (completeAll Lane.all (acceptedState (laneWord 0x30 m) m s)).lane ch =
      (completeAll Lane.all (acceptedState (laneWord 0x20 m) m
        (completeAll Lane.all (acceptedState (laneWord 0x10 m) m s)))).lane ch := by
  cases hsel : selects m ch with
  | false =>
    rw [completed_lane_of_not_selected _ hsel, completed_lane_of_not_selected _ hsel,
      completed_lane_of_not_selected _ hsel]
  | true =>
    have hshared := completeAll_shared Lane.all (acceptedState (laneWord 0x10 m) m s)
    have hpix : (completeAll Lane.all (acceptedState (laneWord 0x10 m) m s)).pixels = s.pixels := by
      rw [State.pixels, hshared.width, hshared.height]
      rfl
    rw [wmEmb_completed s hsel, lbcEmb_completed _ hsel, permFwd_completed s hsel, hpix, embLayer_setDropped]

/-- Settles O55: the shared registers and the flags by the laws of a whole command, the lanes by
`wmEmb_completed_eq`. -/
theorem wmEmbIsPermFwdThenLbcEmb : Obligations.WmEmbIsPermFwdThenLbcEmb := by
  intro s m hadm
  let t := acceptedState (laneWord 0x30 m) m s
  let t1 := acceptedState (laneWord 0x10 m) m s
  let t2 := acceptedState (laneWord 0x20 m) m (completeAll Lane.all t1)
  have hwm : exec (.wmEmb m) s = .next t :=
    exec_accepted (i := .wmEmb m) (encode_wmEmb m) rfl hadm
  have hfwd : exec (.permFwd m) s = .next t1 :=
    exec_accepted (i := .permFwd m) (encode_permFwd m) rfl hadm
  have hemb : exec (.lbcEmb m) (completeAll Lane.all t1) = .next t2 :=
    exec_accepted (i := .lbcEmb m) (encode_lbcEmb m) rfl (hadm.completeAll _)
  refine ⟨t, t1, t2, hwm, hfwd, hemb, ?_⟩
  have hshared : SharedUnchanged t { completeAll Lane.all t2 with cmdr := laneWord 0x30 m } :=
    (((completeAll_shared Lane.all t1).acceptedState (laneWord 0x20 m) m).trans
      (completeAll_shared Lane.all t2)).setCmdr (laneWord 0x30 m)
  refine (completeAll_shared Lane.all t).eq_of hshared (fun ch => ?_) ?_ ?_
  · rw [wmEmb_completed_eq]
    cases ch <;> rfl
  · exact (completed_done _ hadm.2.1 s).trans (completed_done _ hadm.2.1 _).symm
  · have hdown : (completeAll Lane.all t).flags.degr = false := completed_degr_eq_false fun ch => by
      rw [laneTransform_wmEmb ch (opcodeOf_acceptedState (encode_wmEmb m) _)]; rfl
    have hdown2 : (completeAll Lane.all t2).flags.degr = false := completed_degr_eq_false fun ch => by
      rw [laneTransform_lbcEmb ch (opcodeOf_acceptedState (encode_lbcEmb m) _)]; rfl
    exact hdown.trans hdown2.symm

/-! ### `WM.EXT` -/

/-- Lane by lane, `WM.EXT` is `LBC.EXT` and then `PERM.REV` under the same key-stage results. -/
theorem wmExt_completed_eq (s : State) (m : LaneMask) (ch : Lane) :
    (completeAll Lane.all (acceptedState (laneWord 0x31 m) m (keyStage s))).lane ch =
      (completeAll Lane.all (acceptedState (laneWord 0x11 m) m
        (keyStage (completeAll Lane.all (acceptedState (laneWord 0x21 m) m s))))).lane ch := by
  cases hsel : selects m ch with
  | false =>
    rw [completed_lane_of_not_selected _ hsel, completed_lane_of_not_selected _ hsel, keyStage_lane, keyStage_lane,
      completed_lane_of_not_selected _ hsel]
  | true =>
    have hshared := (completeAll_shared Lane.all (acceptedState (laneWord 0x21 m) m s)).keyStage
    have hprev : ∀ l, (keyStage (completeAll Lane.all (acceptedState (laneWord 0x21 m) m s))).prevOf l =
        (keyStage s).prevOf l := fun l => by
      rw [State.prevOf, hshared.inv, hshared.key, hshared.width, hshared.height]
      rfl
    rw [wmExt_completed _ hsel, permRev_completed _ hsel, hprev, keyStage_lane, keyStage_lane, lbcExt_completed s hsel]
    rfl

/-- The pipeline's extract degrades what the codec's extract alone degrades: the recovery comes first. -/
theorem wmExt_degr_eq (s : State) (m : LaneMask) :
    (completeAll Lane.all (acceptedState (laneWord 0x31 m) m (keyStage s))).flags.degr =
      (completeAll Lane.all (acceptedState (laneWord 0x21 m) m s)).flags.degr := by
  have hdegrades : ∀ ch, (laneTransform (acceptedState (laneWord 0x31 m) m (keyStage s)) ch).degrades =
      (laneTransform (acceptedState (laneWord 0x21 m) m s) ch).degrades := fun ch => by
    rw [laneTransform_wmExt ch (opcodeOf_acceptedState (encode_wmExt m) _),
      laneTransform_lbcExt ch (opcodeOf_acceptedState (encode_lbcExt m) _), laneWmExt, laneLbcExt, acceptedState_lane,
      acceptedState_lane, keyStage_lane]
    rfl
  have hsame : stepDegrades (acceptedState (laneWord 0x31 m) m (keyStage s)) =
      stepDegrades (acceptedState (laneWord 0x21 m) m s) := funext fun ch => by
    rw [stepDegrades, hdegrades, stepDegrades, acceptedState_lane, acceptedState_lane]
  rw [completeAll_degr Lane.nodup_all, completeAll_degr Lane.nodup_all, hsame]
  rfl

/-- Settles O56: as O55, with the key stage between the two acceptances, and `DEGR` from the first of them. -/
theorem wmExtIsLbcExtThenPermRev : Obligations.WmExtIsLbcExtThenPermRev := by
  intro s m hadm hcop
  let t := acceptedState (laneWord 0x31 m) m (keyStage s)
  let t1 := acceptedState (laneWord 0x21 m) m s
  let t2 := acceptedState (laneWord 0x11 m) m (keyStage (completeAll Lane.all t1))
  have hkey : s.keyOk = true := (keyOk_iff s).2 hcop
  have hwm : exec (.wmExt m) s = .next t :=
    exec_accepted_of_keyOk (i := .wmExt m) (encode_wmExt m) rfl hadm hkey
  have hext : exec (.lbcExt m) s = .next t1 :=
    exec_accepted (i := .lbcExt m) (encode_lbcExt m) rfl hadm
  have hshared1 := completeAll_shared Lane.all t1
  have hkey1 : (completeAll Lane.all t1).keyOk = true := by
    rw [State.keyOk, hshared1.key, hshared1.width]
    exact hkey
  have hrev : exec (.permRev m) (completeAll Lane.all t1) = .next t2 :=
    exec_accepted_of_keyOk (i := .permRev m) (encode_permRev m) rfl (hadm.completeAll _) hkey1
  refine ⟨t, t1, t2, hwm, hext, hrev, ?_⟩
  have hshared : SharedUnchanged t { completeAll Lane.all t2 with cmdr := laneWord 0x31 m } :=
    ((hshared1.keyStage.acceptedState (laneWord 0x11 m) m).trans
      (completeAll_shared Lane.all t2)).setCmdr (laneWord 0x31 m)
  refine (completeAll_shared Lane.all t).eq_of { hshared with } (fun ch => ?_) ?_ (wmExt_degr_eq s m)
  · rw [wmExt_completed_eq]
    cases ch <;> rfl
  · exact (completed_done _ hadm.2.1 _).trans (completed_done _ hadm.2.1 _).symm

end Sys2Proof.Machine
end

section
/-! The round trip of the pipeline in the square case (42_layer_pipeline.md R164, 40_lowbit_codec.md R108), and the
statement O58. -/

namespace Sys2Proof.Machine

/-! ### The round trip of one byte -/

/-- What `EXT` recovers of the nibble `n` when its side key is intact (40_lowbit_codec.md R108). -/
def nibbleTrip (v : RevVariant) (n : Nibble) : Nibble × Bool := revf v (some (classOf n)) (substOf n)

/-- The byte that an extract makes of an embedded byte `p`. -/
def byteTrip (v : RevVariant) (p : Byte) : Byte := pixel (highNibble p) (nibbleTrip v (lowNibble p)).1

theorem nibbleTrip_lawful (n : Nibble) : nibbleTrip .lawful n = (n, false) := revf_lawful_embedded n

theorem byteTrip_lawful (p : Byte) : byteTrip .lawful p = p := by
  rw [byteTrip, nibbleTrip_lawful, pixel_nibbles]

theorem nibbleTrip_doc_eq_iff (n : Nibble) : (nibbleTrip .doc n).1 = n ↔ n.toNat ∈ [0, 11, 13] := by
  revert n; decide

/-- The guard cases of an intact side key under `DOC` (40_lowbit_codec.md R108). -/
theorem nibbleTrip_doc_guard (n : Nibble) : (nibbleTrip .doc n).2 = decide (n.toNat ∈ [8, 10, 12, 14]) := by
  revert n; decide

theorem byteTrip_div (v : RevVariant) (p : Byte) : (byteTrip v p).toNat / 16 = p.toNat / 16 := by
  rw [← highNibble_toNat, ← highNibble_toNat, byteTrip, highNibble_pixel]

/-- A byte comes back exactly when its low nibble does. -/
theorem byteTrip_doc_eq_iff (p : Byte) : byteTrip .doc p = p ↔ p.toNat % 16 ∈ [0, 11, 13] := by
  rw [← lowNibble_toNat, ← nibbleTrip_doc_eq_iff]
  constructor
  · intro h
    have hlow := congrArg lowNibble h
    rwa [byteTrip, lowNibble_pixel] at hlow
  · intro h
    rw [byteTrip, h, pixel_nibbles]

/-! ### Extract after embed, in place -/

/-- The lane holds the codes of the bytes `q` in its first `n` cells and side-key entries, and `q` itself behind
them. -/
structure Embedded (n : Nat) (q : Nat → Byte) (l : LaneState) : Prop where
  layer : ∀ j, l.layer.read j = if j < n then pixel (highNibble (q j)) (substOf (lowNibble (q j))) else q j
  sk : ∀ j < n, l.sk.read j = classOf (lowNibble (q j))
  sklen : l.sklen.toNat = n

/-- `EMB` leaves the codes of what it finds (40_lowbit_codec.md R105). -/
theorem embedded_embLayer {n : Nat} (l : LaneState) (hn : (BitVec.ofNat 32 n).toNat = n) :
    Embedded n l.layer.read (embLayer n l) where
  layer := embLayer_layer n l
  sk j hj := by rw [embLayer_sk, if_pos hj]
  sklen := hn

section Recovering

variable {n : Nat} {q : Nat → Byte} {l : LaneState} (h : Embedded n q l) (v : RevVariant)
include h

theorem Embedded.recovered {j : Nat} (hj : j < n) : recovered v l j = nibbleTrip v (lowNibble (q j)) := by
  have hentry : l.entry j = some (classOf (lowNibble (q j))) := by
    rw [LaneState.entry, h.sklen, if_pos hj, h.sk j hj]
  rw [Machine.recovered, hentry, h.layer, if_pos hj, lowNibble_pixel, nibbleTrip]

theorem Embedded.extLayer_layer (j : Nat) :
    (extLayer v n l).1.layer.read j = if j < n then byteTrip v (q j) else q j := by
  rw [Machine.extLayer_layer, h.layer]
  split
  next hj => rw [h.recovered v hj, highNibble_pixel, byteTrip]
  next => rfl

theorem Embedded.extLayer_count :
    (extLayer v n l).2 = (List.range n).countP fun j => (nibbleTrip v (lowNibble (q j))).2 := by
  rw [Machine.extLayer_count, ← List.countP_eq_length_filter]
  refine List.countP_congr fun j hj => ?_
  rw [h.recovered v (List.mem_range.1 hj)]

end Recovering

/-! ### Counting over a permutation of the cells -/

/-- A map of `[0, n)` into itself with a left inverse there permutes it. -/
theorem range_map_perm {n : Nat} {f : Nat → Nat} (hlt : ∀ j < n, f j < n) {g : Nat → Nat} (hg : ∀ j < n, g (f j) = j) :
    ((List.range n).map f).Perm (List.range n) := by
  have hnodup : ((List.range n).map f).Nodup :=
    List.Nodup.map_on (fun i hi j hj hij => by
      rw [← hg i (List.mem_range.1 hi), hij, hg j (List.mem_range.1 hj)]) List.nodup_range
  have hsub : (List.range n).map f ⊆ List.range n := fun x hx => by
    obtain ⟨j, hj, rfl⟩ := List.mem_map.1 hx
    exact List.mem_range.2 (hlt j (List.mem_range.1 hj))
  exact (List.subperm_of_subset hnodup hsub).perm_of_length_le (by simp)

/-- Counting cells by the byte that a permutation brought there is counting them by their own. -/
theorem countP_reverseIndex {k : AffineKey} (hk : k.Nonneg) {v : InverseMatrix} {n : Nat} (hv : v.Inverts k n)
    (P : Nat → Bool) :
    (List.range (n * n)).countP (fun j => P (reverseIndex v k.tx k.ty n n j)) = (List.range (n * n)).countP P := by
  have hperm : ((List.range (n * n)).map (reverseIndex v k.tx k.ty n n)).Perm (List.range (n * n)) :=
    range_map_perm (g := fun i => (forwardIndex k n n i).toNat)
      (fun j hj => reverseIndex_lt v k.tx k.ty j (pos_of_lt_mul_self hj) (pos_of_lt_mul_self hj))
      (fun j hj => by rw [forwardIndex_reverseIndex hk hv hj, Int.toNat_natCast])
  rw [← hperm.countP_eq P, List.countP_map]
  rfl

/-! ### The round trip of a lane -/

section Lane

variable {k : AffineKey} {v : InverseMatrix} {n : Nat} (hk : k.Nonneg) (hv : v.Inverts k n) {l l' : LaneState}
  (hl' : Embedded (n * n) (pfwdLayer k n n l).1.layer.read l') (rev : RevVariant)
include hk hv hl'

/-- A byte is permuted, embedded, extracted and moved back: only the codec can change it. -/
theorem prevLayer_extLayer_read (i : Nat) :
    (prevLayer v k.tx k.ty n n (extLayer rev (n * n) l').1).layer.read i =
      if i < n * n then byteTrip rev (l.layer.read i) else l.layer.read i := by
  split
  next hi =>
    have h0 := pos_of_lt_mul_self hi
    have htarget : (forwardIndex k n n i).toNat < n * n := by
      have hlt := forwardIndex_lt k i h0 h0
      have hpos := forwardIndex_nonneg (w := n) (h := n) i hk
      omega
    rw [prevLayer_read_of_inverts hk hv _ hi, hl'.extLayer_layer, if_pos htarget,
      pfwdLayer_read_of_inverts hk hv l htarget, reverseIndex_forwardIndex hk hv hi]
  next hi => rw [prevLayer_layer, if_neg hi, hl'.extLayer_layer, if_neg hi, pfwdLayer_layer, if_neg hi]

/-- The degraded count is over the bytes as the host wrote them: the permutation drops none and doubles none. -/
theorem extLayer_count_of_embedded :
    (extLayer rev (n * n) l').2 =
      (List.range (n * n)).countP fun i => (nibbleTrip rev (lowNibble (l.layer.read i))).2 := by
  rw [hl'.extLayer_count]
  refine (List.countP_congr fun j hj => ?_).trans (countP_reverseIndex hk hv _)
  rw [pfwdLayer_read_of_inverts hk hv l (List.mem_range.1 hj)]

end Lane

/-- A selected lane after the whole of `WM.EMB` holds the codes of its permuted bytes. -/
theorem embedded_of_wmEmb (s : State) {m : LaneMask} {ch : Lane} (hsel : selects m ch = true) :
    Embedded s.pixels (s.pfwdOf (s.lane ch)).1.layer.read
      ((completeAll Lane.all (acceptedState (laneWord 0x30 m) m s)).lane ch) := by
  rw [wmEmb_completed s hsel]
  exact { embedded_embLayer (s.pfwdOf (s.lane ch)).1 (toNat_ofNat_of_le_pixels (Nat.le_refl s.pixels)) with }

/-- What the whole of `WM.EMB` and then of `WM.EXT` leaves in a selected lane, under either reverse table. -/
theorem pipelineTrip_lane {s : State} {m : LaneMask} {ch : Lane} (hsel : selects m ch = true) (hkey : s.keyOk = true)
    (hnonneg : s.key.values.Nonneg) (hsquare : s.height = s.width) :
    let u := completeAll Lane.all (acceptedState (laneWord 0x31 m) m
      (keyStage (completeAll Lane.all (acceptedState (laneWord 0x30 m) m s))))
    (∀ i, u.cell .layer ch i =
      if i < s.pixels then byteTrip s.params.rev (s.cell .layer ch i) else s.cell .layer ch i) ∧
    (u.lane ch).degraded = BitVec.ofNat 32
      ((List.range s.pixels).countP fun i => (nibbleTrip s.params.rev (lowNibble (s.cell .layer ch i))).2) := by
  intro u
  let e := completeAll Lane.all (acceptedState (laneWord 0x30 m) m s)
  have hshared : SharedUnchanged (acceptedState (laneWord 0x30 m) m s) e := completeAll_shared Lane.all _
  have hwidth : e.width = s.width := hshared.width
  have hheight : e.height = s.width := hshared.height.trans hsquare
  have hkeys : e.key = s.key := hshared.key
  have hrev : e.params.rev = s.params.rev := congrArg Params.rev hshared.params
  have hpix : s.pixels = s.width.toNat * s.width.toNat := by rw [State.pixels, hsquare]
  have hinv := keyStageResult_inverts s.width.isLt hkey
  have hemb : Embedded (s.width.toNat * s.width.toNat)
      (pfwdLayer s.key.values s.width.toNat s.width.toNat (s.lane ch)).1.layer.read (e.lane ch) := by
    have h := embedded_of_wmEmb s hsel
    rwa [hpix, State.pfwdOf, hsquare] at h
  have hprev : ∀ l, (keyStage e).prevOf l = prevLayer (keyStageResult s.key.values s.width.toNat).matrix
      s.key.values.tx s.key.values.ty s.width.toNat s.width.toNat l := fun l => by
    simp only [State.prevOf, keyStage, hkeys, hwidth, hheight]
  have hext : extLayer (keyStage e).params.rev (keyStage e).pixels ((keyStage e).lane ch) =
      extLayer s.params.rev (s.width.toNat * s.width.toNat) (e.lane ch) := by
    have hpix' : (keyStage e).pixels = s.width.toNat * s.width.toNat := by
      simp only [State.pixels, keyStage, hwidth, hheight]
    have hrev' : (keyStage e).params.rev = s.params.rev := hrev
    rw [hpix', hrev', keyStage_lane]
  have hlane := wmExt_completed (keyStage e) hsel
  rw [hext] at hlane
  simp only [hprev] at hlane
  refine ⟨fun i => ?_, ?_⟩
  · rw [State.cell, hlane, hpix]
    exact prevLayer_extLayer_read hnonneg hinv hemb s.params.rev i
  · rw [hlane, hpix]
    exact congrArg (BitVec.ofNat 32) (extLayer_count_of_embedded hnonneg hinv hemb s.params.rev)

/-- Settles O58: both commands are accepted, and `pipelineTrip_lane` is read under each table with what the table does
to one byte. -/
theorem pipelineRoundTrip : Obligations.PipelineRoundTrip := by
  intro s m hadm hcop hsquare ha hb hc hd htx hty
  have hkey : s.keyOk = true := (keyOk_iff s).2 hcop
  let t := acceptedState (laneWord 0x30 m) m s
  have hshared : SharedUnchanged t (completeAll Lane.all t) := completeAll_shared Lane.all t
  have hkey' : (completeAll Lane.all t).keyOk = true := by
    rw [State.keyOk, hshared.key, hshared.width]
    exact hkey
  refine ⟨t, _, exec_accepted (i := .wmEmb m) (encode_wmEmb m) rfl hadm,
    exec_accepted_of_keyOk (i := .wmExt m) (encode_wmExt m) rfl (hadm.completeAll _) hkey', fun ch hsel => ?_⟩
  obtain ⟨hcell, hdegraded⟩ := pipelineTrip_lane hsel hkey ⟨ha, hb, hc, hd, htx, hty⟩ hsquare
  refine ⟨fun i hi => ?_, fun hlawful => ⟨?_, fun i => ?_⟩, fun hdoc => ⟨?_, fun i hi => ?_⟩⟩
  · exact (hcell i).trans (if_neg (not_lt.2 hi))
  · refine hdegraded.trans ?_
    simp [hlawful, nibbleTrip_lawful]
  · refine (hcell i).trans ?_
    rw [hlawful, byteTrip_lawful, ite_self]
  · refine hdegraded.trans ?_
    simp only [hdoc, nibbleTrip_doc_guard, lowNibble_toNat, List.countP_eq_length_filter]
  · have hbyte := hcell i
    rw [if_pos hi, hdoc] at hbyte
    constructor
    · exact (congrArg (fun p => p.toNat / 16) hbyte).trans (byteTrip_div .doc _)
    · refine Iff.trans ?_ (byteTrip_doc_eq_iff _)
      rw [← hbyte]
      rfl

end Sys2Proof.Machine
end

section
/-! The host's split and merge of an interleaved buffer (42_layer_pipeline.md R165), and the statement O59. -/

namespace Sys2Proof.Machine

@[simp] theorem mergeLayers_length (l0 l1 l2 : List Byte) (n : Nat) : (mergeLayers l0 l1 l2 n).length = 3 * n := by
  simp [mergeLayers]

/-- Pixel `p` of a split layer is byte `3*p + k` of the flat buffer. -/
theorem splitLayer_getD (flat : List Byte) (ch : Lane) {n p : Nat} (hp : p < n) :
    (splitLayer flat ch n).getD p 0#8 = flat.getD (3 * p + ch.toNat) 0#8 := by
  simp [splitLayer, hp]

/-- Byte `q` of a merge is pixel `q / 3` of layer `q % 3`. -/
theorem mergeLayers_getD (layers : Lane → List Byte) {n p : Nat} (hp : p < n) (ch : Lane) :
    (mergeLayers (layers .l0) (layers .l1) (layers .l2) n).getD (3 * p + ch.toNat) 0#8 = (layers ch).getD p 0#8 := by
  have hlt : ch.toNat < 3 := by cases ch <;> decide
  have hq : 3 * p + ch.toNat < 3 * n := by omega
  have hdiv : (3 * p + ch.toNat) / 3 = p := by omega
  have hmod : (3 * p + ch.toNat) % 3 = ch.toNat := by omega
  simp only [mergeLayers, List.getD_eq_getElem?_getD, List.getElem?_map, List.getElem?_range hq, Option.map_some,
    Option.getD_some, hdiv, hmod]
  cases ch <;> rfl

/-- Every byte of the flat buffer is a pixel of one layer. -/
theorem exists_pixel_lane {n q : Nat} (hq : q < 3 * n) : ∃ p < n, ∃ ch : Lane, q = 3 * p + ch.toNat := by
  have hlane : ∃ ch : Lane, ch.toNat = q % 3 := by
    have h : q % 3 = 0 ∨ q % 3 = 1 ∨ q % 3 = 2 := by omega
    rcases h with h | h | h <;> rw [h]
    · exact ⟨.l0, rfl⟩
    · exact ⟨.l1, rfl⟩
    · exact ⟨.l2, rfl⟩
  obtain ⟨ch, hch⟩ := hlane
  exact ⟨q / 3, by omega, ch, by omega⟩

/-- Settles O59: byte by byte, the merge reads the pixel that the split wrote. -/
theorem mergeUndoesSplit : Obligations.MergeUndoesSplit := by
  intro flat n hlen
  refine List.ext_getElem (by rw [mergeLayers_length, hlen]) fun q hq hq' => ?_
  obtain ⟨p, hp, ch, rfl⟩ := exists_pixel_lane (hlen ▸ hq')
  rw [← List.getD_eq_getElem _ 0#8 hq, ← List.getD_eq_getElem _ 0#8 hq',
    mergeLayers_getD (fun c => splitLayer flat c n) hp, splitLayer_getD flat ch hp]

end Sys2Proof.Machine
end

section
/-! The interrupt output and what a step can do to it (60_exceptions.md R187, R188, R193 to R195), and the statements O6,
O15 and O16. -/

namespace Sys2Proof.Machine

/-- Settles O6: with no lane running, the block's own step is to stay. -/
theorem idleBlockDoesNothing : Obligations.IdleBlockDoesNothing := by
  intro s hagenda hidle
  rcases autonomous_cases s with ⟨_, he⟩ | ⟨ch, hrun, _⟩
  · rw [step_nil hagenda, he]
  · rw [lane_idle hidle ch] at hrun; cases hrun

/-! ### The interrupt output -/

/-- The enables are the bits of the word that `CTRL` reads as (10_state.md R14). -/
theorem ctrlOfWord_ctrlWord (c : Ctrl) : ctrlOfWord (ctrlWord c) = c := by
  simp (disch := decide) [ctrlOfWord, ctrlWord, -BitVec.getLsbD_eq_getElem, getLsbD_bitAt]

/-- Settles O15: the bits of `CTRL` are the enables, and `statusWordLayout` says which bits of `STATUS` are the flags. -/
theorem interruptEquation : Obligations.InterruptEquation := by
  intro s
  have hctrl := ctrlOfWord_ctrlWord s.ctrl
  rw [ctrlOfWord, Ctrl.mk.injEq] at hctrl
  obtain ⟨hdone, hdegr, herr⟩ := hctrl
  rw [statusWordLayout s 1, statusWordLayout s 2, statusWordLayout s 4, statusWordLayout s 5, statusWordLayout s 6,
    statusWordLayout s 7]
  simp only [readReg, hdone, hdegr, herr, irq, Flags.anyError]

/-- No enable changes and nothing pending is cleared from `s` to `t`. -/
structure KeepsPending (s t : State) : Prop where
  ctrl : t.ctrl = s.ctrl
  done : s.flags.done = true → t.flags.done = true
  degr : s.flags.degr = true → t.flags.degr = true
  anyError : s.flags.anyError = true → t.flags.anyError = true

/-- The interrupt is level-sensitive: it stays up while what it is made of does (60_exceptions.md R187). -/
theorem KeepsPending.irq {s t : State} (h : KeepsPending s t) (hirq : irq s = true) : Machine.irq t = true := by
  simp only [Machine.irq, Bool.or_eq_true, Bool.and_eq_true, h.ctrl] at hirq ⊢
  exact hirq.imp (Or.imp (And.imp_right h.done) (And.imp_right h.degr)) (And.imp_right h.anyError)

theorem keepsPending_of_eq {s t : State} (hctrl : t.ctrl = s.ctrl) (hflags : t.flags = s.flags) : KeepsPending s t := by
  constructor <;> simp [hctrl, hflags]

/-- A rejected command adds an error flag to those that are pending (60_exceptions.md R191). -/
theorem Rejection.keepsPending {s t : State} (h : Rejection s t) : KeepsPending s t where
  ctrl := h.frame.ctrl
  done hd := h.done.trans hd
  degr hd := h.degr.trans hd
  anyError _ := h.anyError

theorem keepsPending_refuseLocked (addr : Offset) (s : State) : KeepsPending s (refuseLocked addr s) :=
  (rejection_of_raiseError (by decide) (.inl rfl) _ _).keepsPending

/-- A completion step sets `DONE` and `DEGR` only (42_layer_pipeline.md R156, R157; 60_exceptions.md R197). -/
theorem keepsPending_laneComplete (ch : Lane) (s : State) : KeepsPending s (laneComplete ch s) := by
  have hshared := laneComplete_shared ch s
  cases hrun : (s.lane ch).lbusy with
  | false => rw [laneComplete_idle hrun]; exact keepsPending_of_eq rfl rfl
  | true =>
    exact {
      ctrl := hshared.ctrl
      done := fun hd => by rw [laneComplete_done hrun, hd, Bool.true_or]
      degr := fun hd => by rw [laneComplete_degr hrun, hd, Bool.true_or]
      anyError := fun he => by
        rwa [Flags.anyError, hshared.errKey, hshared.errDim, hshared.errCmd, hshared.errBusy] }

/-! ### Steps by what they do to the error state -/

/-- A step that acknowledges nothing and runs no command: what is pending stays, and the only new cause is a refused
access. -/
structure Unprompted (s t : State) : Prop extends KeepsPending s t where
  cause : t.cause = s.cause ∨ t.cause = .lockedAccess

theorem unprompted_of_eq {s t : State} (hctrl : t.ctrl = s.ctrl) (hflags : t.flags = s.flags)
    (hcause : t.cause = s.cause) : Unprompted s t :=
  ⟨keepsPending_of_eq hctrl hflags, .inl hcause⟩

theorem unprompted_refuseLocked (addr : Offset) (s : State) : Unprompted s (refuseLocked addr s) :=
  ⟨keepsPending_refuseLocked addr s, .inr rfl⟩

theorem unprompted_hostRead (addr : Offset) (n : Nat) (s : State) : Unprompted s (hostRead addr n s) := by
  rcases hostRead_cases addr n s with ⟨_, he⟩ | ⟨r, _, he⟩ | ⟨k, ch, i, _, _, he⟩ | ⟨k, ch, i, _, _, he⟩ <;> rw [he]
  · exact unprompted_of_eq rfl rfl rfl
  · exact unprompted_of_eq rfl rfl rfl
  · exact unprompted_refuseLocked addr s
  · exact unprompted_of_eq rfl rfl rfl

theorem unprompted_laneComplete (ch : Lane) (s : State) : Unprompted s (laneComplete ch s) :=
  ⟨keepsPending_laneComplete ch s, .inl (laneComplete_shared ch s).cause⟩

theorem unprompted_autonomous (s : State) : Unprompted s (autonomous s) := by
  rcases autonomous_cases s with ⟨_, he⟩ | ⟨ch, _, he⟩ <;> rw [he]
  · exact unprompted_of_eq rfl rfl rfl
  · exact unprompted_laneComplete ch s

theorem unprompted_setLane (s : State) (ch : Lane) (l : LaneState) : Unprompted s (s.setLane ch l) :=
  unprompted_of_eq (setLane_ctrl s ch l) (setLane_flags s ch l) (setLane_cause s ch l)

/-- Only a write to `CTRL` changes the enables, and only one to `STATUS` the flags (10_state.md R14, R17). -/
theorem unprompted_writeReg {r : Reg} (hctrl : r ≠ .ctrl) (hstatus : r ≠ .status) (w : Word) (s : State) :
    Unprompted s (writeReg r w s) := by
  cases r with
  | ctrl => exact absurd rfl hctrl
  | status => exact absurd rfl hstatus
  | len ch | sklen ch => exact unprompted_setLane s ch _
  | _ => exact unprompted_of_eq rfl rfl rfl

/-- A register is addressed only by a 32-bit access at its offset (20_memory.md R55). -/
theorem eq_offset_of_busTarget {p : Params} {addr : Offset} {n : Nat} {r : Reg}
    (h : busTarget p addr n = some (.reg r)) : addr = BitVec.ofNat 27 r.offset ∧ n = 4 := by
  obtain ⟨hn, haddr⟩ := busTarget_eq_reg h
  exact ⟨by rw [← haddr, BitVec.ofNat_toNat, BitVec.setWidth_eq], hn⟩

/-- The host writes that are more than unprompted: to `STATUS`, to `CTRL` and to `CMD`. -/
theorem hostWrite_unprompted_or {addr : Offset} {n : Nat} {v : Word} {s t : State}
    (ht : hostWrite addr n v s = .next t) :
    Unprompted s t ∨
    (addr = 0x008#27 ∧ n = 4 ∧ t = (acknowledge v s).respond .ok) ∨
    (addr = 0x004#27 ∧ n = 4 ∧ t = State.respond .ok { s with ctrl := ctrlOfWord v }) ∨
    (addr = cmdOffset ∧ n = 4 ∧ writeCmd v s = .next t) := by
  rcases hostWrite_cases addr n v s with ⟨_, he⟩ | ⟨hcmd, he⟩ | ⟨r, _, _, _, he⟩ | ⟨r, _, htarget, _, he⟩ |
    ⟨k, ch, i, _, _, he⟩ | ⟨k, ch, i, _, _, he⟩ <;> rw [he] at ht
  · cases ht; exact .inl (unprompted_of_eq rfl rfl rfl)
  · obtain ⟨haddr, hn⟩ := eq_cmdOffset_of_busTarget hcmd
    exact .inr (.inr (.inr ⟨haddr, hn, ht⟩))
  · cases ht; exact .inl (unprompted_refuseLocked addr s)
  · cases ht
    obtain ⟨haddr, hn⟩ := eq_offset_of_busTarget htarget
    by_cases hstatus : r = .status
    · subst hstatus; exact .inr (.inl ⟨haddr, hn, rfl⟩)
    · by_cases hctrl : r = .ctrl
      · subst hctrl; exact .inr (.inr (.inl ⟨haddr, hn, rfl⟩))
      · exact .inl { unprompted_writeReg hctrl hstatus v s with }
  · cases ht; exact .inl (unprompted_refuseLocked addr s)
  · cases ht; exact .inl { unprompted_setLane s ch _ with }

/-- Every step is unprompted, or it is one of the four ways of R188: a write to `STATUS`, a write to `CTRL`, `RESET`, or
a write to `CMD`. -/
theorem step_unprompted_or {s t : State} (ht : step s = .next t) :
    Unprompted s t ∨ ∃ rest,
      (∃ w, s.agenda = .write 0x008#27 4 w :: rest ∧ t = (acknowledge w { s with agenda := rest }).respond .ok) ∨
      (∃ w, s.agenda = .write 0x004#27 4 w :: rest ∧
        t = State.respond .ok { s with agenda := rest, ctrl := ctrlOfWord w }) ∨
      (s.agenda = .reset :: rest ∧ t = resetBlock { s with agenda := rest }) ∨
      (∃ w, s.agenda = .write cmdOffset 4 w :: rest ∧ writeCmd w { s with agenda := rest } = .next t) := by
  cases ha : s.agenda with
  | nil =>
    rw [step_nil ha] at ht
    cases ht
    exact .inl (unprompted_autonomous s)
  | cons e rest =>
    rw [step_cons ha] at ht
    cases e with
    | read addr n => cases ht; exact .inl { unprompted_hostRead addr n { s with agenda := rest } with }
    | write addr n w =>
      rcases hostWrite_unprompted_or (s := { s with agenda := rest }) ht with
        h | ⟨rfl, rfl, he⟩ | ⟨rfl, rfl, he⟩ | ⟨rfl, rfl, he⟩
      · exact .inl { h with }
      · exact .inr ⟨rest, .inl ⟨w, rfl, he⟩⟩
      · exact .inr ⟨rest, .inr (.inl ⟨w, rfl, he⟩)⟩
      · exact .inr ⟨rest, .inr (.inr (.inr ⟨w, rfl, he⟩))⟩
    | reset => cases ht; exact .inr ⟨rest, .inr (.inr (.inl ⟨rfl, rfl⟩))⟩
    | lane ch => cases ht; exact .inl { unprompted_laneComplete ch { s with agenda := rest } with }

/-- A word written to `CMD` is rejected, or an idle block accepts its command. -/
theorem writeCmd_rejection_or_acceptance {w : Word} {s t : State} (ht : writeCmd w s = .next t) :
    Rejection s t ∨ (s.busy = false ∧ ∃ i, decode w = .ok i ∧ Acceptance i s t) := by
  rcases writeCmd_cases w s with ⟨i, hd, he⟩ | ⟨_, _, he⟩ | ⟨_, _, he⟩ <;> rw [he] at ht
  · exact (exec_rejection_or_acceptance ht).imp_right fun ⟨hidle, h⟩ => ⟨hidle, i, hd, h⟩
  · cases ht; exact .inl (rejection_of_raiseError (by decide) (.inl rfl) _ _)
  · cases ht; exact .inl (rejection_of_raiseError (by decide) (.inl rfl) _ _)

/-- Settles O16: an unprompted step and a rejected command keep what is pending, so `irq` cannot fall there. -/
theorem interruptFallsOnlyBy : Obligations.InterruptFallsOnlyBy := by
  intro s t ht hup hdown
  have hnot : ¬ KeepsPending s t := fun h => by rw [h.irq hup] at hdown; cases hdown
  rcases step_unprompted_or ht with h | ⟨rest, ⟨w, ha, _⟩ | ⟨w, ha, _⟩ | ⟨ha, _⟩ | ⟨w, ha, hcmd⟩⟩
  · exact absurd h.toKeepsPending hnot
  · exact ⟨rest, .inl ⟨w, ha⟩⟩
  · exact ⟨rest, .inr (.inl ⟨w, ha⟩)⟩
  · exact ⟨rest, .inr (.inr (.inl ha))⟩
  · rcases writeCmd_rejection_or_acceptance hcmd with h | ⟨hidle, i, hd, h⟩
    · exact absurd { h.keepsPending with } hnot
    · exact ⟨rest, .inr (.inr (.inr ⟨w, ha, hidle, h.cmdr.trans (encode_of_decode hd), h.response⟩))⟩

end Sys2Proof.Machine
end

section
/-! The busy lock (60_exceptions.md R184, R185; 70_reset_and_hazards.md R217 to R219), and the statements O23 and O24. -/

namespace Sys2Proof.Machine

/-- Settles O24. -/
theorem commandWhileBusyIsRefused : Obligations.CommandWhileBusyIsRefused := by
  intro s w hbusy
  rw [hostWrite_cmd, writeCmd_busy hbusy]
  rfl

/-- A refusal of the machine leaves the state of the rule (60_exceptions.md R185). -/
theorem refuseLocked_eq (addr : Offset) (s : State) : refuseLocked addr s = refusedAccess addr s := by
  rw [refuseLocked, refusedAccess, BitVec.ofNat_toNat]
  rfl

/-- Each register has an offset of its own (10_state.md R12). -/
theorem Reg.offset_injective : Function.Injective Reg.offset := fun r r' h => by
  have hat := regAt_offset r
  rw [h, regAt_offset] at hat
  exact (Option.some.inj hat).symm

/-- No register lies in an aperture (20_memory.md R54). -/
theorem Reg.offset_lt_apertureBase (r : Reg) (k : MemKind) (ch : Lane) : r.offset < apertureBase k ch := by
  have hreg := Reg.offset_lt r
  have hbase : 0x1000000 ≤ apertureBase k ch := by cases k <;> cases ch <;> decide
  omega

/-- A register access that touches a locked resource is a write to a register that the machine locks. -/
theorem writeLocked_of_locked {s : State} {isWrite : Bool} {addr : Offset} {r : Reg} (haddr : addr.toNat = r.offset)
    (h : Locked s isWrite addr) : isWrite = true ∧ writeLocked s r = true := by
  obtain ⟨hbusy, ⟨hwrite, r', hr', he⟩ | ⟨hwrite, ch, howned, he⟩ | ⟨k, ch, _, hle, _⟩⟩ := h
  · cases Reg.offset_injective (he.trans haddr)
    refine ⟨hwrite, ?_⟩
    cases r with
    | width | height | keyA | keyB | keyC | keyD | keyTx | keyTy => exact hbusy
    | _ => simp [sharedConfig] at hr'
  · rcases he with he | he <;> cases Reg.offset_injective (he.trans haddr) <;> exact ⟨hwrite, howned⟩
  · have := Reg.offset_lt_apertureBase r k ch
    omega

/-- An access in the aperture of a lane that touches a locked resource finds that lane owned. -/
theorem owned_of_locked {s : State} {isWrite : Bool} {addr : Offset} {k : MemKind} {ch : Lane} {i : Nat}
    (hi : i < 0x1000000) (haddr : addr.toNat = apertureBase k ch + i) (h : Locked s isWrite addr) :
    s.owned ch = true := by
  have hnoreg : ∀ r : Reg, r.offset ≠ addr.toNat := fun r he => by
    have := Reg.offset_lt_apertureBase r k ch
    omega
  obtain ⟨_, ⟨_, r, _, he⟩ | ⟨_, _, _, he | he⟩ | ⟨k', ch', howned, hle, hlt⟩⟩ := h
  · exact absurd he (hnoreg r)
  · exact absurd he (hnoreg _)
  · exact absurd he (hnoreg _)
  · have hslot := apertureSlot_base k' ch' (i := addr.toNat - apertureBase k' ch') (by omega)
    rw [Nat.add_sub_cancel' hle, haddr, apertureSlot_base k ch hi] at hslot
    cases hslot
    exact howned

theorem hostWrite_of_locked {s : State} {addr : Offset} {n : Nat} (v : Word) (hbus : ¬ BusError s.params addr n)
    (hlock : Locked s true addr) : hostWrite addr n v s = .next (refuseLocked addr s) := by
  rcases hostWrite_cases addr n v s with ⟨hnone, _⟩ | ⟨hcmd, _⟩ | ⟨_, _, _, _, he⟩ | ⟨r, _, hreg, hfree, _⟩ |
    ⟨_, _, _, _, _, he⟩ | ⟨k, ch, i, hcells, hfree, _⟩
  · exact absurd (busTarget_eq_none_iff.1 hnone) hbus
  · cases (writeLocked_of_locked (busTarget_eq_reg hcmd).2 hlock).2
  · exact he
  · rw [(writeLocked_of_locked (busTarget_eq_reg hreg).2 hlock).2] at hfree; cases hfree
  · exact he
  · obtain ⟨haddr, hi, _⟩ := busTarget_eq_cells hcells
    rw [owned_of_locked hi haddr hlock] at hfree; cases hfree

theorem hostRead_of_locked {s : State} {addr : Offset} {n : Nat} (hbus : ¬ BusError s.params addr n)
    (hlock : Locked s false addr) : hostRead addr n s = refuseLocked addr s := by
  rcases hostRead_cases addr n s with ⟨hnone, _⟩ | ⟨r, hreg, _⟩ | ⟨_, _, _, _, _, he⟩ | ⟨k, ch, i, hcells, hfree, _⟩
  · exact absurd (busTarget_eq_none_iff.1 hnone) hbus
  · cases (writeLocked_of_locked (busTarget_eq_reg hreg).2 hlock).1
  · exact he
  · obtain ⟨haddr, hi, _⟩ := busTarget_eq_cells hcells
    rw [owned_of_locked hi haddr hlock] at hfree; cases hfree

/-- Settles O23: the locks of the rule are locks of the machine, and bus errors are as O19 says, busy or not. -/
theorem lockedAccessIsRefused : Obligations.LockedAccessIsRefused := by
  refine ⟨fun s addr n v hbus hlock => ?_, fun s addr n hbus hlock => ?_,
    fun s addr n v hbus _ => busErrorsChangeNothing.1 s addr n v hbus⟩
  · rw [hostWrite_of_locked v hbus hlock, refuseLocked_eq]
  · rw [hostRead_of_locked hbus hlock, refuseLocked_eq]

end Sys2Proof.Machine
end

section
/-! The two rejections that depend on the registers (60_exceptions.md R181, R182), what the error state does not do to a
command (R194), and the statements O27, O28 and O31. -/

namespace Sys2Proof.Machine

/-! ### DIM_MISMATCH -/

/-- A failed geometry check rejects a command that passed the tests before it (42_layer_pipeline.md R150). -/
theorem exec_of_geometryOf {i : Instr} {s : State} {info : Word} (hidle : s.busy = false) (hw : i.wellFormed = true)
    (hgeo : geometryOf i s = some info) : exec i s = .next ((raiseError .dimMismatch info s).respond .ok) := by
  rcases exec_cases i s with ⟨hb, _⟩ | ⟨_, hw', _⟩ | ⟨_, _, _, hgeo', he⟩ | ⟨_, _, hgeo', _⟩ | ⟨_, _, hgeo', _⟩
  · rw [hidle] at hb; cases hb
  · rw [hw] at hw'; cases hw'
  · rw [hgeo] at hgeo'; cases hgeo'; exact he
  · rw [hgeo] at hgeo'; cases hgeo'
  · rw [hgeo] at hgeo'; cases hgeo'

theorem geometryOf_of_ne_keyInv {i : Instr} (hi : i ≠ .keyInv) (s : State) : geometryOf i s = laneGeometry i.lanes s := by
  cases i with
  | keyInv => exact absurd rfl hi
  | _ => rfl

/-- The model's test of the dimensions is that of the rule (42_layer_pipeline.md R151). -/
theorem geometryLegal_iff (s : State) :
    GeometryLegal s ↔ ¬ (s.width.toNat = 0 ∨ s.height.toNat = 0 ∨ s.params.lmax < s.pixels) := by
  rw [GeometryLegal, State.pixels]
  omega

theorem laneGeometry_of_not_legal (m : LaneMask) {s : State} (h : ¬ GeometryLegal s) :
    laneGeometry m s = some badGeometry :=
  if_pos (not_not.1 (mt (geometryLegal_iff s).2 h))

theorem lengthWrong_eq_false_iff {m : LaneMask} {s : State} {ch : Lane} : lengthWrong m s ch = false ↔
    (selects m ch = true → (s.lane ch).len.toNat = s.width.toNat * s.height.toNat) := by
  rw [← Bool.not_eq_true, lengthWrong, Bool.and_eq_true, decide_eq_true_eq, not_and, not_not]
  rfl

/-- On a legal geometry the check names the first lane whose length is wrong (42_layer_pipeline.md R151). -/
theorem laneGeometry_of_lengthWrong {m : LaneMask} {s : State} {ch : Lane} (hlegal : GeometryLegal s)
    (hwrong : lengthWrong m s ch = true) (hlower : ∀ c, c.toNat < ch.toNat → lengthWrong m s c = false) :
    laneGeometry m s = some (BitVec.ofNat 32 ch.toNat) := by
  have hfirst : Lane.all.find? (lengthWrong m s) = some ch := by
    cases ch with
    | l0 => simp [Lane.all, hwrong]
    | l1 => simp [Lane.all, hwrong, hlower .l0 (by decide)]
    | l2 => simp [Lane.all, hwrong, hlower .l0 (by decide), hlower .l1 (by decide)]
  rw [laneGeometry, if_neg ((geometryLegal_iff s).1 hlegal), hfirst, Option.map_some]

/-- Settles O27: each clause names the information word of the geometry check. -/
theorem dimMismatchIsRaised : Obligations.DimMismatchIsRaised := by
  unfold Obligations.DimMismatchIsRaised
  intro rejected
  refine ⟨fun s hidle hwidth => ?_, fun s i hidle hw hi => ⟨fun hillegal => ?_, fun ch hlegal hsel hlen hlower => ?_⟩⟩
  · exact exec_of_geometryOf hidle rfl (if_pos hwidth)
  · refine exec_of_geometryOf hidle hw ?_
    exact (geometryOf_of_ne_keyInv hi s).trans (laneGeometry_of_not_legal _ hillegal)
  · refine exec_of_geometryOf hidle hw ?_
    rw [geometryOf_of_ne_keyInv hi]
    refine laneGeometry_of_lengthWrong hlegal ?_ fun c hc => ?_
    · simp [lengthWrong, hsel, State.pixels, hlen]
    · exact lengthWrong_eq_false_iff.2 (hlower c hc)

/-! ### KEY_INVALID -/

/-- The search is for an inverse of the remainder of the determinant (41_affine_permutation.md R125, R126). -/
theorem keyInvertible_iff_exists_inverse (k : AffineKey) {w : Nat} (hw : 0 < w) :
    keyInvertible k w = true ↔
      ∃ v : Nat, 1 ≤ v ∧ v < w ∧ ((k.a * k.d - k.b * k.c) % (w : Int)) * (v : Int) % (w : Int) = 1 := by
  have hcast : ∀ v : Nat, ((k.a * k.d - k.b * k.c) % (w : Int)) * (v : Int) % (w : Int) =
      ((determinant k w * v % w : Nat) : Int) := fun v => by
    rw [Int.natCast_emod, Int.natCast_mul, determinant, emod_coe _ hw]
  simp only [hcast, Nat.cast_eq_one]
  constructor
  · intro h
    obtain ⟨v, hv⟩ := Option.isSome_iff_exists.1 h
    exact ⟨v, inverseSearch_some hv⟩
  · rintro ⟨v, hpos, hlt, hinv⟩
    cases hs : inverseSearch (determinant k w) w with
    | some _ => rw [keyInvertible, hs]; rfl
    | none => exact absurd hinv (inverseSearch_none hs v hpos hlt)

/-- `KeyCoprime` fails on a legal width by one column or a common factor (41_affine_permutation.md R126). -/
theorem not_keyCoprime_iff {s : State} (hw : 1 ≤ s.width.toNat) : ¬ KeyCoprime s ↔ s.width.toNat = 1 ∨
    Int.gcd (s.key.a.toInt * s.key.d.toInt - s.key.b.toInt * s.key.c.toInt) s.width.toNat ≠ 1 := by
  rw [KeyCoprime]
  omega

/-- A failed key stage writes `DETN` and zeroes the other results (41_affine_permutation.md R128). -/
theorem keyStageResult_of_not_invertible {k : AffineKey} {w : Nat} (h : keyInvertible k w = false) :
    keyStageResult k w =
      { detn := BitVec.ofNat 16 (determinant k w), detinv := 0#16, inv0 := 0#16, inv1 := 0#16, inv2 := 0#16,
        inv3 := 0#16 } := by
  have hnone : inverseSearch (determinant k w) w = none := Option.isNone_iff_eq_none.1 (Option.isSome_eq_false_iff.1 h)
  simp only [keyStageResult, hnone]

/-- A remainder by a width is the same number in a result register and in `EINFO`. -/
theorem zeroExtend32_emod (n : Int) {w : Nat} (h0 : 0 < w) (hw : w < 65536) :
    zeroExtend32 (BitVec.ofNat 16 (emod n w)) = BitVec.ofInt 32 (n % (w : Int)) := by
  rw [zeroExtend32_eq_ofNat, toNat_ofNat_emod n h0 hw, ← emod_coe n h0, BitVec.ofInt_natCast]

/-- A command with a key stage past the geometry test, in the words of the statements: the converse of
`passed_of_keyed`. -/
theorem keyed_of_passed {i : Instr} {s : State} (hidle : s.busy = false) (hw : i.wellFormed = true)
    (hgeo : geometryOf i s = none) (hstage : hasKeyStage i = true) :
    (i = .keyInv ∧ 1 ≤ s.width.toNat) ∨ ∃ m, Admissible m s ∧ (i = .permRev m ∨ i = .wmExt m) := by
  have hadm : i.opcode ≠ .keyInv → laneGeometry i.lanes s = none → Admissible i.lanes s := fun hop hlane => by
    obtain ⟨hlegal, hlens⟩ := (laneGeometry_none i.lanes s).1 hlane
    exact ⟨hidle, ((wellFormed_iff i).1 hw).resolve_left hop, hlegal, hlens⟩
  cases i with
  | keyInv =>
    refine .inl ⟨rfl, Nat.one_le_iff_ne_zero.2 fun hzero => ?_⟩
    rw [geometryOf, keyGeometry, if_pos hzero] at hgeo
    cases hgeo
  | permRev m => exact .inr ⟨m, hadm nofun hgeo, .inl rfl⟩
  | wmExt m => exact .inr ⟨m, hadm nofun hgeo, .inr rfl⟩
  | permFwd | lbcEmb | lbcExt | wmEmb => cases hstage

/-- Of all outcomes of a command only a failed key stage makes `CAUSE` become `KEY_INVALID` (42_layer_pipeline.md
R150). -/
theorem exec_raises_keyInvalid {i : Instr} {s t : State} (ht : exec i s = .next t) (hs : s.cause ≠ .keyInvalid)
    (hcause : t.cause = .keyInvalid) :
    s.busy = false ∧ i.wellFormed = true ∧ geometryOf i s = none ∧ hasKeyStage i = true := by
  rcases exec_cases i s with ⟨_, he⟩ | ⟨_, _, he⟩ | ⟨_, _, _, _, he⟩ | ⟨hidle, hw, hgeo, hstage, _, _⟩ |
    ⟨_, _, _, _, he⟩
  · rw [he] at ht; cases ht; cases hcause
  · rw [he] at ht; cases ht; cases hcause
  · rw [he] at ht; cases ht; cases hcause
  · exact ⟨hidle, hw, hgeo, hstage⟩
  · rw [he] at ht; cases ht
    exact absurd ((acceptance_accepted i s).cause.symm.trans hcause) hs

theorem writeCmd_raises_keyInvalid {w : Word} {s t : State} (ht : writeCmd w s = .next t)
    (hcause : t.cause = .keyInvalid) : ∃ i, decode w = .ok i ∧ exec i s = .next t := by
  rcases writeCmd_cases w s with ⟨i, hd, he⟩ | ⟨_, _, he⟩ | ⟨_, _, he⟩ <;> rw [he] at ht
  · exact ⟨i, hd, ht⟩
  · cases ht; cases hcause
  · cases ht; cases hcause

/-- A step that makes `CAUSE` become `KEY_INVALID` is a write to `CMD`. -/
theorem step_raises_keyInvalid {s t : State} (ht : step s = .next t) (hs : s.cause ≠ .keyInvalid)
    (hcause : t.cause = .keyInvalid) :
    ∃ w rest, s.agenda = .write cmdOffset 4 w :: rest ∧ writeCmd w { s with agenda := rest } = .next t := by
  rcases step_unprompted_or ht with h | ⟨rest, ⟨w, _, rfl⟩ | ⟨w, _, rfl⟩ | ⟨_, rfl⟩ | ⟨w, ha, hcmd⟩⟩
  · rcases h.cause with he | he
    · exact absurd (he.symm.trans hcause) hs
    · rw [he] at hcause; cases hcause
  · exact absurd hcause hs
  · exact absurd hcause hs
  · cases hcause
  · exact ⟨w, rest, ha, hcmd⟩

/-- Settles O28: the equivalence from the search and the gcd, the effect from `exec_of_not_keyOk`, and who raises it from
what each step does to `CAUSE`. -/
theorem keyInvalidIsRaised : Obligations.KeyInvalidIsRaised := by
  refine ⟨fun s hw => ?_, fun s t ht hs hcause => ?_⟩
  · intro w det
    refine ⟨(not_congr ((keyInvertible_iff_exists_inverse s.key.values hw).symm.trans (keyOk_iff s))).trans
      (not_keyCoprime_iff hw), fun i hidle hi hbad => ?_⟩
    have hkey : s.keyOk = false := by
      rw [Bool.eq_false_iff, Ne, keyOk_iff]
      exact (not_keyCoprime_iff hw).2 hbad
    obtain ⟨_, hwf, hgeo, hstage⟩ := passed_of_keyed hw (hi.imp_left fun h => ⟨h, hidle⟩)
    have hres := keyStageResult_of_not_invertible hkey
    rw [exec_of_not_keyOk hidle hwf hgeo hstage hkey, keyStage, hres, determinant,
      zeroExtend32_emod _ hw s.width.isLt, ← ofInt_emod _ hw]
    rfl
  · obtain ⟨w, rest, ha, hcmd⟩ := step_raises_keyInvalid ht hs hcause
    obtain ⟨i, hd, he⟩ := writeCmd_raises_keyInvalid hcmd hcause
    obtain ⟨hidle, hw, hgeo, hstage⟩ := exec_raises_keyInvalid he hs hcause
    exact ⟨w, i, rest, ha, hd, hidle, keyed_of_passed hidle hw hgeo hstage⟩

/-! ### The error state does not block commands -/

/-- The state with the flags, `CAUSE`, `EINFO` and the enables replaced. -/
def State.withErrorState (s : State) (f : Flags) (c : Cause) (e : Word) (k : Ctrl) : State :=
  { s with flags := f, cause := c, einfo := e, ctrl := k }

/-- What a command works on and answers is the same in both states. -/
structure SameWork (s t : State) : Prop where
  lane : ∀ ch, t.lane ch = s.lane ch
  cmdr : t.cmdr = s.cmdr
  inv : t.inv = s.inv
  response : t.response = s.response

/-- A busy block refuses every command (42_layer_pipeline.md R150). -/
theorem exec_of_busy {s : State} (hbusy : s.busy = true) (i : Instr) :
    exec i s = .next ((raiseError .cmdWhileBusy (encode i) s).respond .err) := by
  rcases exec_cases i s with ⟨_, he⟩ | ⟨hidle, _⟩ | ⟨_, hidle, _⟩ | ⟨hidle, _⟩ | ⟨hidle, _⟩
  · exact he
  all_goals rw [hidle] at hbusy; cases hbusy

section ErrorState

variable (s : State) (f : Flags) (c : Cause) (e : Word) (k : Ctrl)

theorem withErrorState_lane (ch : Lane) : (s.withErrorState f c e k).lane ch = s.lane ch := by cases ch <;> rfl

/-- The geometry check reads the dimensions, `LMAX` and the lengths only (42_layer_pipeline.md R151). -/
theorem geometryOf_withErrorState (i : Instr) : geometryOf i (s.withErrorState f c e k) = geometryOf i s := by
  cases i <;> rfl

/-- An error event on either state, whatever error it is. -/
theorem sameWork_raiseError (c' : Cause) (info : Word) (r : Response) : SameWork
    ((raiseError c' info s).respond r) ((raiseError c' info (s.withErrorState f c e k)).respond r) where
  lane ch := by simp [withErrorState_lane]
  cmdr := rfl
  inv := rfl
  response := rfl

theorem sameWork_accepted (i : Instr) :
    SameWork (accepted i (staged i s)) (accepted i (staged i (s.withErrorState f c e k))) where
  lane ch := by cases i <;> cases ch <;> rfl
  cmdr := by cases i <;> rfl
  inv := by cases i <;> rfl
  response := by cases i <;> rfl

/-- The tests of a command read nothing of the error state, so it has the same outcome in both states. -/
theorem exec_withErrorState {i : Instr} {t : State} (ht : exec i s = .next t) :
    ∃ t', exec i (s.withErrorState f c e k) = .next t' ∧ SameWork t t' := by
  have hgeoEq := geometryOf_withErrorState s f c e k i
  rcases exec_cases i s with ⟨hbusy, he⟩ | ⟨hidle, hw, he⟩ | ⟨info, hidle, hw, hgeo, he⟩ |
    ⟨hidle, hw, hgeo, hstage, hbad, he⟩ | ⟨hidle, hw, hgeo, hkey, he⟩ <;> rw [he] at ht <;> cases ht
  · exact ⟨_, exec_of_busy (s := s.withErrorState f c e k) hbusy i, sameWork_raiseError s f c e k _ _ _⟩
  · exact ⟨_, (emptyLaneMaskIsIllegal (s.withErrorState f c e k) i hidle hw).1, sameWork_raiseError s f c e k _ _ _⟩
  · exact ⟨_, exec_of_geometryOf hidle hw (hgeoEq.trans hgeo), sameWork_raiseError s f c e k _ _ _⟩
  · exact ⟨_, exec_of_not_keyOk hidle hw (hgeoEq.trans hgeo) hstage hbad,
      sameWork_raiseError (keyStage s) f c e k _ _ _⟩
  · exact ⟨_, exec_of_passed hidle hw (hgeoEq.trans hgeo) hkey, sameWork_accepted s f c e k i⟩

end ErrorState

/-- Settles O31. -/
theorem errorsDoNotBlockCommands : Obligations.ErrorsDoNotBlockCommands := by
  intro s t i f c e k ht
  obtain ⟨t', he, h⟩ := exec_withErrorState s f c e k ht
  exact ⟨t', he, h.lane, h.cmdr, h.inv, h.response⟩

end Sys2Proof.Machine
end

section
/-! What `RESET` leaves of the block, register by register and cell by cell (70_reset_and_hazards.md R210 to R213), and
the statement O11. -/

namespace Sys2Proof.Machine

@[simp] theorem resetBlock_lane (s : State) (ch : Lane) : (resetBlock s).lane ch = resetLane s ch := by
  cases ch <;> rfl

/-- `RESET` leaves no register different from power-on (70_reset_and_hazards.md R210): `readReg` sees of a lane only its
counters and its `LBUSY` bit, never its memories. -/
theorem readReg_resetBlock (s : State) (r : Reg) : readReg (resetBlock s) r = readReg State.reset r := by
  cases r with
  | len ch | sklen ch | degraded ch | dropped ch => cases ch <;> rfl
  | _ => rfl

/-- The embed commands by their opcode bytes (30_encoding.md R82). -/
theorem embedRunning_iff (s : State) :
    s.embedRunning = true ↔ s.cmdr.extractLsb 7 0 = 0x20#8 ∨ s.cmdr.extractLsb 7 0 = 0x30#8 := by
  have hbyte (o : Opcode) : opcodeOf (opField s.cmdr) = some o ↔ s.cmdr.extractLsb 7 0 = opcodeByte o :=
    ⟨fun h => (opcodeByte_of_opcodeOf h).symm, fun h => opcodeOf_cmdr h (opcodeOf_opcodeByte o)⟩
  rw [State.embedRunning, Bool.or_eq_true, decide_eq_true_eq, decide_eq_true_eq, hbyte, hbyte]
  rfl

/-- Every cell after `RESET`: the side key of an owned lane is lost only under an embed command, its layer always
(70_reset_and_hazards.md R211, R212; log entry 5). -/
theorem resetBlock_cell (s : State) (k : MemKind) (ch : Lane) (i : Nat) :
    (resetBlock s).cell k ch i =
      if s.owned ch = true ∧ (k = .sk → s.embedRunning = true) ∧ i < s.pixels then
        Config.abandonedByte s.draws (apertureBase k ch + i)
      else s.cell k ch i := by
  cases k with
  | layer => simpa [State.cell, LaneState.mem] using resetLane_layer s ch i
  | sk => simpa [State.cell, LaneState.mem] using resetLane_sk s ch i

/-- Settles O11: the step takes the `RESET` off the agenda, and the clauses on cells are `resetBlock_cell` read in each
of its cases. -/
theorem resetEventEffect : Obligations.ResetEventEffect := by
  intro s rest ha
  have hcell := resetBlock_cell { s with agenda := rest }
  refine ⟨resetBlock { s with agenda := rest }, step_cons ha, readReg_resetBlock _, rfl, rfl, rfl, rfl, rfl, rfl,
    fun k ch i hfree => ?_, fun k ch i hi => ?_, fun ch i hnot20 hnot30 => ?_, fun ch i howned hi => ?_,
    fun ch i howned hi hembed => ?_⟩
  · exact (hcell k ch i).trans (if_neg fun ⟨howned, _, _⟩ => Bool.false_ne_true (hfree.symm.trans howned))
  · exact (hcell k ch i).trans (if_neg fun ⟨_, _, hlt⟩ => Nat.not_lt.2 hi hlt)
  · exact (hcell .sk ch i).trans
      (if_neg fun ⟨_, hembed, _⟩ => ((embedRunning_iff s).1 (hembed rfl)).elim hnot20 hnot30)
  · exact (hcell .layer ch i).trans (if_pos ⟨howned, nofun, hi⟩)
  · exact (hcell .sk ch i).trans (if_pos ⟨howned, fun _ => (embedRunning_iff s).2 hembed, hi⟩)

end Sys2Proof.Machine
end
